-- ==== Sys2Proof/Word.lean ====
section
/-! DEFINITION. The plain value types of the machine (spec/00_scope.md R5): bit 0 of every value is its
least significant bit. Nothing here computes anything. -/

namespace Sys2Proof

/-- A byte, 8 bits (R8). -/
abbrev Byte := BitVec 8

/-- A linear address or an instruction pointer: 64 bits; in `Mode32` 32 bits held zero-extended (R15, R30). -/
abbrev Addr := BitVec 64

/-- The storage of one vector register. The register itself is `MAXVL` bits wide (R12); the bits from
`MAXVL` up are held as zero (assumption log 2). -/
abbrev VReg := BitVec 512

end Sys2Proof
end

