-- ==== Sys2Proof/Config.lean ====
section
/-! DEFINITION. What an implementation or a launch fixes (spec/00_scope.md R4): the operating mode, the CPUID
feature flags and the number of implemented linear-address bits. They are parameters of the spec's `step`; the
model carries them in `State` as plain data, so that a statement about every state is a statement about every
configuration (assumption log 1). The spec leaves no value open that would need a free constant here. -/

namespace Sys2Proof

/-- Operating modes (R4, D1). Only the first two are given a meaning by the spec; the others are named in
D1 and are refused as `UnsupportedMode`. -/
inductive Mode where
  /-- 64-bit mode, the core admitted subset (D1). -/
  | mode64
  /-- 32-bit protected or compatibility mode with a 32-bit code segment (R4). -/
  | mode32
  /-- Real-address mode, the mode after power-up (R22); refused (D1). -/
  | realAddress
  /-- Virtual-8086 mode; refused (D1). -/
  | virtual8086
  /-- A 16-bit code segment; refused (D1). -/
  | code16
  /-- System-management mode; refused (D1). -/
  | smm
  deriving DecidableEq, Repr

/-- `VA_BITS` (R4): the number of implemented linear-address bits, 48 or 57. -/
inductive VaBits where
  | bits48
  | bits57
  deriving DecidableEq, Repr

/-- `Feat` (R4, R18): the CPUID feature flags that select the forms. -/
structure Feat where
  sse : Bool
  sse2 : Bool
  avx : Bool
  avx2 : Bool
  avx512f : Bool
  avx512bw : Bool
  avx512vl : Bool
  deriving DecidableEq, Repr

end Sys2Proof
end

