-- ==== Sys2Proof/Syntax.lean ====
section
/-! DEFINITION. The instructions as syntax: one constructor of `Instr` per row of spec/opcode_table.json, holding
every field of the row's encoding (ignored bits too), so that its length and its bytes can be recovered.
Register-number extension bits are held un-inverted: `r = true` means `R = 1`, that is `R~ = 0` in a VEX or EVEX
prefix (R55, R56, R58). The order of the legacy prefix bytes is not held (assumption log 17). -/

namespace Sys2Proof

/-- The segment-override bytes the model admits (R51): `2E` CS, `36` SS, `3E` DS, `26` ES. -/
inductive SegOverride where
  | cs
  | ss
  | ds
  | es
  deriving DecidableEq, Repr

/-- The legacy prefixes a decoded instruction can carry (R51), the mandatory `66` of form 2 apart: at most one
segment override, and the address-size byte `67`. -/
structure Prefixes where
  seg : Option SegOverride
  addrSize : Bool
  deriving DecidableEq, Repr

/-- The REX byte `0100 W R X B` (R53). -/
structure Rex where
  w : Bool
  r : Bool
  x : Bool
  b : Bool
  deriving DecidableEq, Repr

/-- The fields of a two-byte VEX prefix (R55) that the form's row leaves free. -/
structure Vex2 where
  r : Bool
  vvvv : BitVec 4
  deriving DecidableEq, Repr

/-- The fields of a three-byte VEX prefix (R56) that the form's row leaves free. -/
structure Vex3 where
  r : Bool
  x : Bool
  b : Bool
  w : Bool
  vvvv : BitVec 4
  deriving DecidableEq, Repr

/-- The fields of an EVEX prefix (R58) that the form's row leaves free; `rHi` is R', `vHi` is V'. -/
structure Evex where
  r : Bool
  x : Bool
  b : Bool
  rHi : Bool
  w : Bool
  vvvv : BitVec 4
  vHi : Bool
  deriving DecidableEq, Repr

/-- The displacement of an address form that `mod` selects (R61). -/
inductive Disp where
  /-- `mod = 00b`. -/
  | none
  /-- `mod = 01b`: one byte, sign-extended. -/
  | disp8 (d : BitVec 8)
  /-- `mod = 10b`: four bytes, sign-extended. -/
  | disp32 (d : BitVec 32)
  deriving DecidableEq, Repr

/-- The memory alternative of `ModRM:r/m` with 32- or 64-bit addressing (R60 to R64). -/
inductive MemForm where
  /-- No SIB byte: base register `B:rm` plus a displacement. -/
  | base (rm : BitVec 3) (disp : Disp)
  /-- `mod = 00b`, `rm = 101b`: a displacement alone, RIP-relative in `Mode64` (R63), absolute in `Mode32` (R64). -/
  | dispOnly (d : BitVec 32)
  /-- SIB byte with a base register. -/
  | sib (scale : BitVec 2) (index : BitVec 3) (base : BitVec 3) (disp : Disp)
  /-- SIB byte with `mod = 00b`, `base = 101b`: no base register, a 32-bit displacement. -/
  | sibNoBase (scale : BitVec 2) (index : BitVec 3) (d : BitVec 32)
  deriving DecidableEq, Repr

/-- The operand that `ModRM.rm` names (R60): a register when `mod = 11b`, else memory. -/
inductive RmOperand where
  | reg (rm : BitVec 3)
  | mem (m : MemForm)
  deriving DecidableEq, Repr

/-- ModRM byte with its SIB byte and displacement (R60, R61). -/
structure ModRM where
  reg : BitVec 3
  rm : RmOperand
  deriving DecidableEq, Repr

/-- The seven forms of R2, in its order. -/
inductive Form where
  | mm
  | xmm
  | vex128
  | vex256
  | evex128
  | evex256
  | evex512
  deriving DecidableEq, Repr

/-- The instructions: one constructor per row of spec/opcode_table.json. -/
inductive Instr where
  /-- `NP 0F F6 /r`, form 1 (R95). -/
  | psadbwMm (p : Prefixes) (m : ModRM)
  /-- `NP REX 0F F6 /r`, form 1 in `Mode64` with a REX byte (R95, R53). -/
  | psadbwMmRex (p : Prefixes) (rex : Rex) (m : ModRM)
  /-- `66 0F F6 /r`, form 2 (R96). -/
  | psadbwXmm (p : Prefixes) (m : ModRM)
  /-- `66 REX 0F F6 /r`, form 2 in `Mode64` with a REX byte (R96, R53). -/
  | psadbwXmmRex (p : Prefixes) (rex : Rex) (m : ModRM)
  /-- `VEX.128.66.0F.WIG F6 /r` with the two-byte prefix, form 3 (R100). -/
  | vpsadbwVex128C5 (p : Prefixes) (v : Vex2) (m : ModRM)
  /-- `VEX.128.66.0F.WIG F6 /r` with the three-byte prefix, form 3 (R100). -/
  | vpsadbwVex128C4 (p : Prefixes) (v : Vex3) (m : ModRM)
  /-- `VEX.256.66.0F.WIG F6 /r` with the two-byte prefix, form 4 (R101). -/
  | vpsadbwVex256C5 (p : Prefixes) (v : Vex2) (m : ModRM)
  /-- `VEX.256.66.0F.WIG F6 /r` with the three-byte prefix, form 4 (R101). -/
  | vpsadbwVex256C4 (p : Prefixes) (v : Vex3) (m : ModRM)
  /-- `EVEX.128.66.0F.WIG F6 /r`, form 5 (R105). -/
  | vpsadbwEvex128 (p : Prefixes) (e : Evex) (m : ModRM)
  /-- `EVEX.256.66.0F.WIG F6 /r`, form 6 (R106). -/
  | vpsadbwEvex256 (p : Prefixes) (e : Evex) (m : ModRM)
  /-- `EVEX.512.66.0F.WIG F6 /r`, form 7 (R107). -/
  | vpsadbwEvex512 (p : Prefixes) (e : Evex) (m : ModRM)
  deriving DecidableEq, Repr

/-- The form of R2 that an instruction is an encoding of. -/
def Instr.form : Instr → Form
  | .psadbwMm _ _ => .mm
  | .psadbwMmRex _ _ _ => .mm
  | .psadbwXmm _ _ => .xmm
  | .psadbwXmmRex _ _ _ => .xmm
  | .vpsadbwVex128C5 _ _ _ => .vex128
  | .vpsadbwVex128C4 _ _ _ => .vex128
  | .vpsadbwVex256C5 _ _ _ => .vex256
  | .vpsadbwVex256C4 _ _ _ => .vex256
  | .vpsadbwEvex128 _ _ _ => .evex128
  | .vpsadbwEvex256 _ _ _ => .evex256
  | .vpsadbwEvex512 _ _ _ => .evex512

/-- The legacy prefixes an instruction carries. -/
def Instr.prefixes : Instr → Prefixes
  | .psadbwMm p _ => p
  | .psadbwMmRex p _ _ => p
  | .psadbwXmm p _ => p
  | .psadbwXmmRex p _ _ => p
  | .vpsadbwVex128C5 p _ _ => p
  | .vpsadbwVex128C4 p _ _ => p
  | .vpsadbwVex256C5 p _ _ => p
  | .vpsadbwVex256C4 p _ _ => p
  | .vpsadbwEvex128 p _ _ => p
  | .vpsadbwEvex256 p _ _ => p
  | .vpsadbwEvex512 p _ _ => p

/-- The ModRM byte (with SIB byte and displacement) of an instruction. -/
def Instr.modrm : Instr → ModRM
  | .psadbwMm _ m => m
  | .psadbwMmRex _ _ m => m
  | .psadbwXmm _ m => m
  | .psadbwXmmRex _ _ m => m
  | .vpsadbwVex128C5 _ _ m => m
  | .vpsadbwVex128C4 _ _ m => m
  | .vpsadbwVex256C5 _ _ m => m
  | .vpsadbwVex256C4 _ _ m => m
  | .vpsadbwEvex128 _ _ m => m
  | .vpsadbwEvex256 _ _ m => m
  | .vpsadbwEvex512 _ _ m => m

end Sys2Proof
end

