-- ==== Sys2Proof/WellFormed.lean ====
section
/-! DEFINITION. Which instruction terms an encoding admits (spec/30_encoding.md R60 to R65, R72, R53): the terms
that the decoder can produce in a mode, and that the encoder is meant for. -/

namespace Sys2Proof

/-- `rm = 100b` asks for a SIB byte and `mod = 00b`, `rm = 101b` (or SIB.base `= 101b`) for a displacement without
a base register (R61), so these numbers are not bases of the plain forms. -/
def MemForm.wf : MemForm → Bool
  | .base rm .none => rm != 4 && rm != 5
  | .base rm _ => rm != 4
  | .dispOnly _ => true
  | .sib _ _ sibBase .none => sibBase != 5
  | .sib _ _ _ _ => true
  | .sibNoBase _ _ _ => true

/-- A register operand is always well formed; a memory operand as its address form is (R60). -/
def RmOperand.wf : RmOperand → Bool
  | .reg _ => true
  | .mem m => m.wf

/-- Whether the operand is in memory (`mod != 11b`, R60). -/
def RmOperand.isMem : RmOperand → Bool
  | .reg _ => false
  | .mem _ => true

/-- In `Mode32` a `67` prefix with a memory operand asks for 16-bit addressing, which has no term here (R65). -/
def Prefixes.wf32 (p : Prefixes) (rm : RmOperand) : Bool :=
  !(p.addrSize && rm.isMem)

/-- In `Mode32` a two-byte VEX prefix has `R~ = 1` and `vvvv~` bit 3 `= 1` (R72, R74). -/
def Vex2.wf32 (v : Vex2) : Bool :=
  !v.r && !v.vvvv.getLsbD 3

/-- In `Mode32` every extension bit of a three-byte VEX prefix is in its "register 0-7" state (R72, D23). -/
def Vex3.wf32 (v : Vex3) : Bool :=
  !v.r && !v.x && !v.b && !v.vvvv.getLsbD 3

/-- In `Mode32` every extension bit of an EVEX prefix is in its "register 0-7" state (R72, D23). -/
def Evex.wf32 (e : Evex) : Bool :=
  !e.r && !e.x && !e.b && !e.rHi && !e.vHi && !e.vvvv.getLsbD 3

/-- What `Mode32` asks of the prefix of an instruction: no REX byte (R53), no extension bit (R72). -/
def Instr.wf32 : Instr → Bool
  | .psadbwMm _ _ => true
  | .psadbwMmRex _ _ _ => false
  | .psadbwXmm _ _ => true
  | .psadbwXmmRex _ _ _ => false
  | .vpsadbwVex128C5 _ v _ => v.wf32
  | .vpsadbwVex128C4 _ v _ => v.wf32
  | .vpsadbwVex256C5 _ v _ => v.wf32
  | .vpsadbwVex256C4 _ v _ => v.wf32
  | .vpsadbwEvex128 _ e _ => e.wf32
  | .vpsadbwEvex256 _ e _ => e.wf32
  | .vpsadbwEvex512 _ e _ => e.wf32

/-- The terms that have an encoding in a mode. No term has one in a mode the spec refuses (D1). -/
def Instr.wf (mode : Mode) (i : Instr) : Bool :=
  match mode with
  | .mode64 => i.modrm.rm.wf
  | .mode32 => i.modrm.rm.wf && i.prefixes.wf32 i.modrm.rm && i.wf32
  | .realAddress => false
  | .virtual8086 => false
  | .code16 => false
  | .smm => false

end Sys2Proof
end

