-- ==== Sys2Proof/Decode.lean ====
section
/-! DEFINITION. Instruction bytes: the length of an instruction (R75), the decoder (R73), total on every list of
bytes and rejecting by name, and after it the encoder, written from the same tables (R50 to R61). -/

namespace Sys2Proof

/-! ### Modes and lengths -/

/-- The modes the spec gives a meaning to (D1). -/
def Mode.supported : Mode → Bool
  | .mode64 => true
  | .mode32 => true
  | .realAddress => false
  | .virtual8086 => false
  | .code16 => false
  | .smm => false

/-- Number of legacy prefix bytes of an instruction, the mandatory `66` apart (R75). -/
def Prefixes.len (p : Prefixes) : Nat :=
  p.seg.isSome.toNat + p.addrSize.toNat

/-- Bytes of a displacement (R61). -/
def Disp.len : Disp → Nat
  | .none => 0
  | .disp8 _ => 1
  | .disp32 _ => 4

/-- Bytes of SIB and displacement (R61). -/
def MemForm.len : MemForm → Nat
  | .base _ d => d.len
  | .dispOnly _ => 4
  | .sib _ _ _ d => 1 + d.len
  | .sibNoBase _ _ _ => 5

/-- Bytes of ModRM, SIB and displacement (R75). -/
def ModRM.len (m : ModRM) : Nat :=
  match m.rm with
  | .reg _ => 1
  | .mem a => 1 + a.len

/-- `len` (R75): prefixes, REX/VEX/EVEX, opcode bytes, ModRM, SIB, displacement. -/
def Instr.len : Instr → Nat
  | .psadbwMm p m => p.len + 2 + m.len
  | .psadbwMmRex p _ m => p.len + 1 + 2 + m.len
  | .psadbwXmm p m => p.len + 1 + 2 + m.len
  | .psadbwXmmRex p _ m => p.len + 1 + 1 + 2 + m.len
  | .vpsadbwVex128C5 p _ m => p.len + 2 + 1 + m.len
  | .vpsadbwVex128C4 p _ m => p.len + 3 + 1 + m.len
  | .vpsadbwVex256C5 p _ m => p.len + 2 + 1 + m.len
  | .vpsadbwVex256C4 p _ m => p.len + 3 + 1 + m.len
  | .vpsadbwEvex128 p _ m => p.len + 4 + 1 + m.len
  | .vpsadbwEvex256 p _ m => p.len + 4 + 1 + m.len
  | .vpsadbwEvex512 p _ m => p.len + 4 + 1 + m.len

/-! ### Outcomes of decoding -/

/-- Why the decoder gives bytes no meaning; each name is a refusal reason of 92_eei_decisions.md. -/
inductive Reject where
  /-- Not a form of R2 (R79, D31). -/
  | notInSlice
  /-- The program text ends inside the instruction (R131 step 1, D13). -/
  | fetchOutsideCode
  /-- A mode of D1 that has no meaning. -/
  | unsupportedMode
  /-- A legacy prefix byte twice, or two segment overrides (R51, D20). -/
  | repeatedPrefix
  /-- A REX byte followed by another prefix byte (R53, D20). -/
  | rexNotLast
  /-- `F2` or `F3` before `0F F6` (R77, D20). -/
  | reservedRepPrefix
  /-- A `64` or `65` prefix (R51, R30, D6). -/
  | segmentOverrideFSGS
  /-- `Mode32`, a `67` prefix and a memory operand (R65, D24). -/
  | addrSize16
  /-- `Mode32` and an extension bit outside its "register 0-7" state (R72, D23). -/
  | nonCanonicalMode32Bits
  deriving DecidableEq, Repr

/-- What the decoder answers (R73, R131 steps 1 to 4). -/
inductive Decoded where
  /-- A well-formed instruction. -/
  | instr (i : Instr)
  /-- An illegal encoding: `#UD` (R77, R78). -/
  | undefinedOpcode
  /-- An encoding longer than 15 bytes: `#GP(0)` (R75, R126 c). -/
  | tooLong
  /-- No meaning, by name. -/
  | rejected (r : Reject)
  deriving DecidableEq, Repr

/-! ### Legacy prefixes (R51) -/

/-- What one legacy prefix byte is (R51). -/
inductive PrefixByte where
  | opSize
  | repne
  | rep
  | lock
  | addrSize
  | seg (s : SegOverride)
  | fsgs
  deriving DecidableEq, Repr

/-- The table of R51. -/
def prefixByte (b : Byte) : Option PrefixByte :=
  if b = 0x66 then some .opSize
  else if b = 0xF2 then some .repne
  else if b = 0xF3 then some .rep
  else if b = 0xF0 then some .lock
  else if b = 0x67 then some .addrSize
  else if b = 0x2E then some (.seg .cs)
  else if b = 0x36 then some (.seg .ss)
  else if b = 0x3E then some (.seg .ds)
  else if b = 0x26 then some (.seg .es)
  else if b = 0x64 then some .fsgs
  else if b = 0x65 then some .fsgs
  else none

/-- The set `P` of consumed legacy prefixes (R73 step 1). -/
structure PrefixSet where
  opSize : Bool
  repne : Bool
  rep : Bool
  lock : Bool
  addrSize : Bool
  seg : Option SegOverride
  deriving DecidableEq, Repr

/-- No prefix consumed. -/
def PrefixSet.empty : PrefixSet :=
  { opSize := false, repne := false, rep := false, lock := false, addrSize := false, seg := none }

/-- One more prefix: each at most once, at most one segment override, no FS or GS (R51, D20, D6). DESIGN CHOICE (safe,
assumption log 30): an FS or GS byte that follows another segment override, or stands twice, is refused by D20
(RepeatedPrefix) and by D6 (SegmentOverrideFSGS), which the spec does not order; the model answers SegmentOverrideFSGS. -/
def PrefixSet.add (ps : PrefixSet) : PrefixByte → Except Reject PrefixSet
  | .opSize => if ps.opSize then .error .repeatedPrefix else .ok { ps with opSize := true }
  | .repne => if ps.repne then .error .repeatedPrefix else .ok { ps with repne := true }
  | .rep => if ps.rep then .error .repeatedPrefix else .ok { ps with rep := true }
  | .lock => if ps.lock then .error .repeatedPrefix else .ok { ps with lock := true }
  | .addrSize => if ps.addrSize then .error .repeatedPrefix else .ok { ps with addrSize := true }
  | .seg s => if ps.seg.isSome then .error .repeatedPrefix else .ok { ps with seg := some s }
  | .fsgs => .error .segmentOverrideFSGS

/-- Number of prefix bytes consumed. -/
def PrefixSet.count (ps : PrefixSet) : Nat :=
  ps.opSize.toNat + ps.repne.toNat + ps.rep.toNat + ps.lock.toNat + ps.addrSize.toNat + ps.seg.isSome.toNat

/-- What an instruction keeps of the set. -/
def PrefixSet.kept (ps : PrefixSet) : Prefixes :=
  { seg := ps.seg, addrSize := ps.addrSize }

/-- Whether a legacy prefix that makes a VEX or EVEX prefix illegal was consumed: `66`, `F2`, `F3`, `F0` (R78). -/
def PrefixSet.illegalBeforeVex (ps : PrefixSet) : Bool :=
  ps.opSize || ps.repne || ps.rep || ps.lock

/-! ### ModRM, SIB, displacement (R60, R61) -/

/-- A four-byte displacement, least significant byte first. -/
def parseDisp32 : List Byte → Except Reject (BitVec 32)
  | b0 :: b1 :: b2 :: b3 :: _ => .ok (b3 ++ b2 ++ b1 ++ b0)
  | _ => .error .fetchOutsideCode

/-- The displacement that `mod` selects. -/
def parseDisp (mod : BitVec 2) (bs : List Byte) : Except Reject Disp :=
  if mod = 0 then .ok .none
  else if mod = 1 then
    match bs with
    | [] => .error .fetchOutsideCode
    | b :: _ => .ok (.disp8 b)
  else (parseDisp32 bs).map .disp32

/-- SIB byte and displacement. -/
def parseSib (mod : BitVec 2) : List Byte → Except Reject MemForm
  | [] => .error .fetchOutsideCode
  | b :: bs =>
    let scale := b.extractLsb' 6 2
    let index := b.extractLsb' 3 3
    let base := b.extractLsb' 0 3
    if mod = 0 ∧ base = 5 then (parseDisp32 bs).map (.sibNoBase scale index)
    else (parseDisp mod bs).map (.sib scale index base)

/-- The memory operand that `mod` and `rm` select. -/
def parseMem (mod : BitVec 2) (rm : BitVec 3) (bs : List Byte) : Except Reject MemForm :=
  if rm = 4 then parseSib mod bs
  else if mod = 0 ∧ rm = 5 then (parseDisp32 bs).map .dispOnly
  else (parseDisp mod bs).map (.base rm)

/-- ModRM byte and what it asks for. `addr16` says that a memory operand would use 16-bit addressing (R65). -/
def parseModRM (addr16 : Bool) : List Byte → Except Reject ModRM
  | [] => .error .fetchOutsideCode
  | b :: bs =>
    let mod := b.extractLsb' 6 2
    let reg := b.extractLsb' 3 3
    let rm := b.extractLsb' 0 3
    if mod = 3 then .ok { reg := reg, rm := .reg rm }
    else if addr16 then .error .addrSize16
    else (parseMem mod rm bs).map fun a => { reg := reg, rm := .mem a }

/-- `Mode32` with a `67` prefix: 16-bit addressing (R65). -/
def addr16 (mode : Mode) (ps : PrefixSet) : Bool :=
  decide (mode = .mode32) && ps.addrSize

/-- R131 steps 2 to 4 once the bytes before ModRM (`before` of them) are read: `mk` builds the instruction, or is
`none` for an encoding that raises `#UD`. -/
def withModRM (before : Nat) (mk : Option (ModRM → Instr)) (a16 : Bool) (bs : List Byte) : Decoded :=
  match parseModRM a16 bs with
  | .error r => .rejected r
  | .ok m =>
    if 15 < before + m.len then .tooLong
    else match mk with
      | none => .undefinedOpcode
      | some f => .instr (f m)

/-! ### The opcode byte and the prefixes that carry it (R73 step 2) -/

/-- The constructor of a legacy form (R52, R73 2 b). -/
def legacyInstr (ps : PrefixSet) (rex : Option Rex) (m : ModRM) : Instr :=
  match ps.opSize, rex with
  | false, none => .psadbwMm ps.kept m
  | false, some x => .psadbwMmRex ps.kept x m
  | true, none => .psadbwXmm ps.kept m
  | true, some x => .psadbwXmmRex ps.kept x m

/-- After `0F` (R73 2 b). -/
def decodeLegacy (mode : Mode) (ps : PrefixSet) (rex : Option Rex) : List Byte → Decoded
  | [] => .rejected .fetchOutsideCode
  | op :: bs =>
    let before := ps.count + rex.isSome.toNat + 2
    if op ≠ 0xF6 then .rejected .notInSlice
    else if ps.lock then withModRM before none (addr16 mode ps) bs
    else if ps.repne || ps.rep then .rejected .reservedRepPrefix
    else withModRM before (some (legacyInstr ps rex)) (addr16 mode ps) bs

/-- The opcode byte `F6` after a VEX or EVEX prefix whose fields are this instruction's. -/
def decodeF6 (before : Nat) (mk : Option (ModRM → Instr)) (a16 : Bool) : List Byte → Decoded
  | [] => .rejected .fetchOutsideCode
  | op :: bs => if op ≠ 0xF6 then .rejected .notInSlice else withModRM before mk a16 bs

/-- After a VEX or EVEX prefix that is illegal (`#UD`, R73, R78). `ours` says that the prefix's fields are this
instruction's; then the length is known and R131 tests it first (assumption log 11). -/
def decodeIllegal (before : Nat) (ours : Bool) (a16 : Bool) : List Byte → Decoded
  | [] => .rejected .fetchOutsideCode
  | op :: bs => if ours && op == 0xF6 then withModRM before none a16 bs else .undefinedOpcode

/-- `Mode32`: the byte after `C4`, `C5` or `62` has not both top bits set, so the bytes are LES, LDS or BOUND (R74). -/
def olderInstr (mode : Mode) : List Byte → Bool
  | [] => false
  | next :: _ => decide (mode = .mode32) && next.extractLsb' 6 2 != 3

/-- After `C5` (R55, R57, R73 2 c). -/
def decodeVex2 (mode : Mode) (ps : PrefixSet) (rex : Option Rex) : List Byte → Decoded
  | [] => .rejected .fetchOutsideCode
  | p :: bs =>
    let before := ps.count + rex.isSome.toNat + 3
    let v : Vex2 := { r := !p.getLsbD 7, vvvv := ~~~(p.extractLsb' 3 4) }
    let ours := p.extractLsb' 0 2 == 1
    if ps.illegalBeforeVex || rex.isSome then decodeIllegal before ours (addr16 mode ps) bs
    else if !ours then .rejected .notInSlice
    else if p.getLsbD 2 then decodeF6 before (some (.vpsadbwVex256C5 ps.kept v)) (addr16 mode ps) bs
    else decodeF6 before (some (.vpsadbwVex128C5 ps.kept v)) (addr16 mode ps) bs

/-- After `C4` (R56, R57, R73 2 c). DESIGN CHOICE (safe, assumption log 26): in `Mode32`, where the refusal of D23 and `#UD`
for an illegal prefix (R78) both apply, the spec does not order them; the model answers `#UD`. -/
def decodeVex3 (mode : Mode) (ps : PrefixSet) (rex : Option Rex) : List Byte → Decoded
  | p1 :: p2 :: bs =>
    let before := ps.count + rex.isSome.toNat + 4
    let v : Vex3 :=
      { r := !p1.getLsbD 7, x := !p1.getLsbD 6, b := !p1.getLsbD 5
        w := p2.getLsbD 7, vvvv := ~~~(p2.extractLsb' 3 4) }
    let ours := p1.extractLsb' 0 5 == 1 && p2.extractLsb' 0 2 == 1
    if ps.illegalBeforeVex || rex.isSome then decodeIllegal before ours (addr16 mode ps) bs
    else if !ours then .rejected .notInSlice
    else
      match bs with
      | [] => .rejected .fetchOutsideCode
      | op :: rest =>
        if op ≠ 0xF6 then .rejected .notInSlice
        else if decide (mode = .mode32) && !v.wf32 then .rejected .nonCanonicalMode32Bits
        else if p2.getLsbD 2 then withModRM before (some (.vpsadbwVex256C4 ps.kept v)) (addr16 mode ps) rest
        else withModRM before (some (.vpsadbwVex128C4 ps.kept v)) (addr16 mode ps) rest
  | _ => .rejected .fetchOutsideCode

/-- The form that EVEX `L'L` selects; `11b` is illegal (R59, R78). -/
def evexInstr (ll : BitVec 2) (p : Prefixes) (e : Evex) : Option (ModRM → Instr) :=
  if ll = 0 then some (.vpsadbwEvex128 p e)
  else if ll = 1 then some (.vpsadbwEvex256 p e)
  else if ll = 2 then some (.vpsadbwEvex512 p e)
  else none

/-- After `62` (R58, R59, R73 2 d). The fields `z`, `b` and `aaa` must be 0 (R59, R78; assumption log 14). DESIGN CHOICE
(safe, assumption log 26): in `Mode32`, where the refusal of D23 and `#UD` (R78) both apply, the spec does not order them;
the model answers `#UD` for an illegal prefix, P0 bit 3 or P1 bit 2, and the refusal before `z`, `b`, `aaa` and `L'L`. -/
def decodeEvex (mode : Mode) (ps : PrefixSet) (rex : Option Rex) : List Byte → Decoded
  | p0 :: p1 :: p2 :: bs =>
    let before := ps.count + rex.isSome.toNat + 5
    let e : Evex :=
      { r := !p0.getLsbD 7, x := !p0.getLsbD 6, b := !p0.getLsbD 5, rHi := !p0.getLsbD 4
        w := p1.getLsbD 7, vvvv := ~~~(p1.extractLsb' 3 4), vHi := !p2.getLsbD 3 }
    let ours := p0.extractLsb' 0 3 == 1 && p1.extractLsb' 0 2 == 1
    let fieldsLegal := !p2.getLsbD 7 && !p2.getLsbD 4 && p2.extractLsb' 0 3 == 0
    if ps.illegalBeforeVex || rex.isSome || p0.getLsbD 3 || !p1.getLsbD 2 then
      decodeIllegal before ours (addr16 mode ps) bs
    else if !ours then .rejected .notInSlice
    else
      match bs with
      | [] => .rejected .fetchOutsideCode
      | op :: rest =>
        if op ≠ 0xF6 then .rejected .notInSlice
        else if decide (mode = .mode32) && !e.wf32 then .rejected .nonCanonicalMode32Bits
        else if fieldsLegal then
          withModRM before (evexInstr (p2.extractLsb' 5 2) ps.kept e) (addr16 mode ps) rest
        else withModRM before none (addr16 mode ps) rest
  | _ => .rejected .fetchOutsideCode

/-- The byte `b` after the legacy prefixes and an optional REX byte (R73 2 b to e). -/
def decodeOpcode (mode : Mode) (ps : PrefixSet) (rex : Option Rex) (b : Byte) (bs : List Byte) : Decoded :=
  if b = 0x0F then decodeLegacy mode ps rex bs
  else if b = 0xC5 then (if olderInstr mode bs then .rejected .notInSlice else decodeVex2 mode ps rex bs)
  else if b = 0xC4 then (if olderInstr mode bs then .rejected .notInSlice else decodeVex3 mode ps rex bs)
  else if b = 0x62 then (if olderInstr mode bs then .rejected .notInSlice else decodeEvex mode ps rex bs)
  else .rejected .notInSlice

/-- `40` to `4F` (R53). -/
def isRexByte (b : Byte) : Bool :=
  b.extractLsb' 4 4 == 4

/-- The fields of a REX byte (R53). -/
def rexOf (b : Byte) : Rex :=
  { w := b.getLsbD 3, r := b.getLsbD 2, x := b.getLsbD 1, b := b.getLsbD 0 }

/-- After a REX byte: another prefix byte is refused (R53); a VEX or EVEX prefix is illegal (R78; DEDUCED, safe, assumption
log 12, since step 2 a of R73 asks for `0F` here). -/
def decodeAfterRex (mode : Mode) (ps : PrefixSet) (rex : Rex) : List Byte → Decoded
  | [] => .rejected .fetchOutsideCode
  | c :: cs =>
    if (prefixByte c).isSome || isRexByte c then .rejected .rexNotLast
    else decodeOpcode mode ps (some rex) c cs

/-- R73: legacy prefixes, then REX in `Mode64`, then the opcode. Recursion is on the bytes. -/
def decodeFrom (mode : Mode) (ps : PrefixSet) : List Byte → Decoded
  | [] => .rejected .fetchOutsideCode
  | b :: bs =>
    match prefixByte b with
    | some k =>
      match ps.add k with
      | .error r => .rejected r
      | .ok ps' => decodeFrom mode ps' bs
    | none =>
      if decide (mode = .mode64) && isRexByte b then decodeAfterRex mode ps (rexOf b) bs
      else decodeOpcode mode ps none b bs

/-- The decoder (R73) on the bytes at `ip`. Bytes after the instruction do not matter. -/
def decode (mode : Mode) (bs : List Byte) : Decoded :=
  if mode.supported then decodeFrom mode .empty bs else .rejected .unsupportedMode

/-! ### The encoder -/

/-- The byte of a segment override (R51). -/
def SegOverride.byte : SegOverride → Byte
  | .cs => 0x2E
  | .ss => 0x36
  | .ds => 0x3E
  | .es => 0x26

/-- The legacy prefix bytes, the segment override first. -/
def Prefixes.encode (p : Prefixes) : List Byte :=
  (match p.seg with
    | none => []
    | some s => [s.byte]) ++ (if p.addrSize then [0x67] else [])

/-- Four bytes, least significant first (R61). -/
def encodeDisp32 (d : BitVec 32) : List Byte :=
  [d.extractLsb' 0 8, d.extractLsb' 8 8, d.extractLsb' 16 8, d.extractLsb' 24 8]

/-- The bytes of a displacement (R61). -/
def Disp.encode : Disp → List Byte
  | .none => []
  | .disp8 d => [d]
  | .disp32 d => encodeDisp32 d

/-- The `mod` value that selects a displacement (R61). -/
def Disp.mod : Disp → BitVec 2
  | .none => 0
  | .disp8 _ => 1
  | .disp32 _ => 2

/-- Two bits, three bits, three bits: the layout of a ModRM and of a SIB byte (R60, R61). -/
def byte233 (hi : BitVec 2) (mid lo : BitVec 3) : Byte :=
  hi ++ mid ++ lo

/-- ModRM, SIB and displacement (R60, R61). -/
def ModRM.encode (m : ModRM) : List Byte :=
  match m.rm with
  | .reg rm => [byte233 3 m.reg rm]
  | .mem (.base rm d) => byte233 d.mod m.reg rm :: d.encode
  | .mem (.dispOnly d) => byte233 0 m.reg 5 :: encodeDisp32 d
  | .mem (.sib scale index base d) => byte233 d.mod m.reg 4 :: byte233 scale index base :: d.encode
  | .mem (.sibNoBase scale index d) => byte233 0 m.reg 4 :: byte233 scale index 5 :: encodeDisp32 d

/-- `0100 W R X B` (R53). -/
def Rex.encode (x : Rex) : Byte :=
  4#4 ++ BitVec.ofBool x.w ++ BitVec.ofBool x.r ++ BitVec.ofBool x.x ++ BitVec.ofBool x.b

/-- `C5 [R~ vvvv~ L pp]` with `pp = 01b` (R55, R57). -/
def Vex2.encode (v : Vex2) (l : Bool) : List Byte :=
  [0xC5, BitVec.ofBool (!v.r) ++ ~~~v.vvvv ++ BitVec.ofBool l ++ 1#2]

/-- `C4 [R~ X~ B~ 00001] [W vvvv~ L pp]` with `pp = 01b` (R56, R57). -/
def Vex3.encode (v : Vex3) (l : Bool) : List Byte :=
  [0xC4, BitVec.ofBool (!v.r) ++ BitVec.ofBool (!v.x) ++ BitVec.ofBool (!v.b) ++ 1#5,
    BitVec.ofBool v.w ++ ~~~v.vvvv ++ BitVec.ofBool l ++ 1#2]

/-- `62 [R~ X~ B~ R'~ 0 001] [W vvvv~ 1 01] [0 L'L 0 V'~ 000]` (R58, R59). -/
def Evex.encode (e : Evex) (ll : BitVec 2) : List Byte :=
  [0x62,
    BitVec.ofBool (!e.r) ++ BitVec.ofBool (!e.x) ++ BitVec.ofBool (!e.b) ++ BitVec.ofBool (!e.rHi) ++ 1#4,
    BitVec.ofBool e.w ++ ~~~e.vvvv ++ 5#3,
    0#1 ++ ll ++ 0#1 ++ BitVec.ofBool (!e.vHi) ++ 0#3]

/-- The bytes of an instruction, the first at the lowest address (R50). -/
def encode : Instr → List Byte
  | .psadbwMm p m => p.encode ++ ([0x0F, 0xF6] ++ m.encode)
  | .psadbwMmRex p x m => p.encode ++ ([x.encode, 0x0F, 0xF6] ++ m.encode)
  | .psadbwXmm p m => p.encode ++ ([0x66, 0x0F, 0xF6] ++ m.encode)
  | .psadbwXmmRex p x m => p.encode ++ ([0x66, x.encode, 0x0F, 0xF6] ++ m.encode)
  | .vpsadbwVex128C5 p v m => p.encode ++ (v.encode false ++ (0xF6 :: m.encode))
  | .vpsadbwVex128C4 p v m => p.encode ++ (v.encode false ++ (0xF6 :: m.encode))
  | .vpsadbwVex256C5 p v m => p.encode ++ (v.encode true ++ (0xF6 :: m.encode))
  | .vpsadbwVex256C4 p v m => p.encode ++ (v.encode true ++ (0xF6 :: m.encode))
  | .vpsadbwEvex128 p e m => p.encode ++ (e.encode 0 ++ (0xF6 :: m.encode))
  | .vpsadbwEvex256 p e m => p.encode ++ (e.encode 1 ++ (0xF6 :: m.encode))
  | .vpsadbwEvex512 p e m => p.encode ++ (e.encode 2 ++ (0xF6 :: m.encode))

/-! ### Words of the opcode table -/

/-- The bytes of a word numbered as spec/opcode_table.json numbers it: the row's pattern read as one number, its
first byte the most significant one (assumption log 16). Zero bytes follow, so that the list is as long as the
longest instruction (R75). -/
def tableBytes (nbits w : Nat) : List Byte :=
  (List.range (nbits / 8)).map (fun k => BitVec.ofNat 8 (w >>> (8 * (nbits / 8 - 1 - k)))) ++ List.replicate 15 0

/-- The instruction the decoder reads in `Mode64` from a table word. -/
def decodeTableWord (nbits w : Nat) : Option Instr :=
  match decode .mode64 (tableBytes nbits w) with
  | .instr i => some i
  | .undefinedOpcode => none
  | .tooLong => none
  | .rejected _ => none

end Sys2Proof
end

