-- ==== Sys2Proof/Machine/State.lean ====
section
/-! DEFINITION. The state of the one logical processor (spec/10_state.md), why a step stops, and the state right
after power-up (R22). The spec's `Config` argument of `step` (R7) is part of the state (assumption log 1). -/

namespace Sys2Proof.Machine

/-- The control bits the fault checks read (R17), held in the registers R17 names. No form writes any of them. -/
structure Ctl where
  /-- CR0: EM bit 2, TS bit 3, AM bit 18. -/
  cr0 : BitVec 64
  /-- CR4: OSFXSR bit 9, OSXSAVE bit 18. -/
  cr4 : BitVec 64
  /-- XCR0: SSE bit 1, AVX bit 2, opmask bit 5, ZMM_Hi256 bit 6, Hi16_ZMM bit 7. -/
  xcr0 : BitVec 64
  /-- EFLAGS: AC bit 18. No form reads or writes a flag otherwise (R16). -/
  eflags : BitVec 32
  /-- Current privilege level (R136). -/
  cpl : BitVec 2
  /-- An unmasked x87 exception is pending: FSW.ES (R17, R124). -/
  x87Pending : Bool
  deriving DecidableEq, Repr

/-- The x87 state that form 1 writes besides `mm` (R19, assumption log 3). The significand of the x87 register
`Rn` is `mm[n]`. -/
structure X87 where
  /-- Bits 79:64 (sign and exponent) of the data registers R0 to R7. -/
  ext : Vector (BitVec 16) 8
  /-- The tag word, two bits a register, 00 valid. -/
  tag : BitVec 16
  /-- The top-of-stack field of the x87 status word. -/
  top : BitVec 3
  deriving DecidableEq, Repr

/-- The machine (R10 to R20, R4). -/
structure State where
  /-- The general registers, 0 RAX to 15 R15 (R10). -/
  gpr : Vector (BitVec 64) 16
  /-- MM0 to MM7 (R11). -/
  mm : Vector (BitVec 64) 8
  /-- The vector registers; XMMn and YMMn are the low bits of `vec[n]` (R12). -/
  vec : Vector VReg 32
  x87 : X87
  /-- RIP, or EIP zero-extended in `Mode32` (R15). -/
  ip : Addr
  ctl : Ctl
  /-- MXCSR; no form reads or writes it (R16). -/
  mxcsr : BitVec 32
  /-- Operating mode (R4). -/
  mode : Mode
  /-- CPUID feature flags (R18). -/
  feat : Feat
  /-- Implemented linear-address bits (R4). -/
  vaBits : VaBits
  /-- Address of the first byte of the program text (R9). -/
  codeBase : Addr
  /-- The program text, from `codeBase` on; `codeEnd` is the address after its last byte (R9, D11). -/
  code : List Byte
  /-- Memory: the mapped bytes, addresses rising (R20, R36); what an unlisted address reads as is
  `Memory.unlisted`. -/
  mem : List Host.Cell
  deriving DecidableEq, Repr

/-- The exceptions of R121. Each is raised by `raise` in Machine/Ops.lean, leaves the state as it was (R132) and
ends the run (R133, D14). Each is safe: the machine stops where the processor would enter a handler that the
spec does not describe. `ip` is the address of the faulting instruction. -/
inductive Fault where
  /-- `#UD`, vector 6. Raised by the decoder's illegal encodings (R77, R78) and by the form checks of R122. Safe. -/
  | ud (ip : Addr)
  /-- `#NM`, vector 7. Raised by every form when CR0.TS is set (R123). Safe. -/
  | nm (ip : Addr)
  /-- `#MF`, vector 16. Raised by form 1 with an x87 exception pending (R124). Safe. -/
  | mf (ip : Addr)
  /-- `#SS(0)`, vector 12. Raised by a memory operand outside the address range through SS (R125). Safe. -/
  | ss (ip : Addr)
  /-- `#GP(0)`, vector 13. Raised by a memory operand outside the address range through another segment, by a
  misaligned operand of form 2, and by an instruction longer than 15 bytes (R126). Safe. -/
  | gp (ip : Addr)
  /-- `#PF`, vector 14. Raised by a memory operand with an unmapped byte; `addr` is the lowest such byte (R127).
  Safe. -/
  | pf (addr : Addr) (ip : Addr)
  /-- `#AC(0)`, vector 17. Raised by a misaligned memory operand of form 1 with alignment checking on (R128). Safe. -/
  | ac (ip : Addr)
  deriving DecidableEq, Repr

/-- Why the model gives a step no meaning; the names are those of 92_eei_decisions.md. Each is safe: a refused
step has no next state. -/
inductive Refusal where
  /-- Raised by no arm of `exec`: an instruction without a meaning would be rejected with it. Safe. -/
  | notModelled (mnemonic : String)
  /-- Raised by `step`: the bytes at `ip` are no form of R2 (R79, D31). Safe. -/
  | notInSlice
  /-- Raised by `step` and by every form: real-address, virtual-8086, 16-bit or SMM mode (D1). Safe. -/
  | unsupportedMode
  /-- Raised by `step`: a byte of the instruction is not in the program text (R131, D13). Safe. -/
  | fetchOutsideCode
  /-- Raised by `step`: `Mode64`, and a byte of the instruction is in the program text at a non-canonical address, where the
  processor faults on the fetch with an exception that the spec does not state (R15, D12, assumption log 29). The name is the
  model's. Safe. -/
  | nonCanonicalFetch
  /-- Raised by `step`: a legacy prefix byte twice or two segment overrides (R51, D20). Safe. -/
  | repeatedPrefix
  /-- Raised by `step`: a REX byte before another prefix byte (R53, D20). Safe. -/
  | rexNotLast
  /-- Raised by `step`: `F2` or `F3` before `0F F6` (R77, D20). Safe. -/
  | reservedRepPrefix
  /-- Raised by `step`: an FS or GS override prefix (R30, R51, D6). Safe. -/
  | segmentOverrideFSGS
  /-- Raised by `step` and by every form: 16-bit addressing (R65, D24). Safe. -/
  | addrSize16
  /-- Raised by `step`: `Mode32` and an extension bit outside its "register 0-7" state (R72, D23). Safe. -/
  | nonCanonicalMode32Bits
  /-- Raised by forms 3 to 7: a memory operand not aligned to its size with alignment checking on (R38, D8). Safe. -/
  | alignmentCheckEnabled
  deriving DecidableEq, Repr

/-- Power-up values of the control registers (R22, R17). -/
def Ctl.reset : Ctl :=
  { cr0 := 0x60000010
    cr4 := 0
    xcr0 := 1
    eflags := 0x00000002
    cpl := 0
    x87Pending := false }

/-- Power-up values of the x87 state (R22: registers +0.0, tag word 5555H). DESIGN CHOICE or PRESUMED where R22 is
silent: assumption log 5. -/
def X87.reset : X87 :=
  { ext := Vector.replicate 8 0
    tag := 0x5555
    top := 0 }

/-- Every feature flag set. DESIGN CHOICE (assumption log 6): the spec gives a parameter no value. -/
def allFeatures : Feat :=
  { sse := true, sse2 := true, avx := true, avx2 := true, avx512f := true, avx512bw := true, avx512vl := true }

/-- The machine right after power-up (R22): real-address mode, `ip` 0000FFF0H, no program placed, nothing mapped. The
parameters and the registers that R22 gives no value are DESIGN CHOICES (assumption log 6, 7). -/
def State.reset : State :=
  { gpr := Vector.replicate 16 0
    mm := Vector.replicate 8 0
    vec := Vector.replicate 32 0
    x87 := X87.reset
    ip := 0xFFF0
    ctl := Ctl.reset
    mxcsr := 0x1F80
    mode := .realAddress
    feat := allFeatures
    vaBits := .bits48
    codeBase := 0
    code := []
    mem := [] }

end Sys2Proof.Machine
end

