-- ==== Sys2Proof/Machine/Ops.lean ====
section
/-! DEFINITION. The named operations over the state: chaining of outcomes, raising an exception, memory, the register
files and their views, the instruction pointer. Every meaning reads and writes the state through these. -/

namespace Sys2Proof.Machine

/-- What a part of a step answers. -/
abbrev Result (α : Type) := Host.Outcome α Fault Refusal

/-- Go on with the value, or stop as the first part stopped. -/
def andThen {α β : Type} (r : Result α) (f : α → Result β) : Result β :=
  match r with
  | .next v => f v
  | .fault e => .fault e
  | .refused e => .refused e

/-! ### Exceptions (R121, R132, R133) -/

/-- Take an exception. The spec's step ends with the fault record and the state as it was (R7, R132); delivery through a
descriptor table is outside the scope (R3, R133), and no instruction of the slice returns from a handler (R134). The
outcome holds no new state: the machine stays in `s`. -/
def raise {α : Type} (exc : Addr → Fault) (s : State) : Result α :=
  .fault (exc s.ip)

/-- The exceptions by name (R121). -/
inductive ExcName where
  | ud
  | nm
  | mf
  | ss
  | gp
  | pf
  | ac
  deriving DecidableEq, Repr

/-- The fault record of R121. -/
structure FaultRecord where
  exc : ExcName
  vector : Nat
  errorCode : Option Nat
  addr : Option Addr
  ip : Addr
  deriving DecidableEq, Repr

/-- The table of R121. `#PF` holds no error code (R127, D7). -/
def Fault.record : Fault → FaultRecord
  | .ud ip => { exc := .ud, vector := 6, errorCode := none, addr := none, ip := ip }
  | .nm ip => { exc := .nm, vector := 7, errorCode := none, addr := none, ip := ip }
  | .mf ip => { exc := .mf, vector := 16, errorCode := none, addr := none, ip := ip }
  | .ss ip => { exc := .ss, vector := 12, errorCode := some 0, addr := none, ip := ip }
  | .gp ip => { exc := .gp, vector := 13, errorCode := some 0, addr := none, ip := ip }
  | .pf addr ip => { exc := .pf, vector := 14, errorCode := none, addr := some addr, ip := ip }
  | .ac ip => { exc := .ac, vector := 17, errorCode := some 0, addr := none, ip := ip }

/-! ### Memory (R20, R31 to R33, R36) -/

/-- What an unlisted address reads as: nothing, it is not mapped (R36, assumption log 7). -/
def Memory.unlisted : Option Byte := none

/-- One byte, `none` where nothing is mapped. -/
def Memory.read : List Host.Cell → Nat → Option Byte
  | [], _ => Memory.unlisted
  | c :: m, a => if c.1 = a then some c.2 else Memory.read m a

/-- Map a byte or replace it, keeping the addresses rising. No form writes memory (R33): this is how a launch memory is
laid out (`MemWrite` of R6 is never invoked by a step). -/
def Memory.write : List Host.Cell → Nat → Byte → List Host.Cell
  | [], a, v => [(a, v)]
  | c :: m, a, v =>
    if a < c.1 then (a, v) :: c :: m
    else if a = c.1 then (a, v) :: m
    else c :: Memory.write m a v

/-- The canonical form: addresses strictly rising, all of them 64-bit addresses (R30). An unlisted address is unmapped, so
every listed byte differs from what an unlisted address reads as. -/
abbrev Memory.wf (m : List Host.Cell) : Prop :=
  m.Pairwise (fun c d => c.1 < d.1) ∧ ∀ c ∈ m, c.1 < 2 ^ 64

/-- The bytes at the given addresses in order, or the first address that is not mapped (R36). -/
def Memory.load (m : List Host.Cell) : List Addr → Except Addr (List Byte)
  | [] => .ok []
  | a :: as =>
    match Memory.read m a.toNat with
    | none => .error a
    | some b =>
      match Memory.load m as with
      | .error e => .error e
      | .ok bs => .ok (b :: bs)

/-- The byte addresses of an operand of `n` bytes at `la`, lowest first. They wrap modulo 2^64 (assumption log 8); in
`Mode32` the range check of R35 excludes a wrap. -/
def operandAddrs (la : Addr) (n : Nat) : List Addr :=
  (List.range n).map fun k => la + BitVec.ofNat 64 k

/-- Little-endian assembly: the first byte is the least significant one (R31, R32). -/
def leValue (w : Nat) : List Byte → BitVec w
  | [] => 0
  | b :: bs => (leValue w bs <<< 8) ||| b.setWidth w

/-! ### Register files (R10 to R13, R19) -/

/-- `gpr[i]`, 64 bits (R10). -/
def State.readGpr (s : State) (i : BitVec 4) : BitVec 64 :=
  s.gpr[i.toNat]'i.isLt

/-- `mm[i]` (R11). -/
def State.readMm (s : State) (i : BitVec 3) : BitVec 64 :=
  s.mm[i.toNat]'i.isLt

/-- `mm[i] <- v` with the three effects on x87 state: tag word all valid, top of stack 0, sign and exponent of the
written register all ones (R19). -/
def State.writeMm (s : State) (i : BitVec 3) (v : BitVec 64) : State :=
  { s with
    mm := s.mm.set i.toNat v i.isLt
    x87 := { ext := s.x87.ext.set i.toNat (BitVec.allOnes 16) i.isLt, tag := 0, top := 0 } }

/-- `MAXVL` in bits (R4, D2). -/
def maxvl (f : Feat) : Nat :=
  if f.avx512f then 512 else if f.avx then 256 else 128

/-- A value as a register of `MAXVL` bits holds it (R12, assumption log 2). -/
def clipMaxvl (f : Feat) (v : VReg) : VReg :=
  (v.setWidth (maxvl f)).setWidth 512

/-- `vec[i]`, all bits (R12). -/
def State.readVec (s : State) (i : BitVec 5) : VReg :=
  s.vec[i.toNat]'i.isLt

/-- `xmm(i)`, `ymm(i)`, `zmm(i)`: the low `w` bits of `vec[i]` (R6, R12). -/
def State.readView (s : State) (w : Nat) (i : BitVec 5) : BitVec w :=
  (s.readVec i).setWidth w

/-- `vec[i] <- v`, the whole register (R6, R12). -/
def State.writeVec (s : State) (i : BitVec 5) (v : VReg) : State :=
  { s with vec := s.vec.set i.toNat (clipMaxvl s.feat v) i.isLt }

/-- A 128-bit result below the destination's old bits [MAXVL-1:128] (R13, form 2). -/
def keepUpper128 (old : VReg) (r : BitVec 128) : VReg :=
  old.extractLsb' 128 384 ++ r

/-! ### Instruction pointer (R15) -/

/-- `a + n` in the width of the instruction pointer: modulo 2^32 in `Mode32`, else modulo 2^64 (R15). -/
def advanceAddr (mode : Mode) (a : Addr) (n : Nat) : Addr :=
  if mode = .mode32 then ((a + BitVec.ofNat 64 n).setWidth 32).setWidth 64 else a + BitVec.ofNat 64 n

/-- The address of the next instruction, `ip + len` (R15, R63). -/
def State.nextIp (s : State) (len : Nat) : Addr :=
  advanceAddr s.mode s.ip len

/-- `ip <- ip + len` (R15). -/
def State.advance (s : State) (len : Nat) : State :=
  { s with ip := s.nextIp len }

/-! ### The program text (R9, D11 to D13) -/

/-- `codeEnd` as a natural number: the address after the last byte of the program text (R9). -/
def State.codeEnd (s : State) : Nat :=
  s.codeBase.toNat + s.code.length

/-- One past the largest instruction address of a mode (R15). -/
def ipSpace (mode : Mode) : Nat :=
  if mode = .mode32 then 2 ^ 32 else 2 ^ 64

/-- A canonical address: bits `63:VA_BITS-1` all equal (R35). -/
def canonical (va : VaBits) (a : Addr) : Bool :=
  match va with
  | .bits48 => a.extractLsb' 47 17 == 0 || a.extractLsb' 47 17 == BitVec.allOnes 17
  | .bits57 => a.extractLsb' 56 8 == 0 || a.extractLsb' 56 8 == BitVec.allOnes 8

/-- The bytes of the program text from `ip` on; none where `ip` is outside the text or the text does not lie without
wrapping in the address space (R131 step 1, D12, D13, assumption log 15). -/
def State.textBytes (s : State) : List Byte :=
  if s.codeEnd < ipSpace s.mode ∧ s.codeBase.toNat ≤ s.ip.toNat then
    s.code.drop (s.ip.toNat - s.codeBase.toNat)
  else []

/-- The first of the bytes, which lie from address `a` on, up to a byte whose address is not canonical. -/
def takeCanonical (va : VaBits) : Addr → List Byte → List Byte
  | _, [] => []
  | a, b :: bs => if canonical va a then b :: takeCanonical va (a + 1) bs else []

/-- The bytes that can be fetched at `ip`: those of the text, in `Mode64` only up to the first non-canonical address, where
the processor faults on the fetch (R15, assumption log 29). -/
def State.fetchBytes (s : State) : List Byte :=
  if s.mode = .mode64 then takeCanonical s.vaBits s.ip s.textBytes else s.textBytes

/-- The refusal where a byte of the instruction cannot be fetched. Past the text it is FetchOutsideCode (R131 step 1). Where the
text goes on at a non-canonical address it is NonCanonicalFetch: R15 says that the processor faults on such a fetch, and
the spec does not say with which exception (D12). DESIGN CHOICE (safe, assumption log 29): the model refuses it by name. -/
def State.missingByte (s : State) : Refusal :=
  if s.fetchBytes.length < s.textBytes.length then .nonCanonicalFetch else .fetchOutsideCode

end Sys2Proof.Machine
end

