-- ==== Sys2Proof/Machine/Flags.lean ====
section
/-! DEFINITION. Control bits and the checks on them. No form reads or writes an arithmetic flag (R16: "Flags Affected:
None."), so there is no flag computation; what is read are the control bits of R17, by the checks of R122 to R124. -/

namespace Sys2Proof.Machine

/-- CR0.EM, bit 2 (R17). -/
def Ctl.em (c : Ctl) : Bool := c.cr0.getLsbD 2

/-- CR0.TS, bit 3 (R17). -/
def Ctl.ts (c : Ctl) : Bool := c.cr0.getLsbD 3

/-- CR0.AM, bit 18 (R17). -/
def Ctl.am (c : Ctl) : Bool := c.cr0.getLsbD 18

/-- CR4.OSFXSR, bit 9 (R17). -/
def Ctl.osfxsr (c : Ctl) : Bool := c.cr4.getLsbD 9

/-- CR4.OSXSAVE, bit 18 (R17). -/
def Ctl.osxsave (c : Ctl) : Bool := c.cr4.getLsbD 18

/-- XCR0 bits 2:1 are 11b: SSE and AVX state enabled (R17, R122). -/
def Ctl.avxState (c : Ctl) : Bool := c.xcr0.extractLsb' 1 2 == 3

/-- XCR0 bits 7:5 are 111b: opmask, ZMM_Hi256 and Hi16_ZMM state enabled (R17, R122). -/
def Ctl.avx512State (c : Ctl) : Bool := c.xcr0.extractLsb' 5 3 == 7

/-- EFLAGS.AC, bit 18 (R17). -/
def Ctl.ac (c : Ctl) : Bool := c.eflags.getLsbD 18

/-- Alignment checking is enabled: CR0.AM, EFLAGS.AC and CPL 3 (R38). -/
def Ctl.alignmentChecking (c : Ctl) : Bool := c.am && c.ac && c.cpl == 3

/-- The CPUID flags that a form needs (R2, first line of R122). -/
def featureOk (f : Form) (ft : Feat) : Bool :=
  match f with
  | .mm => ft.sse
  | .xmm => ft.sse2
  | .vex128 => ft.avx
  | .vex256 => ft.avx2
  | .evex128 => ft.avx512vl && ft.avx512bw
  | .evex256 => ft.avx512vl && ft.avx512bw
  | .evex512 => ft.avx512bw

/-- The control bits under which a form raises no `#UD` (the CR and XCR0 lines of R122). -/
def controlOk (f : Form) (c : Ctl) : Bool :=
  match f with
  | .mm => !c.em
  | .xmm => !c.em && c.osfxsr
  | .vex128 => c.osxsave && c.avxState
  | .vex256 => c.osxsave && c.avxState
  | .evex128 => c.osxsave && c.avxState && c.avx512State
  | .evex256 => c.osxsave && c.avxState && c.avx512State
  | .evex512 => c.osxsave && c.avxState && c.avx512State

/-- Steps 4 to 6 of R131: `#UD`, then `#NM`, then `#MF` (form 1 only). Before them the model refuses the modes of D1
and 16-bit addressing (R65), which `decode` refuses too. -/
def formChecks (f : Form) (p : Prefixes) (rm : RmOperand) (s : State) : Result Unit :=
  if !s.mode.supported then .refused .unsupportedMode
  else if decide (s.mode = .mode32) && p.addrSize && rm.isMem then .refused .addrSize16
  else if !(featureOk f s.feat && controlOk f s.ctl) then raise .ud s
  else if s.ctl.ts then raise .nm s
  else if decide (f = .mm) && s.ctl.x87Pending then raise .mf s
  else .next ()

end Sys2Proof.Machine
end

