-- ==== Sys2Proof/Machine/Sad.lean ====
section
/-! DEFINITION. The arithmetic all seven forms share (spec/40_sad_core.md, R90 to R92). -/

namespace Sys2Proof.Machine

/-- `AD(x, y) = |x - y|` over the integers, of two unsigned bytes (R90). -/
def ad (x y : Byte) : Nat :=
  ((x.toNat : Int) - (y.toNat : Int)).natAbs

/-- `byte(v, i)` (R5). -/
def byteOf {n : Nat} (v : BitVec n) (i : Nat) : Byte :=
  v.extractLsb' (8 * i) 8

/-- `SAD8(a, b)`: the sum of the eight absolute differences of a 64-bit group (R91). -/
def sad8 (a b : BitVec 64) : Nat :=
  ad (byteOf a 0) (byteOf b 0) + ad (byteOf a 1) (byteOf b 1) + ad (byteOf a 2) (byteOf b 2)
    + ad (byteOf a 3) (byteOf b 3) + ad (byteOf a 4) (byteOf b 4) + ad (byteOf a 5) (byteOf b 5)
    + ad (byteOf a 6) (byteOf b 6) + ad (byteOf a 7) (byteOf b 7)

/-- One group of the result: the sum as a word, 48 zero bits above it (R92). -/
def sadGroup (a b : BitVec 64) : BitVec 64 :=
  0#48 ++ BitVec.ofNat 16 (sad8 a b)

/-- Group `g`: bits `[64g+63:64g]` (R8). -/
def group {n : Nat} (v : BitVec n) (g : Nat) : BitVec 64 :=
  v.extractLsb' (64 * g) 64

/-- The value made of the first `k` groups `f 0 .. f (k-1)`, zero above. -/
def packGroups (n : Nat) (f : Nat → BitVec 64) : Nat → BitVec n
  | 0 => 0
  | k + 1 => packGroups n f k ||| ((f k).setWidth n <<< (64 * k))

/-- `SADVEC(n, a, b)`: every group of the result holds its own sum (R92). -/
def sadvec (n : Nat) (a b : BitVec n) : BitVec n :=
  packGroups n (fun g => sadGroup (group a g) (group b g)) (n / 64)

end Sys2Proof.Machine
end

