-- ==== Sys2Proof/Machine/Operands.lean ====
section
/-! DEFINITION. Every operand form: the widths of the forms, register numbers (R68 to R71), effective addresses (R62 to
R67), the default segment (R66), and the one read of a memory operand with its checks in the order of R131 step 7. -/

namespace Sys2Proof.Machine

/-- `VL` in bits; 64 for form 1 (R2, R4). -/
def vl : Form → Nat
  | .mm => 64
  | .xmm => 128
  | .vex128 => 128
  | .vex256 => 256
  | .evex128 => 128
  | .evex256 => 256
  | .evex512 => 512

/-- Bytes of the memory operand, `n = VL/8` (R32). -/
def operandBytes (f : Form) : Nat := vl f / 8

/-- `N`: what an 8-bit displacement is multiplied by; the operand size for the EVEX forms, else 1 (R67). -/
def dispScale : Form → Nat
  | .mm => 1
  | .xmm => 1
  | .vex128 => 1
  | .vex256 => 1
  | .evex128 => 16
  | .evex256 => 32
  | .evex512 => 64

/-! ### Register numbers -/

/-- A four-bit register number: one extension bit above three stored bits (R62, R69, R70). -/
def reg4 (hi : Bool) (lo : BitVec 3) : BitVec 4 :=
  BitVec.ofBool hi ++ lo

/-- A five-bit register number from two extension bits and three stored bits (R71). -/
def reg5 (hi mid : Bool) (lo : BitVec 3) : BitVec 5 :=
  BitVec.ofBool hi ++ BitVec.ofBool mid ++ lo

/-- A five-bit register number from `V'` and `vvvv`; without `V'` the number is `vvvv` (R70, R71). -/
def vreg (hi : Bool) (vvvv : BitVec 4) : BitVec 5 :=
  BitVec.ofBool hi ++ vvvv

/-! ### Effective address -/

/-- 32-bit address size: `Mode32`, or `Mode64` with a `67` prefix (R64). -/
def addr32 (mode : Mode) (p : Prefixes) : Bool :=
  decide (mode = .mode32) || p.addrSize

/-- A general register as an address part: its low 32 bits with 32-bit address size (R64). -/
def addrReg (s : State) (a32 : Bool) (i : BitVec 4) : BitVec 64 :=
  if a32 then ((s.readGpr i).setWidth 32).setWidth 64 else s.readGpr i

/-- The displacement, sign-extended, an 8-bit one multiplied by `N` (R62, R67). -/
def dispValue (n : Nat) : Disp → BitVec 64
  | .none => 0
  | .disp8 d => d.signExtend 64 * BitVec.ofNat 64 n
  | .disp32 d => d.signExtend 64

/-- Index times scale; no index when `X:index = 0100b` (R62). -/
def indexValue (s : State) (a32 x : Bool) (scale : BitVec 2) (index : BitVec 3) : BitVec 64 :=
  if reg4 x index = 4 then 0 else addrReg s a32 (reg4 x index) <<< scale.toNat

/-- The sum of R62 before the address size is applied. `len` is the instruction's length, for the RIP-relative form
(R63). -/
def addressSum (s : State) (a32 x b : Bool) (n len : Nat) : MemForm → BitVec 64
  | .base rm d => addrReg s a32 (reg4 b rm) + dispValue n d
  | .dispOnly d =>
    if s.mode = .mode64 then s.nextIp len + d.signExtend 64 else d.signExtend 64
  | .sib scale index bse d =>
    addrReg s a32 (reg4 b bse) + indexValue s a32 x scale index + dispValue n d
  | .sibNoBase scale index d => indexValue s a32 x scale index + d.signExtend 64

/-- `EA` (R62 to R64), which is the linear address `LA` under flat segments (R30). `x` and `b` are the extension bits of
the address. -/
def effectiveAddress (s : State) (f : Form) (p : Prefixes) (x b : Bool) (len : Nat) (m : MemForm) : Addr :=
  let a32 := addr32 s.mode p
  let sum := addressSum s a32 x b (dispScale f) len m
  if a32 then (sum.setWidth 32).setWidth 64 else sum

/-! ### Segment, range, alignment -/

/-- The default segment is SS: the base register is rSP or rBP (R66). -/
def defaultSS (b : Bool) : MemForm → Bool
  | .base rm _ => reg4 b rm == 5
  | .dispOnly _ => false
  | .sib _ _ bse _ => reg4 b bse == 4 || reg4 b bse == 5
  | .sibNoBase _ _ _ => false

/-- The access goes through SS: an override replaces the default segment in `Mode32` and is ignored in `Mode64` (R66). -/
def usesSS (mode : Mode) (p : Prefixes) (b : Bool) (m : MemForm) : Bool :=
  match p.seg with
  | some o => if mode = .mode32 then o == .ss else defaultSS b m
  | none => defaultSS b m

/-- The address-range check of R35 on an operand of `n` bytes at `la`. -/
def inRange (s : State) (la : Addr) (n : Nat) : Bool :=
  if s.mode = .mode32 then decide (la.toNat + n ≤ 2 ^ 32)
  else (operandAddrs la n).all (canonical s.vaBits)

/-- `LA mod n = 0`. -/
def aligned (la : Addr) (n : Nat) : Bool :=
  la.toNat % n == 0

/-! ### Memory operand -/

/-- Step 7 of R131: range, then the 16-byte alignment of form 2, then mapping, then alignment checking. The answer is the
operand's bytes. -/
def loadOperand (s : State) (f : Form) (ss : Bool) (la : Addr) : Result (List Byte) :=
  let n := operandBytes f
  if !inRange s la n then (if ss then raise .ss s else raise .gp s)
  else if decide (f = .xmm) && !aligned la 16 then raise .gp s
  else match Memory.load s.mem (operandAddrs la n) with
    | .error a => raise (.pf a) s
    | .ok bs =>
      if s.ctl.alignmentChecking && !aligned la n then
        (if f = .mm then raise .ac s else .refused .alignmentCheckEnabled)
      else .next bs

/-- `MemRead(LA, VL/8)` for the memory operand of an instruction of length `len` (R32). -/
def readMemOperand (s : State) (f : Form) (p : Prefixes) (x b : Bool) (len : Nat) (m : MemForm) :
    Result (BitVec (vl f)) :=
  andThen (loadOperand s f (usesSS s.mode p b m) (effectiveAddress s f p x b len m)) fun bs =>
    .next (leValue (vl f) bs)

/-- The `mm2/m64` operand of form 1 (R68): REX.B does not extend an MMX register number. -/
def readRmMm (s : State) (p : Prefixes) (x b : Bool) (len : Nat) : RmOperand → Result (BitVec 64)
  | .reg rm => .next (s.readMm rm)
  | .mem m => readMemOperand s .mm p x b len m

/-- The last operand of forms 2 to 7 (R69 to R71). `hi` is bit 4 of a register number (`X` in the EVEX forms, else 0). -/
def readRmVec (s : State) (f : Form) (p : Prefixes) (hi x b : Bool) (len : Nat) : RmOperand → Result (BitVec (vl f))
  | .reg rm => .next (s.readView (vl f) (reg5 hi b rm))
  | .mem m => readMemOperand s f p x b len m

end Sys2Proof.Machine
end

