-- ==== Sys2Proof/Machine/Vex.lean ====
section
/-! DEFINITION. The three-operand forms: their shared operation, and the VEX meanings (spec/42_vpsadbw_vex.md, R100 and
R101). -/

namespace Sys2Proof.Machine

/-- Forms 3 to 7 (R100, R101, R105 to R107): bits [VL-1:0] of `vec[d]` become `SADVEC(VL, src1, src2)`, the bits above are
zeroed. `hi` is bit 4 of the register number of the last operand. -/
def runVector (f : Form) (p : Prefixes) (d src1 : BitVec 5) (hi x b : Bool) (rm : RmOperand) (len : Nat) (s : State) :
    Result State :=
  andThen (formChecks f p rm s) fun _ =>
    andThen (readRmVec s f p hi x b len rm) fun src2 =>
      .next ((s.writeVec d ((sadvec (vl f) (s.readView (vl f) src1) src2).setWidth 512)).advance len)

/-- `VPSADBW xmm1, xmm2, xmm3/m128`, two-byte VEX: `X = B = 0` (R55, R100). -/
def execVpsadbwVex128C5 (p : Prefixes) (v : Vex2) (m : ModRM) (s : State) : Result State :=
  runVector .vex128 p (reg5 false v.r m.reg) (vreg false v.vvvv) false false false m.rm
    (Instr.vpsadbwVex128C5 p v m).len s

/-- `VPSADBW xmm1, xmm2, xmm3/m128`, three-byte VEX (R56, R100). -/
def execVpsadbwVex128C4 (p : Prefixes) (v : Vex3) (m : ModRM) (s : State) : Result State :=
  runVector .vex128 p (reg5 false v.r m.reg) (vreg false v.vvvv) false v.x v.b m.rm
    (Instr.vpsadbwVex128C4 p v m).len s

/-- `VPSADBW ymm1, ymm2, ymm3/m256`, two-byte VEX (R55, R101). -/
def execVpsadbwVex256C5 (p : Prefixes) (v : Vex2) (m : ModRM) (s : State) : Result State :=
  runVector .vex256 p (reg5 false v.r m.reg) (vreg false v.vvvv) false false false m.rm
    (Instr.vpsadbwVex256C5 p v m).len s

/-- `VPSADBW ymm1, ymm2, ymm3/m256`, three-byte VEX (R56, R101). -/
def execVpsadbwVex256C4 (p : Prefixes) (v : Vex3) (m : ModRM) (s : State) : Result State :=
  runVector .vex256 p (reg5 false v.r m.reg) (vreg false v.vvvv) false v.x v.b m.rm
    (Instr.vpsadbwVex256C4 p v m).len s

end Sys2Proof.Machine
end

