-- ==== Sys2Proof/Machine/Evex.lean ====
section
/-! DEFINITION. The EVEX meanings (spec/43_vpsadbw_evex.md, R105 to R107). `R'` extends the destination, `V'` the first
source; `X` is bit 4 of a register operand and bit 3 of an index register (R71). -/

namespace Sys2Proof.Machine

/-- `VPSADBW xmm1, xmm2, xmm3/m128`, EVEX (R105). -/
def execVpsadbwEvex128 (p : Prefixes) (e : Evex) (m : ModRM) (s : State) : Result State :=
  runVector .evex128 p (reg5 e.rHi e.r m.reg) (vreg e.vHi e.vvvv) e.x e.x e.b m.rm
    (Instr.vpsadbwEvex128 p e m).len s

/-- `VPSADBW ymm1, ymm2, ymm3/m256`, EVEX (R106). -/
def execVpsadbwEvex256 (p : Prefixes) (e : Evex) (m : ModRM) (s : State) : Result State :=
  runVector .evex256 p (reg5 e.rHi e.r m.reg) (vreg e.vHi e.vvvv) e.x e.x e.b m.rm
    (Instr.vpsadbwEvex256 p e m).len s

/-- `VPSADBW zmm1, zmm2, zmm3/m512`, EVEX (R107). -/
def execVpsadbwEvex512 (p : Prefixes) (e : Evex) (m : ModRM) (s : State) : Result State :=
  runVector .evex512 p (reg5 e.rHi e.r m.reg) (vreg e.vHi e.vvvv) e.x e.x e.b m.rm
    (Instr.vpsadbwEvex512 p e m).len s

end Sys2Proof.Machine
end

