-- ==== Sys2Proof/Machine/Legacy.lean ====
section
/-! DEFINITION. The legacy forms (spec/41_psadbw_legacy.md, R95 and R96): two operands, the first read and written. -/

namespace Sys2Proof.Machine

/-- Form 1 (R95): `mm[d] <- SADVEC(64, mm[d], b)`, with the x87 effects of R19. REX.R does not extend `d` (R68). -/
def runMm (p : Prefixes) (x b : Bool) (m : ModRM) (len : Nat) (s : State) : Result State :=
  andThen (formChecks .mm p m.rm s) fun _ =>
    andThen (readRmMm s p x b len m.rm) fun src =>
      .next ((s.writeMm m.reg (sadvec 64 (s.readMm m.reg) src)).advance len)

/-- Form 2 (R96): bits [127:0] of `vec[d]` become `SADVEC(128, xmm(d), b)`, bits [MAXVL-1:128] are kept. -/
def runXmm (p : Prefixes) (r x b : Bool) (m : ModRM) (len : Nat) (s : State) : Result State :=
  andThen (formChecks .xmm p m.rm s) fun _ =>
    andThen (readRmVec s .xmm p false x b len m.rm) fun src =>
      let d := reg5 false r m.reg
      .next ((s.writeVec d (keepUpper128 (s.readVec d) (sadvec 128 (s.readView 128 d) src))).advance len)

/-- `PSADBW mm1, mm2/m64` without REX (R95). -/
def execPsadbwMm (p : Prefixes) (m : ModRM) (s : State) : Result State :=
  runMm p false false m (Instr.psadbwMm p m).len s

/-- `PSADBW mm1, mm2/m64` with REX: X and B extend the address registers only (R53, R95). -/
def execPsadbwMmRex (p : Prefixes) (rex : Rex) (m : ModRM) (s : State) : Result State :=
  runMm p rex.x rex.b m (Instr.psadbwMmRex p rex m).len s

/-- `PSADBW xmm1, xmm2/m128` without REX (R96). -/
def execPsadbwXmm (p : Prefixes) (m : ModRM) (s : State) : Result State :=
  runXmm p false false false m (Instr.psadbwXmm p m).len s

/-- `PSADBW xmm1, xmm2/m128` with REX (R96, R53). -/
def execPsadbwXmmRex (p : Prefixes) (rex : Rex) (m : ModRM) (s : State) : Result State :=
  runXmm p rex.r rex.x rex.b m (Instr.psadbwXmmRex p rex m).len s

end Sys2Proof.Machine
end

