-- ==== Sys2Proof/Machine/Dispatch.lean ====
section
/-! DEFINITION. What each instruction does: one arm per constructor of `Instr`, each one call of its meaning. -/

namespace Sys2Proof.Machine

def exec (i : Instr) (s : State) : Host.Outcome State Fault Refusal :=
  match i with
  -- legacy forms (R95, R96)
  | .psadbwMm p m => Sys2Proof.Machine.execPsadbwMm p m s
  | .psadbwMmRex p rex m => Sys2Proof.Machine.execPsadbwMmRex p rex m s
  | .psadbwXmm p m => Sys2Proof.Machine.execPsadbwXmm p m s
  | .psadbwXmmRex p rex m => Sys2Proof.Machine.execPsadbwXmmRex p rex m s
  -- VEX forms (R100, R101)
  | .vpsadbwVex128C5 p v m => Sys2Proof.Machine.execVpsadbwVex128C5 p v m s
  | .vpsadbwVex128C4 p v m => Sys2Proof.Machine.execVpsadbwVex128C4 p v m s
  | .vpsadbwVex256C5 p v m => Sys2Proof.Machine.execVpsadbwVex256C5 p v m s
  | .vpsadbwVex256C4 p v m => Sys2Proof.Machine.execVpsadbwVex256C4 p v m s
  -- EVEX forms (R105 to R107)
  | .vpsadbwEvex128 p e m => Sys2Proof.Machine.execVpsadbwEvex128 p e m s
  | .vpsadbwEvex256 p e m => Sys2Proof.Machine.execVpsadbwEvex256 p e m s
  | .vpsadbwEvex512 p e m => Sys2Proof.Machine.execVpsadbwEvex512 p e m s

end Sys2Proof.Machine
end

