-- ==== Sys2Proof/Machine/Launch.lean ====
section
/-! DEFINITION. How a program comes to run (R150, R151, R155): software boots the processor out of its power-up mode,
and a launch places the program text at `ip`. No instruction of the slice does either (assumption log 10). -/

namespace Sys2Proof.Machine

/-- The boot steps 1 to 6 of R151: 64-bit mode, CR0.EM and CR0.TS clear, no x87 exception pending, CR4.OSFXSR and
CR4.OSXSAVE set, XCR0 bits 1, 2, 5, 6, 7 set. This is the clean entry of D4 on the bits that power-up leaves otherwise. -/
def State.boot (s : State) : State :=
  { s with
    mode := .mode64
    ctl := { s.ctl with
      cr0 := s.ctl.cr0 &&& ~~~(0xC#64)
      cr4 := s.ctl.cr4 ||| 0x40200#64
      xcr0 := s.ctl.xcr0 ||| 0xE6#64
      x87Pending := false } }

/-- Place a program text at `ip`, so that a run starts with `ip = codeBase` (D13, R150). -/
def State.place (s : State) (code : List Byte) : State :=
  { s with codeBase := s.ip, code := code }

/-- A launch: boot if the processor is still in a mode the spec refuses, then place the program. -/
def State.launch (s : State) (code : List Byte) : State :=
  if s.mode.supported then s.place code else s.boot.place code

/-- The refusal that each reject of the decoder is, in a state. -/
def State.refusalOf (s : State) : Reject → Refusal
  | .notInSlice => .notInSlice
  | .fetchOutsideCode => s.missingByte
  | .unsupportedMode => .unsupportedMode
  | .repeatedPrefix => .repeatedPrefix
  | .rexNotLast => .rexNotLast
  | .reservedRepPrefix => .reservedRepPrefix
  | .segmentOverrideFSGS => .segmentOverrideFSGS
  | .addrSize16 => .addrSize16
  | .nonCanonicalMode32Bits => .nonCanonicalMode32Bits

end Sys2Proof.Machine
end

