-- ==== Sys2Proof/Machine/Step.lean ====
section
/-! DEFINITION. One step (R7, R131): fetch from the program text, decode, then the instruction's meaning, which tests
the state-dependent conditions, reads, computes, writes and advances `ip`. -/

namespace Sys2Proof.Machine

/-- One step of the machine (R7). At `ip = codeEnd` the run is over (R155): no byte is in the text, and the step is
refused as `FetchOutsideCode` (D13). -/
def step (s : State) : Host.Outcome State Fault Refusal :=
  match decode s.mode s.fetchBytes with
  | .instr i => exec i s
  | .undefinedOpcode => raise .ud s
  | .tooLong => raise .gp s
  | .rejected r => .refused (s.refusalOf r)

/-- `s` with the instruction of a table word placed as its program text, launched if need be (assumption log 10, 16). -/
def State.withFetchWord (s : State) (nbits w : Nat) : State :=
  s.launch (tableBytes nbits w)

end Sys2Proof.Machine
end

