-- ==== Sys2Proof/Safety.lean ====
section
/-! DEFINITION. The terms that claims use: how a run ends (R155), the invariant of the state, the clean entry (D4), the
conditions under which a form executes (R122 to R124) and its last operand is readable (R34 to R38), and which registers an
instruction names (R68 to R71). No step calls any of them. -/

namespace Sys2Proof

/-! ### Feature flags -/

/-- The constraints among the feature flags (R4): AVX2, AVX, SSE2, SSE and AVX512BW or AVX512VL, AVX512F, AVX2. -/
def Feat.consistent (f : Feat) : Bool :=
  (!f.avx2 || f.avx) && (!f.avx || f.sse2) && (!f.sse2 || f.sse) && (!f.avx512bw || f.avx512f)
    && (!f.avx512f || f.avx2) && (!f.avx512vl || f.avx512f)

/-! ### What an instruction names (R62 to R71) -/

/-- `X`, the extension bit of an index register; 0 where the prefix has none. -/
def Instr.extX : Instr → Bool
  | .psadbwMm _ _ => false
  | .psadbwMmRex _ rex _ => rex.x
  | .psadbwXmm _ _ => false
  | .psadbwXmmRex _ rex _ => rex.x
  | .vpsadbwVex128C5 _ _ _ => false
  | .vpsadbwVex128C4 _ v _ => v.x
  | .vpsadbwVex256C5 _ _ _ => false
  | .vpsadbwVex256C4 _ v _ => v.x
  | .vpsadbwEvex128 _ e _ => e.x
  | .vpsadbwEvex256 _ e _ => e.x
  | .vpsadbwEvex512 _ e _ => e.x

/-- `B`, the extension bit of a base or `rm` register; 0 where the prefix has none. -/
def Instr.extB : Instr → Bool
  | .psadbwMm _ _ => false
  | .psadbwMmRex _ rex _ => rex.b
  | .psadbwXmm _ _ => false
  | .psadbwXmmRex _ rex _ => rex.b
  | .vpsadbwVex128C5 _ _ _ => false
  | .vpsadbwVex128C4 _ v _ => v.b
  | .vpsadbwVex256C5 _ _ _ => false
  | .vpsadbwVex256C4 _ v _ => v.b
  | .vpsadbwEvex128 _ e _ => e.b
  | .vpsadbwEvex256 _ e _ => e.b
  | .vpsadbwEvex512 _ e _ => e.b

/-- The destination's number in `vec` (forms 2 to 7), or in `mm` (form 1, three bits). -/
def Instr.dest : Instr → BitVec 5
  | .psadbwMm _ m => Machine.reg5 false false m.reg
  | .psadbwMmRex _ _ m => Machine.reg5 false false m.reg
  | .psadbwXmm _ m => Machine.reg5 false false m.reg
  | .psadbwXmmRex _ rex m => Machine.reg5 false rex.r m.reg
  | .vpsadbwVex128C5 _ v m => Machine.reg5 false v.r m.reg
  | .vpsadbwVex128C4 _ v m => Machine.reg5 false v.r m.reg
  | .vpsadbwVex256C5 _ v m => Machine.reg5 false v.r m.reg
  | .vpsadbwVex256C4 _ v m => Machine.reg5 false v.r m.reg
  | .vpsadbwEvex128 _ e m => Machine.reg5 e.rHi e.r m.reg
  | .vpsadbwEvex256 _ e m => Machine.reg5 e.rHi e.r m.reg
  | .vpsadbwEvex512 _ e m => Machine.reg5 e.rHi e.r m.reg

/-- The register number of the first source in `vec` (forms 2 to 7): the destination in form 2 (R69), `V':vvvv` otherwise
(R70, R71). Form 1 reads its destination `mm[reg]` (R68). -/
def Instr.src1 : Instr → BitVec 5
  | .psadbwMm _ m => Machine.reg5 false false m.reg
  | .psadbwMmRex _ _ m => Machine.reg5 false false m.reg
  | .psadbwXmm _ m => Machine.reg5 false false m.reg
  | .psadbwXmmRex _ rex m => Machine.reg5 false rex.r m.reg
  | .vpsadbwVex128C5 _ v _ => Machine.vreg false v.vvvv
  | .vpsadbwVex128C4 _ v _ => Machine.vreg false v.vvvv
  | .vpsadbwVex256C5 _ v _ => Machine.vreg false v.vvvv
  | .vpsadbwVex256C4 _ v _ => Machine.vreg false v.vvvv
  | .vpsadbwEvex128 _ e _ => Machine.vreg e.vHi e.vvvv
  | .vpsadbwEvex256 _ e _ => Machine.vreg e.vHi e.vvvv
  | .vpsadbwEvex512 _ e _ => Machine.vreg e.vHi e.vvvv

/-- Bit 4 of the register number of the last operand: `X` in the EVEX forms, else 0 (R71). -/
def Instr.rmHi (i : Instr) : Bool :=
  match i.form with
  | .mm => false
  | .xmm => false
  | .vex128 => false
  | .vex256 => false
  | .evex128 => i.extX
  | .evex256 => i.extX
  | .evex512 => i.extX

/-- The register number of the last operand in `vec` (forms 2 to 7), if it is a register (R69 to R71). -/
def Instr.src2 (i : Instr) : Option (BitVec 5) :=
  match i.modrm.rm with
  | .reg rm => some (Machine.reg5 i.rmHi i.extB rm)
  | .mem _ => none

/-- Whether a SIB byte is present (R61). -/
def RmOperand.hasSib : RmOperand → Bool
  | .reg _ => false
  | .mem (.base _ _) => false
  | .mem (.dispOnly _) => false
  | .mem (.sib _ _ _ _) => true
  | .mem (.sibNoBase _ _ _) => true

/-- Whether the operand is a displacement alone, RIP-relative in `Mode64` (R63). -/
def RmOperand.isDispOnly : RmOperand → Bool
  | .reg _ => false
  | .mem (.base _ _) => false
  | .mem (.dispOnly _) => true
  | .mem (.sib _ _ _ _) => false
  | .mem (.sibNoBase _ _ _) => false

/-- The instruction with another segment override, or with none. -/
def Instr.withSeg (o : Option SegOverride) : Instr → Instr
  | .psadbwMm p m => .psadbwMm { p with seg := o } m
  | .psadbwMmRex p rex m => .psadbwMmRex { p with seg := o } rex m
  | .psadbwXmm p m => .psadbwXmm { p with seg := o } m
  | .psadbwXmmRex p rex m => .psadbwXmmRex { p with seg := o } rex m
  | .vpsadbwVex128C5 p v m => .vpsadbwVex128C5 { p with seg := o } v m
  | .vpsadbwVex128C4 p v m => .vpsadbwVex128C4 { p with seg := o } v m
  | .vpsadbwVex256C5 p v m => .vpsadbwVex256C5 { p with seg := o } v m
  | .vpsadbwVex256C4 p v m => .vpsadbwVex256C4 { p with seg := o } v m
  | .vpsadbwEvex128 p e m => .vpsadbwEvex128 { p with seg := o } e m
  | .vpsadbwEvex256 p e m => .vpsadbwEvex256 { p with seg := o } e m
  | .vpsadbwEvex512 p e m => .vpsadbwEvex512 { p with seg := o } e m

/-! ### Sequences of legacy prefix bytes (R51) -/

/-- The segment-override bytes CS, SS, DS, ES. -/
def segBytes : List Byte := [0x2E, 0x36, 0x3E, 0x26]

/-- The prefix bytes that the model accepts: operand size, REPNE, REP, LOCK, address size, and the segment overrides but for
FS and GS. -/
def acceptedBytes : List Byte := [0x66, 0xF2, 0xF3, 0xF0, 0x67] ++ segBytes

/-- A sequence of prefix bytes that the model accepts (R51): each byte at most once, at most one segment override, no FS or
GS. -/
def AcceptedPrefixes (pre : List Byte) : Prop :=
  (∀ b ∈ pre, b ∈ acceptedBytes) ∧ pre.Nodup ∧ (pre.filter fun b => decide (b ∈ segBytes)).length ≤ 1

/-! ### The two parts of an encoding (R50) -/

/-- The legacy prefix bytes of an encoding, the mandatory `66` of form 2 among them, in the encoder's order; the model accepts
them in any order (R51). -/
def Instr.prefixBytes (i : Instr) : List Byte :=
  i.prefixes.encode ++ (if i.form = .xmm then [0x66] else [])

/-- The bytes of an encoding after its legacy prefixes: REX, VEX or EVEX, opcode, ModRM, SIB, displacement (R50). -/
def Instr.body : Instr → List Byte
  | .psadbwMm _ m => [0x0F, 0xF6] ++ m.encode
  | .psadbwMmRex _ x m => [x.encode, 0x0F, 0xF6] ++ m.encode
  | .psadbwXmm _ m => [0x0F, 0xF6] ++ m.encode
  | .psadbwXmmRex _ x m => [x.encode, 0x0F, 0xF6] ++ m.encode
  | .vpsadbwVex128C5 _ v m => v.encode false ++ 0xF6 :: m.encode
  | .vpsadbwVex128C4 _ v m => v.encode false ++ 0xF6 :: m.encode
  | .vpsadbwVex256C5 _ v m => v.encode true ++ 0xF6 :: m.encode
  | .vpsadbwVex256C4 _ v m => v.encode true ++ 0xF6 :: m.encode
  | .vpsadbwEvex128 _ e m => e.encode 0 ++ 0xF6 :: m.encode
  | .vpsadbwEvex256 _ e m => e.encode 1 ++ 0xF6 :: m.encode
  | .vpsadbwEvex512 _ e m => e.encode 2 ++ 0xF6 :: m.encode

/-- The linear address of the memory operand, if the operand is in memory (R62 to R64, R30). -/
def Instr.memAddress (i : Instr) (s : Machine.State) : Option Addr :=
  match i.modrm.rm with
  | .reg _ => none
  | .mem a => some (Machine.effectiveAddress s i.form i.prefixes i.extX i.extB i.len a)

/-- The access of the memory operand goes through the stack segment (R66). -/
def Instr.throughSS (i : Instr) (s : Machine.State) : Bool :=
  match i.modrm.rm with
  | .reg _ => false
  | .mem a => Machine.usesSS s.mode i.prefixes i.extB a

end Sys2Proof

namespace Sys2Proof.Machine

/-! ### Runs (R155) -/

/-- The run is over and successful: `ip = codeEnd` (R155, D13). -/
def State.final (s : State) : Bool :=
  s.ip.toNat == s.codeEnd

/-- The outcome of a part of the machine with its value changed. -/
def mapNext {α β : Type} (f : α → β) : Result α → Result β
  | .next v => .next (f v)
  | .fault e => .fault e
  | .refused e => .refused e

/-! ### Invariant -/

/-- What every step keeps: consistent flags (R4), vector registers of `MAXVL` bits (R12), registers 16 to 31 only with
AVX512F (R12), a 32-bit instruction pointer in `Mode32` (R15), canonical memory. -/
structure State.Inv (s : State) : Prop where
  featConsistent : s.feat.consistent = true
  vecWidth : ∀ i : BitVec 5, ∀ j, maxvl s.feat ≤ j → (s.readVec i).getLsbD j = false
  highAbsent : s.feat.avx512f = false → ∀ i : BitVec 5, 16 ≤ i.toNat → s.readVec i = 0
  ip32 : s.mode = .mode32 → s.ip.toNat < 2 ^ 32
  memCanonical : Memory.wf s.mem

/-! ### Conditions of execution -/

/-- The launch premise "clean entry" (D4, R17). -/
def State.cleanEntry (s : State) : Bool :=
  !s.ctl.cr0.getLsbD 2 && !s.ctl.cr0.getLsbD 3 && s.ctl.cr4.getLsbD 9 && s.ctl.cr4.getLsbD 18
    && s.ctl.xcr0.getLsbD 1 && s.ctl.xcr0.getLsbD 2 && s.ctl.xcr0.getLsbD 5 && s.ctl.xcr0.getLsbD 6
    && s.ctl.xcr0.getLsbD 7 && !s.ctl.x87Pending
    && !(s.ctl.cr0.getLsbD 18 && s.ctl.eflags.getLsbD 18 && s.ctl.cpl == 3)

/-- No state-dependent line of R122 holds for the form: its CPUID flags are set and the CR0.EM, CR4 and XCR0 bits are as
the form asks. -/
def FormDefined (f : Form) (s : State) : Prop :=
  match f with
  | .mm => s.feat.sse = true ∧ s.ctl.cr0.getLsbD 2 = false
  | .xmm => s.feat.sse2 = true ∧ s.ctl.cr0.getLsbD 2 = false ∧ s.ctl.cr4.getLsbD 9 = true
  | .vex128 =>
    s.feat.avx = true ∧ s.ctl.cr4.getLsbD 18 = true ∧ s.ctl.xcr0.getLsbD 1 = true ∧ s.ctl.xcr0.getLsbD 2 = true
  | .vex256 =>
    s.feat.avx2 = true ∧ s.ctl.cr4.getLsbD 18 = true ∧ s.ctl.xcr0.getLsbD 1 = true ∧ s.ctl.xcr0.getLsbD 2 = true
  | .evex128 =>
    s.feat.avx512vl = true ∧ s.feat.avx512bw = true ∧ s.ctl.cr4.getLsbD 18 = true
      ∧ s.ctl.xcr0.getLsbD 1 = true ∧ s.ctl.xcr0.getLsbD 2 = true ∧ s.ctl.xcr0.getLsbD 5 = true
      ∧ s.ctl.xcr0.getLsbD 6 = true ∧ s.ctl.xcr0.getLsbD 7 = true
  | .evex256 =>
    s.feat.avx512vl = true ∧ s.feat.avx512bw = true ∧ s.ctl.cr4.getLsbD 18 = true
      ∧ s.ctl.xcr0.getLsbD 1 = true ∧ s.ctl.xcr0.getLsbD 2 = true ∧ s.ctl.xcr0.getLsbD 5 = true
      ∧ s.ctl.xcr0.getLsbD 6 = true ∧ s.ctl.xcr0.getLsbD 7 = true
  | .evex512 =>
    s.feat.avx512bw = true ∧ s.ctl.cr4.getLsbD 18 = true
      ∧ s.ctl.xcr0.getLsbD 1 = true ∧ s.ctl.xcr0.getLsbD 2 = true ∧ s.ctl.xcr0.getLsbD 5 = true
      ∧ s.ctl.xcr0.getLsbD 6 = true ∧ s.ctl.xcr0.getLsbD 7 = true

/-- The instruction is encodable in the mode as far as `exec` asks: a mode of D1 with a meaning, and no 16-bit addressing
(R65). -/
def Admitted (i : Instr) (s : State) : Prop :=
  (s.mode = .mode64 ∨ s.mode = .mode32)
    ∧ ¬(s.mode = .mode32 ∧ i.prefixes.addrSize = true ∧ i.modrm.rm.isMem = true)

/-- No state-dependent check of R122 to R124 stops the instruction. -/
def Enabled (i : Instr) (s : State) : Prop :=
  Admitted i s ∧ FormDefined i.form s ∧ s.ctl.cr0.getLsbD 3 = false
    ∧ (i.form = .mm → s.ctl.x87Pending = false)

/-! ### Readable operands -/

/-- The bytes of memory from `la` on are those of `v`, the least significant first (R31, R32). -/
def MemHolds (s : State) (la : Addr) {w : Nat} (v : BitVec w) : Prop :=
  ∀ k, k < w / 8 → Memory.read s.mem (la + BitVec.ofNat 64 k).toNat = some (byteOf v k)

/-- No check of R131 step 7 but the mapping stops an access of the form at `la`. -/
def AccessOk (f : Form) (s : State) (la : Addr) : Prop :=
  inRange s la (operandBytes f) = true
    ∧ (f = .xmm → la.toNat % 16 = 0)
    ∧ (s.ctl.alignmentChecking = true → la.toNat % operandBytes f = 0)

/-- `v` is the value of the last operand of a form-1 instruction (R68). -/
def MmSource (i : Instr) (s : State) (v : BitVec 64) : Prop :=
  match i.modrm.rm with
  | .reg rm => v = s.readMm rm
  | .mem a =>
    AccessOk .mm s (effectiveAddress s .mm i.prefixes i.extX i.extB i.len a)
      ∧ MemHolds s (effectiveAddress s .mm i.prefixes i.extX i.extB i.len a) v

/-- `v` is the value of the last operand of an instruction of one of the forms 2 to 7 (R69 to R71). `hi` is bit 4 of the
register number. -/
def VecSource (f : Form) (hi : Bool) (i : Instr) (s : State) (v : BitVec (vl f)) : Prop :=
  match i.modrm.rm with
  | .reg rm => v = s.readView (vl f) (reg5 hi i.extB rm)
  | .mem a =>
    AccessOk f s (effectiveAddress s f i.prefixes i.extX i.extB i.len a)
      ∧ MemHolds s (effectiveAddress s f i.prefixes i.extX i.extB i.len a) v

end Sys2Proof.Machine
end

