-- ==== Sys2Proof/Certificates/Slice0/Obligations.lean ====
section
/-! DEFINITION. The statements about the model, for the provers. Each docstring names the rule of spec/ that the statement
formalises. -/

open Sys2Proof Sys2Proof.Machine

/-! ### The shared arithmetic (spec/40_sad_core.md) -/

/-- R90: the absolute difference of two unsigned bytes, taken over the integers, is 0 to 255 and symmetric. -/
def Obligations.AbsoluteDifferenceOfUnsignedBytes : Prop :=
  ∀ x y : Byte,
    (y.toNat ≤ x.toNat → ad x y = x.toNat - y.toNat) ∧ (x.toNat ≤ y.toNat → ad x y = y.toNat - x.toNat)
      ∧ ad x y ≤ 255 ∧ ad x y = ad y x

/-- R91: a group's sum is the sum of its eight absolute differences, at most 2040, so it fits the result word, whose bits
15:11 are 0. -/
def Obligations.GroupSumFitsElevenBits : Prop :=
  ∀ a b : BitVec 64,
    sad8 a b = ((List.range 8).map fun i => ad (byteOf a i) (byteOf b i)).sum
      ∧ sad8 a b ≤ 2040
      ∧ (BitVec.ofNat 16 (sad8 a b)).toNat = sad8 a b
      ∧ ∀ j, 11 ≤ j → (BitVec.ofNat 16 (sad8 a b)).getLsbD j = false

/-- R92: for every width and every group, the low word of the result's group is the group's sum and the other 48 bits
are 0. -/
def Obligations.PackedResultPerGroup : Prop :=
  ∀ n, n = 64 ∨ n = 128 ∨ n = 256 ∨ n = 512 → ∀ (a b : BitVec n) (g : Nat), g < n / 64 →
    (sadvec n a b).extractLsb' (64 * g) 16
        = BitVec.ofNat 16 (sad8 (a.extractLsb' (64 * g) 64) (b.extractLsb' (64 * g) 64))
      ∧ (sadvec n a b).extractLsb' (64 * g + 16) 48 = 0

/-- R93 (b), (c): the packed result is symmetric, and 0 on equal operands. -/
def Obligations.SadvecSymmetricAndZeroOnEqual : Prop :=
  ∀ n, 64 ∣ n → ∀ a b : BitVec n, sadvec n a b = sadvec n b a ∧ sadvec n a a = 0

/-- R93 (f): a wider form is the narrower forms side by side. -/
def Obligations.SadvecOfConcatenation : Prop :=
  ∀ n, 64 ∣ n → ∀ ah al bh bl : BitVec n,
    sadvec (n + n) (ah ++ al) (bh ++ bl) = sadvec n ah bh ++ sadvec n al bl

/-! ### Each form completes, with its result (R95, R96, R100, R101, R105 to R107) -/

/-- R95, R68, R19: form 1, with and without REX, on a register or a memory operand. The next state differs in `mm[reg]`,
in the x87 effects of R19 (assumption log 3) and in `ip`, in nothing else. -/
def Obligations.PsadbwMmCompletes : Prop :=
  ∀ (p : Prefixes) (rex : Rex) (m : ModRM) (i : Instr) (s : State) (v : BitVec 64),
    (i = .psadbwMm p m ∨ i = .psadbwMmRex p rex m) → Enabled i s → MmSource i s v →
    exec i s = .next { s with
      mm := s.mm.set m.reg.toNat (sadvec 64 (s.readMm m.reg) v) m.reg.isLt
      x87 := { ext := s.x87.ext.set m.reg.toNat (BitVec.allOnes 16) m.reg.isLt, tag := 0, top := 0 }
      ip := s.nextIp i.len }

/-- R96, R69, R13: form 2, with and without REX, on a register or a memory operand. Bits [127:0] of the destination are
the result, bits [MAXVL-1:128] and every other register are kept. -/
def Obligations.PsadbwXmmCompletes : Prop :=
  ∀ (p : Prefixes) (rex : Rex) (m : ModRM) (i : Instr) (s : State) (v : BitVec 128) (d : BitVec 5),
    (i = .psadbwXmm p m ∧ d = reg5 false false m.reg ∨ i = .psadbwXmmRex p rex m ∧ d = reg5 false rex.r m.reg) →
    Enabled i s → VecSource .xmm false i s v →
    ∃ t, exec i s = .next t
      ∧ t.readView 128 d = sadvec 128 (s.readView 128 d) v
      ∧ (∀ j, 128 ≤ j → j < maxvl s.feat → (t.readVec d).getLsbD j = (s.readVec d).getLsbD j)
      ∧ (∀ r, r ≠ d → t.readVec r = s.readVec r)
      ∧ t = { s with vec := t.vec, ip := s.nextIp i.len }

/-- R100, R70: form 3, with either VEX prefix, on a register or a memory operand. The destination's bits above 127 become
0. The flags are consistent as R4 says. -/
def Obligations.VpsadbwVex128Completes : Prop :=
  ∀ (p : Prefixes) (v2 : Vex2) (v3 : Vex3) (m : ModRM) (i : Instr) (s : State) (v : BitVec 128) (d s1 : BitVec 5),
    (i = .vpsadbwVex128C5 p v2 m ∧ d = reg5 false v2.r m.reg ∧ s1 = vreg false v2.vvvv
      ∨ i = .vpsadbwVex128C4 p v3 m ∧ d = reg5 false v3.r m.reg ∧ s1 = vreg false v3.vvvv) →
    s.feat.consistent = true → Enabled i s → VecSource .vex128 false i s v →
    exec i s = .next { s with
      vec := s.vec.set d.toNat ((sadvec 128 (s.readView 128 s1) v).setWidth 512) d.isLt
      ip := s.nextIp i.len }

/-- R101, R70: form 4, with either VEX prefix, on a register or a memory operand. The destination's bits above 255 become
0. -/
def Obligations.VpsadbwVex256Completes : Prop :=
  ∀ (p : Prefixes) (v2 : Vex2) (v3 : Vex3) (m : ModRM) (i : Instr) (s : State) (v : BitVec 256) (d s1 : BitVec 5),
    (i = .vpsadbwVex256C5 p v2 m ∧ d = reg5 false v2.r m.reg ∧ s1 = vreg false v2.vvvv
      ∨ i = .vpsadbwVex256C4 p v3 m ∧ d = reg5 false v3.r m.reg ∧ s1 = vreg false v3.vvvv) →
    s.feat.consistent = true → Enabled i s → VecSource .vex256 false i s v →
    exec i s = .next { s with
      vec := s.vec.set d.toNat ((sadvec 256 (s.readView 256 s1) v).setWidth 512) d.isLt
      ip := s.nextIp i.len }

/-- R105, R71: form 5, on a register or a memory operand; `R'` and `V'` reach registers 16 to 31, `X` is bit 4 of a
register operand. -/
def Obligations.VpsadbwEvex128Completes : Prop :=
  ∀ (p : Prefixes) (e : Evex) (m : ModRM) (s : State) (v : BitVec 128),
    s.feat.consistent = true → Enabled (.vpsadbwEvex128 p e m) s →
    VecSource .evex128 e.x (.vpsadbwEvex128 p e m) s v →
    exec (.vpsadbwEvex128 p e m) s = .next { s with
      vec := s.vec.set (reg5 e.rHi e.r m.reg).toNat
        ((sadvec 128 (s.readView 128 (vreg e.vHi e.vvvv)) v).setWidth 512) (reg5 e.rHi e.r m.reg).isLt
      ip := s.nextIp (Instr.vpsadbwEvex128 p e m).len }

/-- R106, R71: form 6, on a register or a memory operand. -/
def Obligations.VpsadbwEvex256Completes : Prop :=
  ∀ (p : Prefixes) (e : Evex) (m : ModRM) (s : State) (v : BitVec 256),
    s.feat.consistent = true → Enabled (.vpsadbwEvex256 p e m) s →
    VecSource .evex256 e.x (.vpsadbwEvex256 p e m) s v →
    exec (.vpsadbwEvex256 p e m) s = .next { s with
      vec := s.vec.set (reg5 e.rHi e.r m.reg).toNat
        ((sadvec 256 (s.readView 256 (vreg e.vHi e.vvvv)) v).setWidth 512) (reg5 e.rHi e.r m.reg).isLt
      ip := s.nextIp (Instr.vpsadbwEvex256 p e m).len }

/-- R107, R71: form 7, on a register or a memory operand: all 512 bits are the result. -/
def Obligations.VpsadbwEvex512Completes : Prop :=
  ∀ (p : Prefixes) (e : Evex) (m : ModRM) (s : State) (v : BitVec 512),
    s.feat.consistent = true → Enabled (.vpsadbwEvex512 p e m) s →
    VecSource .evex512 e.x (.vpsadbwEvex512 p e m) s v →
    exec (.vpsadbwEvex512 p e m) s = .next { s with
      vec := s.vec.set (reg5 e.rHi e.r m.reg).toNat
        (sadvec 512 (s.readView 512 (vreg e.vHi e.vvvv)) v) (reg5 e.rHi e.r m.reg).isLt
      ip := s.nextIp (Instr.vpsadbwEvex512 p e m).len }

/-! ### Frames and register effects (R13, R15, R16, R19, R21, R33) -/

/-- R21, R16, R33: whatever instruction completes, the general registers, the control registers with the flags, MXCSR, the
mode, the parameters, the program text and every byte of memory are unchanged. -/
def Obligations.EveryInstructionKeepsTheRest : Prop :=
  ∀ (i : Instr) (s t : State), exec i s = .next t →
    t.gpr = s.gpr ∧ t.ctl = s.ctl ∧ t.mxcsr = s.mxcsr ∧ t.mode = s.mode ∧ t.feat = s.feat ∧ t.vaBits = s.vaBits
      ∧ t.codeBase = s.codeBase ∧ t.code = s.code
      ∧ ∀ a, Memory.read t.mem a = Memory.read s.mem a

/-- R21, R11: form 1 leaves every vector register and every MMX register but its destination unchanged. -/
def Obligations.MmxFormsKeepOtherRegisters : Prop :=
  ∀ (i : Instr) (s t : State), i.form = .mm → exec i s = .next t →
    t.vec = s.vec ∧ ∀ r, r ≠ i.modrm.reg → t.readMm r = s.readMm r

/-- R21, R12, R19: forms 2 to 7 leave the MMX registers, the x87 state and every vector register but the destination
unchanged. -/
def Obligations.VectorFormsKeepOtherRegisters : Prop :=
  ∀ (i : Instr) (s t : State), i.form ≠ .mm → exec i s = .next t →
    t.mm = s.mm ∧ t.x87 = s.x87 ∧ ∀ r, r ≠ i.dest → t.readVec r = s.readVec r

/-- R13: the bits of the destination above `VL`: kept by form 2, zero after forms 3 to 6. -/
def Obligations.UpperBitsOfDestination : Prop :=
  ∀ (i : Instr) (s t : State), exec i s = .next t →
    (i.form = .xmm → ∀ j, 128 ≤ j → j < maxvl s.feat → (t.readVec i.dest).getLsbD j = (s.readVec i.dest).getLsbD j)
      ∧ (i.form = .vex128 ∨ i.form = .evex128 → ∀ j, 128 ≤ j → (t.readVec i.dest).getLsbD j = false)
      ∧ (i.form = .vex256 ∨ i.form = .evex256 → ∀ j, 256 ≤ j → (t.readVec i.dest).getLsbD j = false)

/-- R15: a completed instruction advances `ip` by its length, modulo 2^64 in `Mode64` and modulo 2^32 in `Mode32`. -/
def Obligations.InstructionPointerAdvances : Prop :=
  ∀ (i : Instr) (s t : State), exec i s = .next t →
    t.ip.toNat = (s.ip.toNat + i.len) % (if s.mode = .mode32 then 2 ^ 32 else 2 ^ 64)

/-- R95, R96, R100, R105 (corner cases): the same register as both sources gives 0: in `mm[reg]` (form 1), in bits [127:0]
with bits [MAXVL-1:128] kept (form 2), in the whole register (forms 3 to 7, every prefix spelling). -/
def Obligations.SameRegisterGivesZero : Prop :=
  ∀ (i : Instr) (s t : State), exec i s = .next t →
    (i.form = .mm → i.modrm.rm = .reg i.modrm.reg → t.readMm i.modrm.reg = 0)
      ∧ (i.form = .xmm → i.src2 = some i.src1 → t.readView 128 i.dest = 0
          ∧ ∀ j, 128 ≤ j → j < maxvl s.feat → (t.readVec i.dest).getLsbD j = (s.readVec i.dest).getLsbD j)
      ∧ (i.form ≠ .mm → i.form ≠ .xmm → i.src2 = some i.src1 → t.readVec i.dest = 0)

/-- R105 (corner case), R106: on the same register operands the EVEX forms give the register file that the VEX forms give. -/
def Obligations.EvexAgreesWithVex : Prop :=
  ∀ (p : Prefixes) (v : Vex3) (e : Evex) (m : ModRM) (rm : BitVec 3) (s t t' : State),
    m.rm = .reg rm → e.r = v.r → e.b = v.b → e.vvvv = v.vvvv → e.x = false → e.rHi = false → e.vHi = false →
    (exec (.vpsadbwVex128C4 p v m) s = .next t → exec (.vpsadbwEvex128 p e m) s = .next t' → t'.vec = t.vec)
      ∧ (exec (.vpsadbwVex256C4 p v m) s = .next t → exec (.vpsadbwEvex256 p e m) s = .next t' → t'.vec = t.vec)

/-- R16: no form reads or writes a flag or MXCSR: with other values in them (EFLAGS.AC apart, which the #AC check of R38
reads) an instruction has the same outcome, and leaves them as they are. -/
def Obligations.FlagsAndMxcsrDoNotMatter : Prop :=
  ∀ (i : Instr) (s : State) (fl : BitVec 32) (mx : BitVec 32), fl.getLsbD 18 = s.ctl.eflags.getLsbD 18 →
    exec i { s with ctl := { s.ctl with eflags := fl }, mxcsr := mx }
        = mapNext (fun t => { t with ctl := { t.ctl with eflags := fl }, mxcsr := mx }) (exec i s)
      ∧ ∀ t, exec i s = .next t → t.ctl.eflags = s.ctl.eflags ∧ t.mxcsr = s.mxcsr

/-- R136: every form executes identically at every privilege level, the #AC enabling condition (CPL = 3) apart, and leaves the
level and the mode as they are. With CR0.AM and EFLAGS.AC both set, the two levels compared are both 3 or both not. -/
def Obligations.PrivilegeLevelDoesNotMatter : Prop :=
  ∀ (i : Instr) (s : State) (c : BitVec 2),
    (s.ctl.cr0.getLsbD 18 = true → s.ctl.eflags.getLsbD 18 = true → (c = 3 ↔ s.ctl.cpl = 3)) →
    exec i { s with ctl := { s.ctl with cpl := c } }
        = mapNext (fun t => { t with ctl := { t.ctl with cpl := c } }) (exec i s)
      ∧ ∀ t, exec i s = .next t → t.ctl.cpl = s.ctl.cpl ∧ t.mode = s.mode

/-- R32: with a register operand no memory access of any kind is made: other memory, other outcome none. -/
def Obligations.RegisterOperandTouchesNoMemory : Prop :=
  ∀ (i : Instr) (s : State) (m : List Host.Cell), i.modrm.rm.isMem = false →
    exec i { s with mem := m } = mapNext (fun t => { t with mem := m }) (exec i s)

/-- R76: the ignored bits: `W` of REX, VEX and EVEX; REX.R, and REX.B with a register operand, of form 1; REX.X without a SIB
byte; `X` of a three-byte VEX prefix with a register operand; and in `Mode64` the segment overrides: which one stands makes
no difference, the operand that is read does not depend on one, and a prefix byte alone moves `ip` one byte further (a
RIP-relative operand apart, whose address counts the instruction's length, R63). -/
def Obligations.IgnoredBitsDoNotMatter : Prop :=
  ∀ (p : Prefixes) (rex : Rex) (v : Vex3) (e : Evex) (m : ModRM) (s : State) (w r x b : Bool) (rm : BitVec 3)
    (i : Instr) (o o' : SegOverride),
    exec (.psadbwMmRex p { rex with w := w, r := r } m) s = exec (.psadbwMmRex p rex m) s
      ∧ (m.rm = .reg rm → exec (.psadbwMmRex p { rex with b := b } m) s = exec (.psadbwMmRex p rex m) s)
      ∧ exec (.psadbwXmmRex p { rex with w := w } m) s = exec (.psadbwXmmRex p rex m) s
      ∧ exec (.vpsadbwVex128C4 p { v with w := w } m) s = exec (.vpsadbwVex128C4 p v m) s
      ∧ exec (.vpsadbwVex256C4 p { v with w := w } m) s = exec (.vpsadbwVex256C4 p v m) s
      ∧ exec (.vpsadbwEvex128 p { e with w := w } m) s = exec (.vpsadbwEvex128 p e m) s
      ∧ exec (.vpsadbwEvex256 p { e with w := w } m) s = exec (.vpsadbwEvex256 p e m) s
      ∧ exec (.vpsadbwEvex512 p { e with w := w } m) s = exec (.vpsadbwEvex512 p e m) s
      ∧ (m.rm.hasSib = false → exec (.psadbwMmRex p { rex with x := x } m) s = exec (.psadbwMmRex p rex m) s
          ∧ exec (.psadbwXmmRex p { rex with x := x } m) s = exec (.psadbwXmmRex p rex m) s)
      ∧ (m.rm = .reg rm → exec (.vpsadbwVex128C4 p { v with x := x } m) s = exec (.vpsadbwVex128C4 p v m) s
          ∧ exec (.vpsadbwVex256C4 p { v with x := x } m) s = exec (.vpsadbwVex256C4 p v m) s)
      ∧ (s.mode = .mode64 →
          exec (i.withSeg (some o)) s = exec (i.withSeg (some o')) s
            ∧ (∀ f len a, readMemOperand s f { p with seg := some o } x b len a
                = readMemOperand s f { p with seg := none } x b len a)
            ∧ (i.modrm.rm.isDispOnly = false →
                exec (i.withSeg (some o)) s
                  = mapNext (fun t => { t with ip := t.ip + 1 }) (exec (i.withSeg none) s)))

/-! ### Exceptions (spec/60_exceptions.md) -/

/-- R122: an admitted instruction raises #UD exactly when a state-dependent line of R122 holds for its form, whatever CR0.TS
says (R131). -/
def Obligations.UndefinedOpcodeExactly : Prop :=
  ∀ (i : Instr) (s : State), Admitted i s →
    (exec i s = .fault (.ud s.ip) ↔ ¬ FormDefined i.form s)

/-- R123: every form raises #NM when CR0.TS is set and no #UD condition holds. -/
def Obligations.TaskSwitchedRaisesNM : Prop :=
  ∀ (i : Instr) (s : State), Admitted i s → FormDefined i.form s → s.ctl.cr0.getLsbD 3 = true →
    exec i s = .fault (.nm s.ip)

/-- R124: form 1 raises #MF with an x87 exception pending (and no #UD or #NM condition, R131); forms 2 to 7 never do. -/
def Obligations.PendingX87RaisesMF : Prop :=
  (∀ (i : Instr) (s : State), i.form = .mm → Admitted i s → FormDefined .mm s → s.ctl.cr0.getLsbD 3 = false →
    s.ctl.x87Pending = true → exec i s = .fault (.mf s.ip))
  ∧ ∀ (i : Instr) (s : State) (a : Addr), i.form ≠ .mm → exec i s ≠ .fault (.mf a)

/-- R35: the range check passes exactly when every byte address of the operand is canonical (`Mode64`), or the operand ends at or
below FFFFFFFFH without wrapping (`Mode32`). -/
def Obligations.AddressRangeCheckMeaning : Prop :=
  ∀ (s : State) (la : Addr) (n : Nat),
    (s.mode = .mode64 → s.vaBits = .bits48 →
      (inRange s la n = true ↔ ∀ k, k < n → ∀ j, 47 ≤ j → j < 64 →
        (la + BitVec.ofNat 64 k).getLsbD j = (la + BitVec.ofNat 64 k).getLsbD 47))
    ∧ (s.mode = .mode64 → s.vaBits = .bits57 →
      (inRange s la n = true ↔ ∀ k, k < n → ∀ j, 56 ≤ j → j < 64 →
        (la + BitVec.ofNat 64 k).getLsbD j = (la + BitVec.ofNat 64 k).getLsbD 56))
    ∧ (s.mode = .mode32 → 0 < n → (inRange s la n = true ↔ la.toNat + n - 1 ≤ 0xFFFFFFFF))

/-- R125: a memory operand through the stack segment whose range check fails raises #SS(0). -/
def Obligations.StackSegmentRangeRaisesSS : Prop :=
  ∀ (i : Instr) (s : State) (la : Addr), Enabled i s → i.memAddress s = some la → i.throughSS s = true →
    inRange s la (operandBytes i.form) = false →
    exec i s = .fault (.ss s.ip) ∧ (Fault.ss s.ip).record.errorCode = some 0

/-- R126 (a), (b): a memory operand through another segment whose range check fails raises #GP(0), and so does a form-2
operand in range that is not 16-byte aligned. -/
def Obligations.RangeOrMisalignmentRaisesGP : Prop :=
  ∀ (i : Instr) (s : State) (la : Addr), Enabled i s → i.memAddress s = some la →
    (i.throughSS s = false → inRange s la (operandBytes i.form) = false → exec i s = .fault (.gp s.ip))
    ∧ (i.form = .xmm → inRange s la 16 = true → la.toNat % 16 ≠ 0 → exec i s = .fault (.gp s.ip))

/-- R34: with its range check passed, every byte mapped and alignment checking off, an instruction of any form but form 2
completes whatever its operand's address is; form 2 completes on a multiple of 16. -/
def Obligations.OnlyFormTwoNeedsAlignment : Prop :=
  ∀ (i : Instr) (s : State) (la : Addr), Enabled i s → i.memAddress s = some la →
    inRange s la (operandBytes i.form) = true → s.ctl.alignmentChecking = false →
    (∀ k, k < operandBytes i.form → Memory.read s.mem (la + BitVec.ofNat 64 k).toNat ≠ none) →
    (i.form ≠ .xmm ∨ la.toNat % 16 = 0) → ∃ t, exec i s = .next t

/-- R127, R36: an unmapped byte raises #PF with the faulting address and no error code. The address is that of the first
unmapped byte in operand order, which is the lowest one, as R36 says, for an operand that does not wrap around 2^64; for one
that wraps (`Mode64`) R36's "lowest" is not followed: that is the model's choice, assumption log 8 (DEDUCED). -/
def Obligations.UnmappedByteRaisesPF : Prop :=
  ∀ (i : Instr) (s : State) (la : Addr) (k : Nat), Enabled i s → i.memAddress s = some la →
    inRange s la (operandBytes i.form) = true → (i.form = .xmm → la.toNat % 16 = 0) → k < operandBytes i.form →
    Memory.read s.mem (la + BitVec.ofNat 64 k).toNat = none →
    (∀ j, j < k → Memory.read s.mem (la + BitVec.ofNat 64 j).toNat ≠ none) →
    exec i s = .fault (.pf (la + BitVec.ofNat 64 k) s.ip)
      ∧ (Fault.pf (la + BitVec.ofNat 64 k) s.ip).record.addr = some (la + BitVec.ofNat 64 k)
      ∧ (Fault.pf (la + BitVec.ofNat 64 k) s.ip).record.errorCode = none
      ∧ (la.toNat + operandBytes i.form ≤ 2 ^ 64 → ∀ j, j < operandBytes i.form →
          Memory.read s.mem (la + BitVec.ofNat 64 j).toNat = none →
          (la + BitVec.ofNat 64 k).toNat ≤ (la + BitVec.ofNat 64 j).toNat)

/-- R38, R128: with alignment checking on and the operand readable but not aligned to its size, form 1 raises #AC(0), and
forms 3 to 7 are refused as the spec says. -/
def Obligations.AlignmentCheckOutcomes : Prop :=
  ∀ (i : Instr) (s : State) (la : Addr), Enabled i s → i.memAddress s = some la →
    inRange s la (operandBytes i.form) = true → s.ctl.cr0.getLsbD 18 = true → s.ctl.eflags.getLsbD 18 = true →
    s.ctl.cpl = 3 → la.toNat % operandBytes i.form ≠ 0 →
    (∀ k, k < operandBytes i.form → Memory.read s.mem (la + BitVec.ofNat 64 k).toNat ≠ none) →
    (i.form = .mm → exec i s = .fault (.ac s.ip))
      ∧ (i.form ≠ .mm → i.form ≠ .xmm → exec i s = .refused .alignmentCheckEnabled)

/-- R121, R127, R132, R129: the fault record of each exception is R121's row: its vector, error code 0 for #SS, #GP and #AC and
none for the others, an address for #PF only. A fault of an instruction or of a step names the instruction's own address,
and is one of these; #XM (vector 19) is never raised. -/
def Obligations.FaultRecordOfInstruction : Prop :=
  (∀ ip a : Addr,
    (Fault.ud ip).record = { exc := .ud, vector := 6, errorCode := none, addr := none, ip := ip }
      ∧ (Fault.nm ip).record = { exc := .nm, vector := 7, errorCode := none, addr := none, ip := ip }
      ∧ (Fault.mf ip).record = { exc := .mf, vector := 16, errorCode := none, addr := none, ip := ip }
      ∧ (Fault.ss ip).record = { exc := .ss, vector := 12, errorCode := some 0, addr := none, ip := ip }
      ∧ (Fault.gp ip).record = { exc := .gp, vector := 13, errorCode := some 0, addr := none, ip := ip }
      ∧ (Fault.pf a ip).record = { exc := .pf, vector := 14, errorCode := none, addr := some a, ip := ip }
      ∧ (Fault.ac ip).record = { exc := .ac, vector := 17, errorCode := some 0, addr := none, ip := ip })
  ∧ ∀ (i : Instr) (s : State) (e : Fault), exec i s = .fault e ∨ step s = .fault e →
    e.record.ip = s.ip ∧ e.record.vector ∈ [6, 7, 16, 12, 13, 14, 17] ∧ e.record.vector ≠ 19
      ∧ (e.record.errorCode = some 0 ↔ e.record.vector ∈ [12, 13, 17])
      ∧ (e.record.errorCode = none ↔ e.record.vector ∈ [6, 7, 16, 14])
      ∧ (e.record.addr ≠ none ↔ e.record.vector = 14)

/-- D1: in a mode the spec gives no meaning to, every instruction and every step is refused as UnsupportedMode. -/
def Obligations.OtherModesAreRefused : Prop :=
  ∀ (i : Instr) (s : State), s.mode ≠ .mode64 → s.mode ≠ .mode32 →
    exec i s = .refused .unsupportedMode ∧ step s = .refused .unsupportedMode

/-! ### Addresses (spec/30_encoding.md R62 to R67) -/

/-- R62: the effective address with 64-bit address size, for a base register with displacement and for SIB. -/
def Obligations.EffectiveAddress64 : Prop :=
  ∀ (s : State) (f : Form) (seg : Option SegOverride) (x b : Bool) (len : Nat) (rm index bse : BitVec 3)
    (scale : BitVec 2) (d : Disp) (d32 : BitVec 32), s.mode = .mode64 →
    let p : Prefixes := { seg := seg, addrSize := false }
    let scaled : BitVec 64 :=
      if x = false ∧ index = 4 then 0 else s.readGpr (reg4 x index) * BitVec.ofNat 64 (2 ^ scale.toNat)
    effectiveAddress s f p x b len (.base rm d) = s.readGpr (reg4 b rm) + dispValue (dispScale f) d
      ∧ effectiveAddress s f p x b len (.sib scale index bse d)
          = s.readGpr (reg4 b bse) + scaled + dispValue (dispScale f) d
      ∧ effectiveAddress s f p x b len (.sibNoBase scale index d32) = scaled + d32.signExtend 64

/-- R63: RIP-relative addressing in `Mode64`, the absolute address in `Mode32`. -/
def Obligations.RipRelativeAddress : Prop :=
  ∀ (s : State) (f : Form) (seg : Option SegOverride) (x b : Bool) (len : Nat) (d : BitVec 32),
    (s.mode = .mode64 → effectiveAddress s f { seg := seg, addrSize := false } x b len (.dispOnly d)
        = s.ip + BitVec.ofNat 64 len + d.signExtend 64)
      ∧ (s.mode = .mode32 → effectiveAddress s f { seg := seg, addrSize := false } x b len (.dispOnly d)
        = d.setWidth 64)

/-- R64: with 32-bit address size (`Mode32` without `67`, `Mode64` with `67`) the address is the sum of R62 over the low 32 bits
of the registers, modulo 2^32, zero-extended; a displacement alone is absolute in `Mode32` and relative to the next
instruction, modulo 2^32, in `Mode64`. So the address is below 2^32 and depends on the low halves only. -/
def Obligations.Address32UsesLowHalves : Prop :=
  (∀ (s : State) (f : Form) (p : Prefixes) (x b : Bool) (len : Nat) (rm index bse : BitVec 3) (scale : BitVec 2)
    (d : Disp) (d32 : BitVec 32),
    (s.mode = .mode32 ∧ p.addrSize = false ∨ s.mode = .mode64 ∧ p.addrSize = true) →
    let low (r : BitVec 4) : BitVec 32 := (s.readGpr r).setWidth 32
    let scaled : BitVec 32 := if x = false ∧ index = 4 then 0 else low (reg4 x index) * BitVec.ofNat 32 (2 ^ scale.toNat)
    let disp : BitVec 32 := (dispValue (dispScale f) d).setWidth 32
    effectiveAddress s f p x b len (.base rm d) = (low (reg4 b rm) + disp).setWidth 64
      ∧ effectiveAddress s f p x b len (.sib scale index bse d) = (low (reg4 b bse) + scaled + disp).setWidth 64
      ∧ effectiveAddress s f p x b len (.sibNoBase scale index d32) = (scaled + d32).setWidth 64
      ∧ (s.mode = .mode32 → effectiveAddress s f p x b len (.dispOnly d32) = d32.setWidth 64)
      ∧ (s.mode = .mode64 → effectiveAddress s f p x b len (.dispOnly d32)
          = (s.ip.setWidth 32 + BitVec.ofNat 32 len + d32).setWidth 64))
  ∧ ∀ (s : State) (g : Vector (BitVec 64) 16) (f : Form) (p : Prefixes) (x b : Bool) (len : Nat) (a : MemForm),
    (s.mode = .mode32 ∨ p.addrSize = true) →
    (∀ k : Fin 16, (g[k]).setWidth 32 = (s.gpr[k]).setWidth 32) →
    (effectiveAddress s f p x b len a).toNat < 2 ^ 32
      ∧ effectiveAddress { s with gpr := g } f p x b len a = effectiveAddress s f p x b len a

/-- R67: an 8-bit displacement of an EVEX form is multiplied by the operand's size in bytes, of any other form by 1; a 32-bit
displacement is never scaled. -/
def Obligations.CompressedDisplacement : Prop :=
  (∀ d : BitVec 8, dispValue (dispScale .evex128) (.disp8 d) = d.signExtend 64 * 16
      ∧ dispValue (dispScale .evex256) (.disp8 d) = d.signExtend 64 * 32
      ∧ dispValue (dispScale .evex512) (.disp8 d) = d.signExtend 64 * 64
      ∧ dispValue (dispScale .mm) (.disp8 d) = d.signExtend 64
      ∧ dispValue (dispScale .xmm) (.disp8 d) = d.signExtend 64
      ∧ dispValue (dispScale .vex128) (.disp8 d) = d.signExtend 64
      ∧ dispValue (dispScale .vex256) (.disp8 d) = d.signExtend 64)
  ∧ ∀ (f : Form) (d : BitVec 32), dispValue (dispScale f) (.disp32 d) = d.signExtend 64

/-- R66: the access goes through SS by default exactly when the base register is rSP or rBP; an override replaces this in
`Mode32` and is ignored in `Mode64`. -/
def Obligations.StackSegmentDefault : Prop :=
  ∀ (b a32 : Bool) (rm index bse : BitVec 3) (scale : BitVec 2) (d : Disp) (d32 : BitVec 32) (o : SegOverride)
    (a : MemForm),
    (usesSS .mode64 ⟨none, a32⟩ b (.base rm d) = true ↔ b = false ∧ rm = 5)
      ∧ (usesSS .mode64 ⟨none, a32⟩ b (.sib scale index bse d) = true ↔ b = false ∧ (bse = 4 ∨ bse = 5))
      ∧ usesSS .mode64 ⟨none, a32⟩ b (.dispOnly d32) = false
      ∧ usesSS .mode64 ⟨none, a32⟩ b (.sibNoBase scale index d32) = false
      ∧ usesSS .mode32 ⟨none, a32⟩ b a = usesSS .mode64 ⟨none, a32⟩ b a
      ∧ usesSS .mode64 ⟨some o, a32⟩ b a = usesSS .mode64 ⟨none, a32⟩ b a
      ∧ (usesSS .mode32 ⟨some o, a32⟩ b a = true ↔ o = .ss)

/-! ### Encodings (spec/30_encoding.md) -/

/-- R50 to R61, R73: the decoder reads back every well-formed instruction, with every operand at every value its encoding
admits, whatever bytes follow. -/
def Obligations.DecodeReadsBackEncode : Prop :=
  ∀ (mode : Mode) (i : Instr) (rest : List Byte), i.wf mode = true → decode mode (encode i ++ rest) = .instr i

/-- R72, R75, R131 step 1, R57, R59, R73: what the decoder accepts is well formed in the mode, 3 to 15 bytes long, and its bytes
are all there: they are its legacy prefix bytes in some order (R51), then exactly the bytes that R50 to R61 give the rest of
it. So no bytes but an instruction's own, with its map, `pp`, opcode and fixed bits, are read as it. -/
def Obligations.DecodedInstructionIsWellFormed : Prop :=
  ∀ (mode : Mode) (bs : List Byte) (i : Instr), decode mode bs = .instr i →
    i.wf mode = true ∧ 3 ≤ i.len ∧ i.len ≤ 15 ∧ i.len ≤ bs.length
      ∧ ∃ pre, pre.Perm i.prefixBytes ∧ bs.take i.len = pre ++ i.body

/-- R77: a LOCK prefix on any form is #UD; `F2` or `F3` on a legacy form is refused as ReservedRepPrefix. -/
def Obligations.LockAndRepPrefixes : Prop :=
  ∀ (mode : Mode) (i : Instr) (rest : List Byte), i.wf mode = true →
    decode mode (0xF0 :: (encode i ++ rest)) = .undefinedOpcode
      ∧ (i.form = .mm ∨ i.form = .xmm →
          decode mode (0xF2 :: (encode i ++ rest)) = .rejected .reservedRepPrefix
            ∧ decode mode (0xF3 :: (encode i ++ rest)) = .rejected .reservedRepPrefix)

/-- R78, first row: a `66`, `F2` or `F3` prefix before a VEX or EVEX prefix is #UD, and so is a REX byte where no legacy
prefix stands between (`Mode64`). The REX clause is the model's choice, assumption log 12 (DEDUCED): R78, R122 and R73 2c and
2d say #UD, while R73 2a, D20 and U3 refuse a REX byte that is not immediately before `0F`. -/
def Obligations.PrefixBeforeVexIsIllegal : Prop :=
  ∀ (mode : Mode) (i : Instr) (rest : List Byte) (b : Byte), i.wf mode = true → i.form ≠ .mm → i.form ≠ .xmm →
    (b = 0x66 ∨ b = 0xF2 ∨ b = 0xF3 → decode mode (b :: (encode i ++ rest)) = .undefinedOpcode)
      ∧ (mode = .mode64 → i.prefixes = { seg := none, addrSize := false } → b.extractLsb' 4 4 = 4 →
          decode mode (b :: (encode i ++ rest)) = .undefinedOpcode)

/-- R78, EVEX rows: with every other field this instruction's (a register or a memory operand, both modes, any prefix the
model keeps), P0 bit 3 set, P1 bit 2 clear, `L'L = 11b`, a nonzero `aaa`, `z = 1` or `b = 1` (with a memory operand: embedded
broadcast) is #UD. The clauses `aaa`, `z` and `b` are the model's choice, assumption log 14 (DESIGN CHOICE): R78 says that the
`z` and `b` rows "are what the class "E4NF.nb" is understood to imply, and a model that prefers to err toward unprovable may
turn the last four `Fault #UD` rows into `Refused ReservedEvexField`" (D22). In `Mode32` the extension bits are in their
"register 0-7" state, so that the order of assumption log 26 does not matter. -/
def Obligations.IllegalEvexFieldsAreUD : Prop :=
  ∀ (mode : Mode) (p : Prefixes) (p0 p1 p2 : Byte) (m : ModRM) (rest : List Byte),
    (mode = .mode64 ∨ mode = .mode32 ∧ p.wf32 m.rm = true ∧ p0.extractLsb' 4 4 = 15 ∧ p1.getLsbD 6 = true
      ∧ p2.getLsbD 3 = true) →
    m.rm.wf = true → p0.extractLsb' 0 3 = 1 → p1.extractLsb' 0 2 = 1 →
    (p0.getLsbD 3 = true ∨ p1.getLsbD 2 = false ∨ p2.getLsbD 7 = true ∨ p2.getLsbD 4 = true
      ∨ p2.extractLsb' 0 3 ≠ 0 ∨ p2.extractLsb' 5 2 = 3) →
    decode mode (p.encode ++ (0x62 :: p0 :: p1 :: p2 :: 0xF6 :: (m.encode ++ rest))) = .undefinedOpcode

/-- R74: in `Mode32` the bytes `C4`, `C5` and `62` before a byte whose top bits are not both set are LES, LDS and BOUND, so
NotInSlice. -/
def Obligations.Mode32OlderInstructions : Prop :=
  ∀ (b next : Byte) (rest : List Byte), (b = 0xC4 ∨ b = 0xC5 ∨ b = 0x62) → next.extractLsb' 6 2 ≠ 3 →
    decode .mode32 (b :: next :: rest) = .rejected .notInSlice

/-- R79, R73, R57, R59, after any sequence of prefix bytes that the model accepts: NotInSlice is the answer to a byte that starts
none of the forms (no legacy prefix, no REX byte, not `0F`, `C4`, `C5`, `62`) and to a second opcode byte other than `F6`,
both also after a REX byte; and, with no `66`, `F2`, `F3` or `F0` in the sequence, to a VEX or EVEX prefix with another `pp` or
another map and to an opcode byte other than `F6` after it (EVEX: P0 bit 3 and P1 bit 2 as they must be). That a byte other
than `0F` after REX is NotInSlice and not RexNotLast is assumption log 12 (DEDUCED). -/
def Obligations.OtherBytesAreNotInSlice : Prop :=
  ∀ (mode : Mode) (pre rex : List Byte) (b op p0 p1 p2 : Byte) (rest : List Byte), mode.supported = true →
    AcceptedPrefixes pre → (rex = [] ∨ mode = .mode64 ∧ ∃ x : Rex, rex = [x.encode]) →
    (b ∉ acceptedBytes → b ∉ [0x64, 0x65, 0x0F, 0xC4, 0xC5, 0x62] → (mode = .mode64 → b.extractLsb' 4 4 ≠ 4) →
        decode mode (pre ++ (rex ++ b :: rest)) = .rejected .notInSlice)
      ∧ (op ≠ 0xF6 → decode mode (pre ++ (rex ++ 0x0F :: op :: rest)) = .rejected .notInSlice)
      ∧ (0x66 ∉ pre → 0xF2 ∉ pre → 0xF3 ∉ pre → 0xF0 ∉ pre →
        (p0.extractLsb' 0 2 ≠ 1 ∨ op ≠ 0xF6 → decode mode (pre ++ 0xC5 :: p0 :: op :: rest) = .rejected .notInSlice)
          ∧ (p0.extractLsb' 0 5 ≠ 1 ∨ p1.extractLsb' 0 2 ≠ 1 ∨ op ≠ 0xF6 →
            decode mode (pre ++ 0xC4 :: p0 :: p1 :: op :: rest) = .rejected .notInSlice)
          ∧ (p0.getLsbD 3 = false → p1.getLsbD 2 = true →
            p0.extractLsb' 0 3 ≠ 1 ∨ p1.extractLsb' 0 2 ≠ 1 ∨ op ≠ 0xF6 →
            decode mode (pre ++ 0x62 :: p0 :: p1 :: p2 :: op :: rest) = .rejected .notInSlice))

/-- R51, R53, R65, after any sequence of prefix bytes that the model accepts: an FS or GS override, a byte that stands in the
sequence already, a second segment override, and (`Mode64`) a REX byte before another prefix byte are refused by name; so is
in `Mode32` a memory operand of any form with the prefix `67` in the sequence (16-bit addressing). That FS or GS after another
segment override is SegmentOverrideFSGS is the model's choice, assumption log 30 (DESIGN CHOICE); that a refusal is made
at the byte that shows it, whatever follows, is assumption log 11. -/
def Obligations.RefusedPrefixSequences : Prop :=
  ∀ (mode : Mode) (pre : List Byte) (b c : Byte) (rest : List Byte), mode.supported = true → AcceptedPrefixes pre →
    (b = 0x64 ∨ b = 0x65 → decode mode (pre ++ b :: rest) = .rejected .segmentOverrideFSGS)
      ∧ (b ∈ pre → decode mode (pre ++ b :: rest) = .rejected .repeatedPrefix)
      ∧ (b ∈ segBytes → c ∈ segBytes → c ∈ pre → decode mode (pre ++ b :: rest) = .rejected .repeatedPrefix)
      ∧ (mode = .mode64 → b.extractLsb' 4 4 = 4 →
          c ∈ acceptedBytes ∨ c = 0x64 ∨ c = 0x65 ∨ c.extractLsb' 4 4 = 4 →
          decode mode (pre ++ b :: c :: rest) = .rejected .rexNotLast)
      ∧ (mode = .mode32 → 0x67 ∈ pre → 0xF0 ∉ pre → 0xF2 ∉ pre → 0xF3 ∉ pre → ∀ i : Instr, i.wf .mode32 = true →
          i.prefixes = { seg := none, addrSize := false } → i.modrm.rm.isMem = true → (0x66 ∈ pre → i.form = .mm) →
          decode mode (pre ++ (encode i ++ rest)) = .rejected .addrSize16)

/-- R72, D23: in `Mode32` a three-byte VEX or an EVEX prefix that R74 does not make an older instruction, with an extension bit
outside its "register 0-7" state, is refused as NonCanonicalMode32Bits. With a `67` prefix and a memory operand R65 refuses
the same bytes as AddrSize16, and the spec does not order the two: answering NonCanonicalMode32Bits there is the model's
choice, assumption log 26 (DESIGN CHOICE). -/
def Obligations.Mode32ExtensionBitsRefused : Prop :=
  ∀ (p : Prefixes) (v : Vex3) (e : Evex) (m : ModRM) (rest : List Byte),
    (v.r = false → v.x = false → v.wf32 = false →
        decode .mode32 (encode (.vpsadbwVex128C4 p v m) ++ rest) = .rejected .nonCanonicalMode32Bits
          ∧ decode .mode32 (encode (.vpsadbwVex256C4 p v m) ++ rest) = .rejected .nonCanonicalMode32Bits)
      ∧ (e.r = false → e.x = false → e.wf32 = false →
        decode .mode32 (encode (.vpsadbwEvex128 p e m) ++ rest) = .rejected .nonCanonicalMode32Bits
          ∧ decode .mode32 (encode (.vpsadbwEvex256 p e m) ++ rest) = .rejected .nonCanonicalMode32Bits
          ∧ decode .mode32 (encode (.vpsadbwEvex512 p e m) ++ rest) = .rejected .nonCanonicalMode32Bits)

/-- R54, R57, R59, R67 (worked encodings): words written out in the spec decode to the instructions they stand for. -/
def Obligations.SpecWordsDecode : Prop :=
  decode .mode64 [0x0F, 0xF6, 0xC1] = .instr (.psadbwMm ⟨none, false⟩ ⟨0, .reg 1⟩)
    ∧ decode .mode64 [0x66, 0x45, 0x0F, 0xF6, 0xC1]
        = .instr (.psadbwXmmRex ⟨none, false⟩ ⟨false, true, false, true⟩ ⟨0, .reg 1⟩)
    ∧ decode .mode64 [0xC4, 0x41, 0x6D, 0xF6, 0xCB]
        = .instr (.vpsadbwVex256C4 ⟨none, false⟩ ⟨true, false, true, false, 2⟩ ⟨1, .reg 3⟩)
    ∧ decode .mode64 [0x62, 0xF1, 0x6D, 0x48, 0xF6, 0x4E, 0x01]
        = .instr (.vpsadbwEvex512 ⟨none, false⟩ ⟨false, false, false, false, false, 2, false⟩
            ⟨1, .mem (.base 6 (.disp8 1))⟩)

/-! ### The step and runs (R7, R131, R155) -/

/-- R7, R131: when the bytes of the program text at `ip` decode to an instruction, the step is that instruction's meaning at
that state, with nothing around it. -/
def Obligations.StepRunsDecodedInstruction : Prop :=
  ∀ (s : State) (i : Instr), decode s.mode s.fetchBytes = .instr i → step s = exec i s

/-- R73, R126 (c), R121: an illegal encoding at `ip` raises #UD and an encoding of more than 15 bytes #GP(0), at the address of
the instruction. The last clause's bytes are too long and, by R78, also #UD; the spec leaves that tie to the model (R131, D15,
U6): #GP first is assumption log 11's choice (DEDUCED), and the clause shows only that the length check can be reached. -/
def Obligations.StepFaultsOnIllegalEncodings : Prop :=
  (∀ s : State, decode s.mode s.fetchBytes = .undefinedOpcode → step s = .fault (.ud s.ip))
    ∧ (∀ s : State, decode s.mode s.fetchBytes = .tooLong → step s = .fault (.gp s.ip))
    ∧ decode .mode64 [0xF0, 0x66, 0xF2, 0xF3, 0x2E, 0x67, 0x62, 0xF1, 0x6D, 0x48, 0xF6, 0x8C, 0x8B, 0, 0, 0, 0]
        = .tooLong

/-- A program launched from the power-up state (assumption log 10) runs its first instruction in the very next step, where it
lies at canonical addresses (R15). -/
def Obligations.LaunchedProgramRuns : Prop :=
  ∀ (code : List Byte) (i : Instr), decode .mode64 code = .instr i → 0xFFF0 + code.length ≤ 2 ^ 47 →
    step (State.reset.launch code) = exec i (State.reset.launch code)

/-- R155, D13: at `ip = codeEnd` the run is over: no step is taken beyond it. -/
def Obligations.NoStepAtCodeEnd : Prop :=
  ∀ s : State, s.mode.supported = true → s.final = true → step s = .refused .fetchOutsideCode

/-- R33, R10, R17: over any run, memory, the general registers, the control bits and the program text are those of the launch
state. -/
def Obligations.RunKeepsLaunchParameters : Prop :=
  ∀ (k : Nat) (s t : State), Host.Core.run Sys2Proof.core k s = .next t →
    t.mem = s.mem ∧ t.gpr = s.gpr ∧ t.ctl = s.ctl ∧ t.mxcsr = s.mxcsr ∧ t.mode = s.mode ∧ t.feat = s.feat
      ∧ t.vaBits = s.vaBits ∧ t.codeBase = s.codeBase ∧ t.code = s.code

/-- R154, R155, R140: every step moves `ip` forward by at least three bytes inside the program text, so a run takes at most a
third of the text's length in steps and never leaves it. A text that ends exactly at the top of the address space is refused
by the model's choice, assumption log 15 (DEDUCED), so it has no such run. -/
def Obligations.RunsEndWithinTheText : Prop :=
  ∀ (k : Nat) (s t : State), Host.Core.run Sys2Proof.core k s = .next t → 0 < k →
    s.ip.toNat + 3 * k ≤ t.ip.toNat ∧ t.ip.toNat ≤ s.codeEnd ∧ 3 * k ≤ s.code.length

/-- R4, R12, R15, R20: the invariant of the state is kept by every step, from every state that has it. -/
def Obligations.StepKeepsInvariant : Prop :=
  ∀ s t : State, s.Inv → step s = .next t → t.Inv

/-- The state after power-up has the invariant. It rests on the model's choice of reset flags (assumption log 6). -/
def Obligations.ResetHasInvariant : Prop :=
  State.reset.Inv

/-- R22, R17: the power-up values that the spec gives. R22 makes RAX 0 where the self-test passed; that it passed is the model's
choice (assumption log 6). -/
def Obligations.ResetValues : Prop :=
  (∀ i : BitVec 3, State.reset.readMm i = 0) ∧ (∀ i : BitVec 5, State.reset.readVec i = 0)
    ∧ (∀ i : BitVec 4, i ≠ 2 → State.reset.readGpr i = 0)
    ∧ State.reset.ip = 0xFFF0 ∧ State.reset.mode = .realAddress
    ∧ State.reset.ctl.cr0 = 0x60000010 ∧ State.reset.ctl.cr4 = 0 ∧ State.reset.ctl.xcr0 = 1
    ∧ State.reset.ctl.eflags = 2 ∧ State.reset.ctl.cpl = 0 ∧ State.reset.ctl.x87Pending = false
    ∧ State.reset.mxcsr = 0x1F80 ∧ State.reset.x87.tag = 0x5555

/-- R22 (consequence), R151: with the control bits of power-up every instruction of the forms 2 to 7 raises #UD, in the modes
that have a meaning; after the boot steps of R151 (the model's operation for them is assumption log 10) and with every CPUID
flag set, no form is stopped by #UD, #NM or #MF for a state reason. -/
def Obligations.PowerUpAndBootedControlBits : Prop :=
  (∀ (i : Instr) (s : State), Admitted i s → s.ctl = State.reset.ctl → i.form ≠ .mm →
      exec i s = .fault (.ud s.ip))
    ∧ ∀ (i : Instr) (s : State), s.feat = allFeatures → Admitted i s.boot → Enabled i s.boot

/-- R131 step 1, R155, R15: where `ip` is outside the program text the step is refused as FetchOutsideCode. Where the bytes that
can be fetched at `ip` are only the first `k` of an instruction's, the step is refused: as FetchOutsideCode where the text ends
there, as NonCanonicalFetch where it goes on at a non-canonical address (`Mode64`), as it is where `ip` itself is in the text
and not canonical. What a step executes in `Mode64` lies at canonical addresses. R15 says that the processor faults on a
fetch at a non-canonical address; refusing it under this name is the model's choice, assumption log 29 (DESIGN CHOICE). -/
def Obligations.TextMustHoldWholeInstruction : Prop :=
  (∀ s : State, s.mode.supported = true → (s.ip.toNat < s.codeBase.toNat ∨ s.codeEnd ≤ s.ip.toNat) →
    step s = .refused .fetchOutsideCode)
  ∧ (∀ (s : State) (bs : List Byte) (i : Instr) (k : Nat), decode s.mode bs = .instr i → k < i.len →
    s.fetchBytes = bs.take k →
    (s.textBytes = bs.take k → step s = .refused .fetchOutsideCode)
      ∧ (s.textBytes ≠ bs.take k → step s = .refused .nonCanonicalFetch))
  ∧ (∀ s : State, s.mode = .mode64 → s.textBytes ≠ [] → inRange s s.ip 1 = false → step s = .refused .nonCanonicalFetch)
  ∧ ∀ (s : State) (i : Instr), s.mode = .mode64 → decode s.mode s.fetchBytes = .instr i → inRange s s.ip i.len = true
end

