-- ==== Sys2Proof/Laws/Decode.lean ====
section
/-! SUPPORT. What each part of the decoder reads from the bytes that the encoder writes, and that it reads no others. -/

namespace Sys2Proof

/-! ### Fields of a ModRM or SIB byte -/

theorem byte233_mod (hi : BitVec 2) (mid lo : BitVec 3) : (byte233 hi mid lo).extractLsb' 6 2 = hi := by
  revert hi mid lo
  decide +kernel

theorem byte233_reg (hi : BitVec 2) (mid lo : BitVec 3) : (byte233 hi mid lo).extractLsb' 3 3 = mid := by
  revert hi mid lo
  decide +kernel

theorem byte233_rm (hi : BitVec 2) (mid lo : BitVec 3) : (byte233 hi mid lo).extractLsb' 0 3 = lo := by
  revert hi mid lo
  decide +kernel

/-! ### Displacements, SIB, ModRM -/

theorem parseDisp32_encode (d : BitVec 32) (rest : List Byte) :
    parseDisp32 (encodeDisp32 d ++ rest) = .ok d := by
  simp only [encodeDisp32, List.cons_append, List.nil_append, parseDisp32]
  congr 1
  apply BitVec.eq_of_getLsbD_eq
  intro i hi
  simp only [BitVec.getLsbD_append, BitVec.getLsbD_extractLsb']
  by_cases h1 : i < 8
  · simp [h1]
  · by_cases h2 : i - 8 < 8
    · have e : 8 + (i - 8) = i := by omega
      simp [h1, h2, e]
    · by_cases h3 : i - 8 - 8 < 8
      · have e : 16 + (i - 8 - 8) = i := by omega
        simp [h1, h2, h3, e]
      · have e : 24 + (i - 8 - 8 - 8) = i := by omega
        have h4 : i - 8 - 8 - 8 < 8 := by omega
        simp [h1, h2, h3, h4, e]

theorem parseDisp_encode (d : Disp) (rest : List Byte) : parseDisp d.mod (d.encode ++ rest) = .ok d := by
  cases d with
  | none => simp [parseDisp, Disp.mod]
  | disp8 d => simp [parseDisp, Disp.mod, Disp.encode]
  | disp32 d =>
    simp only [parseDisp, Disp.mod, Disp.encode, parseDisp32_encode]
    rfl

theorem disp_mod_ne_three (d : Disp) : d.mod ≠ 3#2 := by
  cases d <;> simp [Disp.mod]

theorem disp_mod_eq_zero {d : Disp} (h : d.mod = 0#2) : d = .none := by
  cases d <;> simp [Disp.mod] at h ⊢

/-- The decoder reads back every well-formed ModRM, SIB and displacement. -/
theorem parseModRM_encode (a16 : Bool) (m : ModRM) (rest : List Byte) (hm : m.rm.wf = true)
    (ha : a16 = true → m.rm.isMem = false) : parseModRM a16 (m.encode ++ rest) = .ok m := by
  obtain ⟨reg, rm⟩ := m
  cases rm with
  | reg rm => simp [ModRM.encode, parseModRM, byte233_mod, byte233_reg, byte233_rm]
  | mem a =>
    have ha' : a16 = false := by
      cases a16 with
      | false => rfl
      | true => simp [RmOperand.isMem] at ha
    subst ha'
    cases a with
    | base rm d =>
      have h4 : rm ≠ 4#3 := by
        cases d <;> simp_all [RmOperand.wf, MemForm.wf]
      have h5 : ¬(d.mod = 0#2 ∧ rm = 5#3) := by
        rintro ⟨h, rfl⟩
        have := disp_mod_eq_zero h
        subst this
        simp [RmOperand.wf, MemForm.wf] at hm
      simp [ModRM.encode, parseModRM, parseMem, byte233_mod, byte233_reg, byte233_rm, disp_mod_ne_three, h4, h5,
        parseDisp_encode, Except.map]
    | dispOnly d =>
      simp [ModRM.encode, parseModRM, parseMem, byte233_mod, byte233_reg, byte233_rm, parseDisp32_encode, Except.map]
    | sib scale index bse d =>
      have h5 : ¬(d.mod = 0#2 ∧ bse = 5#3) := by
        rintro ⟨h, rfl⟩
        have := disp_mod_eq_zero h
        subst this
        simp [RmOperand.wf, MemForm.wf] at hm
      simp [ModRM.encode, parseModRM, parseMem, parseSib, byte233_mod, byte233_reg, byte233_rm, disp_mod_ne_three, h5,
        parseDisp_encode, Except.map]
    | sibNoBase scale index d =>
      simp [ModRM.encode, parseModRM, parseMem, parseSib, byte233_mod, byte233_reg, byte233_rm, parseDisp32_encode,
        Except.map]

/-! ### Legacy prefixes -/

/-- The set of prefixes that an instruction carries, before its `66`. -/
def Prefixes.toSet (p : Prefixes) : PrefixSet :=
  { PrefixSet.empty with addrSize := p.addrSize, seg := p.seg }

/-- The decoder reads back the legacy prefixes of an instruction. -/
theorem decodeFrom_prefixes (mode : Mode) (p : Prefixes) (rest : List Byte) :
    decodeFrom mode .empty (p.encode ++ rest) = decodeFrom mode p.toSet rest := by
  obtain ⟨seg, a⟩ := p
  rcases seg with _ | s
  · cases a <;>
      simp [Prefixes.encode, Prefixes.toSet, decodeFrom, prefixByte, PrefixSet.add, PrefixSet.empty]
  · cases s <;> cases a <;>
      simp [Prefixes.encode, Prefixes.toSet, decodeFrom, prefixByte, PrefixSet.add, PrefixSet.empty,
        SegOverride.byte]

/-! ### Accepted sequences of prefix bytes (R51) -/

theorem acceptedBytes_cases {b : Byte} (h : b ∈ acceptedBytes) :
    b = 0x66 ∨ b = 0xF2 ∨ b = 0xF3 ∨ b = 0xF0 ∨ b = 0x67 ∨ b = 0x2E ∨ b = 0x36 ∨ b = 0x3E ∨ b = 0x26 := by
  simpa [acceptedBytes, segBytes] using h

/-- Whether a set of prefixes holds what a byte would add. -/
def PrefixSet.holds (ps : PrefixSet) (b : Byte) : Bool :=
  match prefixByte b with
  | some .opSize => ps.opSize
  | some .repne => ps.repne
  | some .rep => ps.rep
  | some .lock => ps.lock
  | some .addrSize => ps.addrSize
  | some (.seg _) => ps.seg.isSome
  | some .fsgs => false
  | none => false

/-- The set `ps'` is `ps` with the prefixes of the bytes. -/
structure PrefixSet.Extends (ps' ps : PrefixSet) (pre : List Byte) : Prop where
  opSize : ps'.opSize = true ↔ ps.opSize = true ∨ 0x66 ∈ pre
  repne : ps'.repne = true ↔ ps.repne = true ∨ 0xF2 ∈ pre
  rep : ps'.rep = true ↔ ps.rep = true ∨ 0xF3 ∈ pre
  lock : ps'.lock = true ↔ ps.lock = true ∨ 0xF0 ∈ pre
  addrSize : ps'.addrSize = true ↔ ps.addrSize = true ∨ 0x67 ∈ pre
  seg : ps'.seg.isSome = true ↔ ps.seg.isSome = true ∨ ∃ b ∈ pre, b ∈ segBytes

theorem AcceptedPrefixes.tail {b : Byte} {pre : List Byte} (h : AcceptedPrefixes (b :: pre)) : AcceptedPrefixes pre :=
  ⟨fun c hc => h.1 c (by simp [hc]), (List.nodup_cons.1 h.2.1).2,
    le_trans (by rw [List.filter_cons]; split <;> simp) h.2.2⟩

/-- After a segment override no other one stands. -/
theorem AcceptedPrefixes.one_seg {b : Byte} {pre : List Byte} (h : AcceptedPrefixes (b :: pre)) (hb : b ∈ segBytes) :
    ∀ c ∈ pre, c ∉ segBytes := by
  intro c hc hcs
  have h3 := h.2.2
  simp only [List.filter_cons, hb, decide_true, if_true, List.length_cons] at h3
  have hm : c ∈ pre.filter fun b => decide (b ∈ segBytes) := by simp [hc, hcs]
  have := List.length_pos_of_mem hm
  omega

/-- The decoder consumes an accepted sequence that adds to the set nothing which the set holds. -/
theorem decodeFrom_accepted_of (mode : Mode) (pre : List Byte) : ∀ ps : PrefixSet, AcceptedPrefixes pre →
    (∀ b ∈ pre, ps.holds b = false) →
    ∃ ps' : PrefixSet, (∀ rest, decodeFrom mode ps (pre ++ rest) = decodeFrom mode ps' rest) ∧ ps'.Extends ps pre := by
  induction pre with
  | nil => exact fun ps _ _ => ⟨ps, fun _ => rfl, by constructor <;> simp⟩
  | cons b pre ih =>
    intro ps h hd
    have hps := hd b (by simp)
    have hcn : ∀ c ∈ pre, c ≠ b := fun c hc z => (List.nodup_cons.1 h.2.1).1 (z ▸ hc)
    obtain ⟨k, hk, ps1, hadd, hd1, e⟩ : ∃ k, prefixByte b = some k ∧ ∃ ps1, ps.add k = .ok ps1
        ∧ (∀ c ∈ pre, ps1.holds c = false) ∧ ps1.Extends ps [b] := by
      rcases acceptedBytes_cases (h.1 b (by simp)) with rfl | rfl | rfl | rfl | rfl | rfl | rfl | rfl | rfl <;>
        refine ⟨_, rfl, ?_⟩ <;> simp [PrefixSet.holds, prefixByte] at hps <;> simp only [PrefixSet.add, hps] <;>
        refine ⟨_, rfl, ?_, by constructor <;> simp [segBytes]⟩
      all_goals
        intro c hc
        have h0 := hd c (by simp [hc])
        have hne := hcn c hc
        have hsg := fun z => h.one_seg z c hc
        rcases acceptedBytes_cases (h.tail.1 c hc) with rfl | rfl | rfl | rfl | rfl | rfl | rfl | rfl | rfl <;>
          first
          | exact h0
          | exact absurd rfl hne
          | exact absurd (by decide) (hsg (by decide))
    obtain ⟨ps', hr, q⟩ := ih ps1 h.tail hd1
    refine ⟨ps', fun rest => ?_, ?_⟩
    · rw [List.cons_append, decodeFrom]
      simp only [hk, hadd]
      exact hr rest
    · constructor
      · rw [q.opSize, e.opSize]; simp [or_assoc]
      · rw [q.repne, e.repne]; simp [or_assoc]
      · rw [q.rep, e.rep]; simp [or_assoc]
      · rw [q.lock, e.lock]; simp [or_assoc]
      · rw [q.addrSize, e.addrSize]; simp [or_assoc]
      · rw [q.seg, e.seg]; simp [or_assoc, or_and_right, exists_or]

/-- The decoder consumes an accepted sequence of prefix bytes, and its set says which bytes stood there. -/
theorem decodeFrom_accepted (mode : Mode) (pre : List Byte) (h : AcceptedPrefixes pre) :
    ∃ ps : PrefixSet, (∀ rest, decodeFrom mode .empty (pre ++ rest) = decodeFrom mode ps rest)
      ∧ ps.Extends .empty pre :=
  decodeFrom_accepted_of mode pre .empty h fun b hb => by
    rcases acceptedBytes_cases (h.1 b hb) with rfl | rfl | rfl | rfl | rfl | rfl | rfl | rfl | rfl <;> rfl

/-! ### Lengths -/

theorem length_encodeDisp32 (d : BitVec 32) : (encodeDisp32 d).length = 4 := rfl

theorem length_disp_encode (d : Disp) : d.encode.length = d.len := by
  cases d <;> rfl

theorem length_modrm_encode (m : ModRM) : m.encode.length = m.len := by
  obtain ⟨reg, rm⟩ := m
  cases rm with
  | reg rm => rfl
  | mem a =>
    cases a <;> simp [ModRM.encode, ModRM.len, MemForm.len, length_disp_encode, length_encodeDisp32] <;> omega

theorem length_prefixes_encode (p : Prefixes) : p.encode.length = p.len := by
  obtain ⟨seg, a⟩ := p
  cases seg <;> cases a <;> rfl

/-- ModRM, SIB and displacement take 1 to 6 bytes (R75). -/
theorem modrm_len_bounds (m : ModRM) : 1 ≤ m.len ∧ m.len ≤ 6 := by
  obtain ⟨reg, rm⟩ := m
  cases rm with
  | reg rm => simp [ModRM.len]
  | mem a =>
    cases a with
    | base rm d => cases d <;> simp [ModRM.len, MemForm.len, Disp.len]
    | dispOnly d => simp [ModRM.len, MemForm.len]
    | sib scale index bse d => cases d <;> simp [ModRM.len, MemForm.len, Disp.len]
    | sibNoBase scale index d => simp [ModRM.len, MemForm.len]

/-- At most two legacy prefixes are kept. -/
theorem prefixes_len_le (p : Prefixes) : p.len ≤ 2 := by
  obtain ⟨seg, a⟩ := p
  cases seg <;> cases a <;> simp [Prefixes.len]

/-! ### The bytes that carry prefix fields -/

theorem rex_encode (x : Rex) :
    prefixByte x.encode = none ∧ isRexByte x.encode = true ∧ rexOf x.encode = x := by
  obtain ⟨w, r, x, b⟩ := x
  cases w <;> cases r <;> cases x <;> cases b <;> decide

/-- The byte after `C5`. -/
theorem vex2_encode (v : Vex2) (l : Bool) :
    ∃ p, v.encode l = [0xC5, p] ∧ (!p.getLsbD 7) = v.r ∧ ~~~(p.extractLsb' 3 4) = v.vvvv ∧ p.extractLsb' 0 2 = 1
      ∧ p.getLsbD 2 = l ∧ (p.extractLsb' 6 2 = 3 ↔ v.wf32 = true) := by
  obtain ⟨r, vv⟩ := v
  refine ⟨_, rfl, ?_⟩
  revert vv
  cases r <;> cases l <;> decide

/-- The two bytes after `C4`. -/
theorem vex3_encode (v : Vex3) (l : Bool) :
    ∃ p q, v.encode l = [0xC4, p, q]
      ∧ v = Vex3.mk (!p.getLsbD 7) (!p.getLsbD 6) (!p.getLsbD 5) (q.getLsbD 7) (~~~(q.extractLsb' 3 4))
      ∧ p.extractLsb' 0 5 = 1 ∧ q.extractLsb' 0 2 = 1 ∧ q.getLsbD 2 = l
      ∧ (p.extractLsb' 6 2 = 3 ↔ v.r = false ∧ v.x = false) := by
  obtain ⟨r, x, b, w, vv⟩ := v
  refine ⟨_, _, rfl, ?_⟩
  revert vv
  cases r <;> cases x <;> cases b <;> cases w <;> cases l <;> decide

/-- The three bytes after `62`. -/
theorem evex_encode (e : Evex) (ll : BitVec 2) :
    ∃ p0 p1 p2, e.encode ll = [0x62, p0, p1, p2]
      ∧ e = Evex.mk (!p0.getLsbD 7) (!p0.getLsbD 6) (!p0.getLsbD 5) (!p0.getLsbD 4) (p1.getLsbD 7)
          (~~~(p1.extractLsb' 3 4)) (!p2.getLsbD 3)
      ∧ p0.getLsbD 3 = false ∧ p1.getLsbD 2 = true ∧ p0.extractLsb' 0 3 = 1 ∧ p1.extractLsb' 0 2 = 1
      ∧ p2.extractLsb' 0 3 = 0 ∧ p2.getLsbD 7 = false ∧ p2.getLsbD 4 = false ∧ p2.extractLsb' 5 2 = ll
      ∧ (p0.extractLsb' 6 2 = 3 ↔ e.r = false ∧ e.x = false) := by
  obtain ⟨r, x, b, rHi, w, vv, vHi⟩ := e
  refine ⟨_, _, _, rfl, ?_⟩
  revert vv ll
  cases r <;> cases x <;> cases b <;> cases rHi <;> cases w <;> cases vHi <;> decide

/-! ### Steps of the decoder -/

/-- Where no prefix byte and no REX byte stands, the opcode is read. -/
theorem decodeFrom_opcode (mode : Mode) (ps : PrefixSet) (b : Byte) (bs : List Byte) (h : prefixByte b = none)
    (hr : isRexByte b = false) : decodeFrom mode ps (b :: bs) = decodeOpcode mode ps none b bs := by
  rw [decodeFrom]
  simp [h, hr]

/-- An encoded ModRM of an instruction that is not too long completes it. -/
theorem withModRM_encode (before : Nat) (mk : ModRM → Instr) (a16 : Bool) (m : ModRM) (rest : List Byte)
    (hm : m.rm.wf = true) (ha : a16 = true → m.rm.isMem = false) (hl : before + m.len ≤ 15) :
    withModRM before (some mk) a16 (m.encode ++ rest) = .instr (mk m) := by
  have : ¬15 < before + m.len := by omega
  simp [withModRM, parseModRM_encode a16 m rest hm ha, this]

/-- Where the bytes before an encoded ModRM make an illegal instruction that is not too long, it is `#UD`. -/
theorem withModRM_encode_illegal (before : Nat) (a16 : Bool) (m : ModRM) (rest : List Byte) (hm : m.rm.wf = true)
    (ha : a16 = true → m.rm.isMem = false) (hl : before + m.len ≤ 15) :
    withModRM before none a16 (m.encode ++ rest) = .undefinedOpcode := by
  have : ¬15 < before + m.len := by omega
  simp [withModRM, parseModRM_encode a16 m rest hm ha, this]

/-- 16-bit addressing refuses every memory operand at its ModRM byte. -/
theorem withModRM_encode_addr16 (before : Nat) (mk : Option (ModRM → Instr)) (m : ModRM) (rest : List Byte)
    (hm : m.rm.isMem = true) : withModRM before mk true (m.encode ++ rest) = .rejected .addrSize16 := by
  obtain ⟨reg, rm⟩ := m
  cases rm with
  | reg rm => simp [RmOperand.isMem] at hm
  | mem a => cases a <;> simp [withModRM, ModRM.encode, parseModRM, byte233_mod, disp_mod_ne_three]

theorem toSet_count (p : Prefixes) : p.toSet.count = p.len := by
  simp [Prefixes.toSet, PrefixSet.count, PrefixSet.empty, Prefixes.len]
  omega

theorem toSet_kept (p : Prefixes) : p.toSet.kept = p := rfl

theorem toSet_illegalBeforeVex (p : Prefixes) : p.toSet.illegalBeforeVex = false := rfl

/-- What well-formedness says of 16-bit addressing. -/
theorem isMem_of_wf (mode : Mode) (i : Instr) (h : i.wf mode = true) :
    addr16 mode i.prefixes.toSet = true → i.modrm.rm.isMem = false := by
  intro ha
  simp [addr16, Prefixes.toSet] at ha
  obtain ⟨rfl, ha⟩ := ha
  simp [Instr.wf, Prefixes.wf32, ha] at h
  exact h.1.2

/-! ### What accepted bytes are: the encoder's own (the other direction) -/

/-- An encoding is its legacy prefix bytes, then the rest. -/
theorem encode_eq (i : Instr) : encode i = i.prefixBytes ++ i.body := by
  cases i <;> simp [encode, Instr.prefixBytes, Instr.prefixes, Instr.form, Instr.body]

/-- A byte is put together again from its three fields. -/
theorem byte233_eta (b : Byte) : byte233 (b.extractLsb' 6 2) (b.extractLsb' 3 3) (b.extractLsb' 0 3) = b := by
  revert b; decide +kernel

/-- A displacement is read from its own four bytes. -/
theorem parseDisp32_ok {bs : List Byte} {d : BitVec 32} (h : parseDisp32 bs = .ok d) :
    ∃ rest, bs = encodeDisp32 d ++ rest := by
  unfold parseDisp32 at h
  split at h
  · next b0 b1 b2 b3 r =>
    obtain rfl := Except.ok.inj h
    refine ⟨r, ?_⟩
    simp only [encodeDisp32, List.cons_append, List.nil_append, List.cons.injEq, and_true]
    refine ⟨?_, ?_, ?_, ?_⟩ <;> apply BitVec.eq_of_getLsbD_eq <;> intro i hi <;>
      simp only [BitVec.getLsbD_extractLsb', BitVec.getLsbD_append]
    · simp [hi]
    · have : ¬ 8 + i < 8 := by omega
      simp [hi, this]
    · have h1 : ¬ 16 + i < 8 := by omega
      have h2 : ¬ 16 + i - 8 < 8 := by omega
      have h3 : 16 + i - 8 - 8 = i := by omega
      simp [hi, h1, h2, h3]
    · have h1 : ¬ 24 + i < 8 := by omega
      have h2 : ¬ 24 + i - 8 < 8 := by omega
      have h3 : ¬ 24 + i - 8 - 8 < 8 := by omega
      have h4 : 24 + i - 8 - 8 - 8 = i := by omega
      simp [hi, h1, h2, h3, h4]
  · simp at h

/-- A mapped answer is the image of an answer. -/
theorem map_eq_ok {α β : Type} {r : Except Reject α} {f : α → β} {b : β} (h : r.map f = .ok b) :
    ∃ a, r = .ok a ∧ f a = b := by
  cases r with
  | error e => simp [Except.map] at h
  | ok a => exact ⟨a, rfl, Except.ok.inj h⟩

/-- A displacement is read from its own bytes, and has the `mod` it was read for. -/
theorem parseDisp_ok {mod : BitVec 2} {bs : List Byte} {d : Disp} (hm : mod ≠ 3) (h : parseDisp mod bs = .ok d) :
    d.mod = mod ∧ ∃ rest, bs = d.encode ++ rest := by
  unfold parseDisp at h
  split at h
  · next h0 => obtain rfl := Except.ok.inj h; exact ⟨h0.symm, bs, rfl⟩
  · next h0 =>
    split at h
    · next h1 =>
      split at h
      · simp at h
      · next b r => obtain rfl := Except.ok.inj h; exact ⟨h1.symm, r, rfl⟩
    · next h1 =>
      obtain ⟨v, hv, rfl⟩ := map_eq_ok h
      refine ⟨?_, parseDisp32_ok hv⟩
      clear hv h
      revert mod
      show ∀ mod : BitVec 2, mod ≠ 3 → ¬mod = 0 → ¬mod = 1 → (2#2) = mod
      decide

/-- ModRM, SIB and displacement are read from their own bytes, and are well formed. -/
theorem parseModRM_ok {a16 : Bool} {bs : List Byte} {m : ModRM} (h : parseModRM a16 bs = .ok m) :
    m.rm.wf = true ∧ (a16 = true → m.rm.isMem = false) ∧ ∃ rest, bs = m.encode ++ rest := by
  unfold parseModRM at h
  split at h
  · simp at h
  · next b bs =>
    simp only at h
    have eta := byte233_eta b
    split at h
    · next h3 =>
      obtain rfl := Except.ok.inj h
      rw [h3] at eta
      exact ⟨rfl, fun _ => rfl, bs, by rw [ModRM.encode]; exact congrArg (· :: bs) eta.symm⟩
    · next h3 =>
      split at h
      · simp at h
      · next ha =>
        obtain ⟨a, hp, rfl⟩ := map_eq_ok h
        suffices H : a.wf = true ∧ ∃ rest, b :: bs = (ModRM.encode ⟨b.extractLsb' 3 3, .mem a⟩) ++ rest from
          ⟨H.1, fun x => absurd x ha, H.2⟩
        unfold parseMem at hp
        split at hp
        · next h4 =>
          rw [h4] at eta
          unfold parseSib at hp
          split at hp
          · simp at hp
          · next c cs =>
            simp only at hp
            have etc := byte233_eta c
            split at hp
            · next hc =>
              obtain ⟨v, hv, rfl⟩ := map_eq_ok hp
              obtain ⟨r, rfl⟩ := parseDisp32_ok hv
              rw [hc.1] at eta
              rw [hc.2] at etc
              exact ⟨rfl, r, by simp only [ModRM.encode, List.cons_append, List.cons.injEq, and_true]; exact ⟨eta.symm, etc.symm⟩⟩
            · next hc =>
              obtain ⟨v, hv, rfl⟩ := map_eq_ok hp
              obtain ⟨hd, r, rfl⟩ := parseDisp_ok h3 hv
              refine ⟨?_, r, by simp only [ModRM.encode, hd, List.cons_append, List.cons.injEq, and_true]; exact ⟨eta.symm, etc.symm⟩⟩
              cases v <;> simp only [MemForm.wf, bne_iff_ne, ne_eq]
              exact fun q => hc ⟨hd.symm, q⟩
        · next h4 =>
          split at hp
          · next hc =>
            obtain ⟨v, hv, rfl⟩ := map_eq_ok hp
            obtain ⟨r, rfl⟩ := parseDisp32_ok hv
            rw [hc.1, hc.2] at eta
            exact ⟨rfl, r, by simp only [ModRM.encode, List.cons_append, List.cons.injEq, and_true]; exact eta.symm⟩
          · next hc =>
            obtain ⟨v, hv, rfl⟩ := map_eq_ok hp
            obtain ⟨hd, r, rfl⟩ := parseDisp_ok h3 hv
            refine ⟨?_, r, by simp only [ModRM.encode, hd, List.cons_append, List.cons.injEq, and_true]; exact eta.symm⟩
            cases v <;> simp only [MemForm.wf, bne_iff_ne, ne_eq, Bool.and_eq_true]
            · exact ⟨h4, fun q => hc ⟨hd.symm, q⟩⟩
            · exact h4
            · exact h4

/-- An instruction read at ModRM. -/
theorem withModRM_eq_instr {before : Nat} {mk : Option (ModRM → Instr)} {a16 : Bool} {bs : List Byte} {i : Instr}
    (h : withModRM before mk a16 bs = .instr i) :
    ∃ f m rest, mk = some f ∧ i = f m ∧ m.rm.wf = true ∧ (a16 = true → m.rm.isMem = false)
      ∧ bs = m.encode ++ rest ∧ before + m.len ≤ 15 := by
  unfold withModRM at h
  split at h
  · simp at h
  · next m hm =>
    obtain ⟨h1, h2, r, h3⟩ := parseModRM_ok hm
    split at h
    · simp at h
    · next hl =>
      split at h
      · simp at h
      · next f => exact ⟨f, m, r, rfl, (Decoded.instr.inj h).symm, h1, h2, h3, by omega⟩

/-- An instruction read at the opcode byte `F6`. -/
theorem decodeF6_eq_instr {before : Nat} {mk : Option (ModRM → Instr)} {a16 : Bool} {bs : List Byte} {i : Instr}
    (h : decodeF6 before mk a16 bs = .instr i) :
    ∃ f m rest, mk = some f ∧ i = f m ∧ m.rm.wf = true ∧ (a16 = true → m.rm.isMem = false)
      ∧ bs = 0xF6 :: (m.encode ++ rest) ∧ before + m.len ≤ 15 := by
  unfold decodeF6 at h
  split at h
  · simp at h
  · next op bs =>
    split at h
    · simp at h
    · next h0 =>
      obtain ⟨f, m, r, a, b, c, d, e, g⟩ := withModRM_eq_instr h
      exact ⟨f, m, r, a, b, c, d, by rw [e, Classical.not_not.1 h0], g⟩

/-- Nothing is read after an illegal prefix. -/
theorem decodeIllegal_ne_instr (before : Nat) (ours a16 : Bool) (bs : List Byte) (i : Instr) :
    decodeIllegal before ours a16 bs ≠ .instr i := by
  intro h
  unfold decodeIllegal at h
  split at h
  · simp at h
  · split at h
    · obtain ⟨f, m, r, a, _⟩ := withModRM_eq_instr h; simp at a
    · simp at h

/-- The bytes of a VEX, EVEX or REX prefix of this instruction are those of its fields. -/
theorem vex2_eta (p : Byte) (h : p.extractLsb' 0 2 = 1) :
    Vex2.encode ⟨!p.getLsbD 7, ~~~(p.extractLsb' 3 4)⟩ (p.getLsbD 2) = [0xC5, p] := by
  revert p; unfold Vex2.encode; decide +kernel

theorem vex3_eta (p q : Byte) (h : p.extractLsb' 0 5 = 1) (h' : q.extractLsb' 0 2 = 1) :
    Vex3.encode ⟨!p.getLsbD 7, !p.getLsbD 6, !p.getLsbD 5, q.getLsbD 7, ~~~(q.extractLsb' 3 4)⟩ (q.getLsbD 2)
      = [0xC4, p, q] := by
  unfold Vex3.encode
  simp only [List.cons.injEq, true_and, and_true]
  constructor
  · clear h'; revert p; decide +kernel
  · clear h; revert q; decide +kernel

theorem evex_eta (p q r : Byte) (h : p.extractLsb' 0 3 = 1) (h3 : p.getLsbD 3 = false) (h' : q.extractLsb' 0 2 = 1)
    (h2 : q.getLsbD 2 = true) (hr : r.extractLsb' 0 3 = 0) (h7 : r.getLsbD 7 = false) (h4 : r.getLsbD 4 = false) :
    Evex.encode ⟨!p.getLsbD 7, !p.getLsbD 6, !p.getLsbD 5, !p.getLsbD 4, q.getLsbD 7, ~~~(q.extractLsb' 3 4), !r.getLsbD 3⟩
      (r.extractLsb' 5 2) = [0x62, p, q, r] := by
  unfold Evex.encode
  simp only [List.cons.injEq, true_and, and_true]
  refine ⟨?_, ?_, ?_⟩
  · clear h' h2 hr h7 h4; revert p; decide +kernel
  · clear h h3 hr h7 h4; revert q; decide +kernel
  · clear h' h2 h h3; revert r; decide +kernel

theorem rex_eta (b : Byte) (h : isRexByte b = true) : (rexOf b).encode = b := by
  revert b; unfold isRexByte rexOf Rex.encode; decide +kernel

/-- The bytes of a set of prefixes. -/
def PrefixSet.bytes (ps : PrefixSet) : List Byte :=
  ps.kept.encode ++ ((if ps.opSize then [0x66] else []) ++ ((if ps.repne then [0xF2] else [])
    ++ ((if ps.rep then [0xF3] else []) ++ (if ps.lock then [0xF0] else []))))

/-- One more prefix is one more byte of the set, in some order. -/
theorem PrefixSet.add_perm {ps ps' : PrefixSet} {b : Byte} {k : PrefixByte} (hb : prefixByte b = some k)
    (h : ps.add k = .ok ps') : (b :: ps.bytes).Perm ps'.bytes := by
  have hk : (k = .opSize ∧ b = 0x66) ∨ (k = .repne ∧ b = 0xF2) ∨ (k = .rep ∧ b = 0xF3) ∨ (k = .lock ∧ b = 0xF0)
      ∨ (k = .addrSize ∧ b = 0x67) ∨ (∃ s : SegOverride, k = .seg s ∧ b = s.byte) ∨ k = .fsgs := by
    clear h
    unfold prefixByte at hb
    repeat' split at hb
    all_goals first | (simp at hb; done) | skip
    all_goals obtain rfl := Option.some.inj hb
    all_goals first
      | (subst_vars; simp; done)
      | (right; right; right; right; right; left; exact ⟨_, rfl, by assumption⟩)
  obtain ⟨o, n, r, l, a, sg⟩ := ps
  rcases hk with ⟨rfl, rfl⟩ | ⟨rfl, rfl⟩ | ⟨rfl, rfl⟩ | ⟨rfl, rfl⟩ | ⟨rfl, rfl⟩ | ⟨s, rfl, rfl⟩ | rfl <;>
    simp only [PrefixSet.add] at h <;> (try split at h) <;> simp only [Except.ok.injEq, reduceCtorEq] at h <;> subst h <;>
    rename_i hn <;> simp at hn <;> subst hn <;> (try rcases sg with _ | sg) <;> (try cases a) <;>
    rw [List.perm_iff_count] <;> intro x <;>
    simp only [PrefixSet.bytes, PrefixSet.kept, Prefixes.encode, List.count_append, List.count_cons, List.count_nil,
      if_true, Bool.false_eq_true, if_false] <;> omega

end Sys2Proof
end

