-- ==== Sys2Proof/Laws/Memory.lean ====
section
/-! SUPPORT. Memory: the canonical form is kept by every memory operation, and what a read gives after a write. -/

namespace Sys2Proof.Machine

@[simp] theorem Memory.read_nil (a : Nat) : Memory.read [] a = Memory.unlisted := rfl

theorem Memory.read_cons (c : Host.Cell) (m : List Host.Cell) (a : Nat) :
    Memory.read (c :: m) a = if c.1 = a then some c.2 else Memory.read m a := rfl

/-- Empty memory is canonical. -/
theorem Memory.wf_nil : Memory.wf [] := by simp [Memory.wf]

/-- The addresses listed after a write are the written one and those listed before. -/
theorem Memory.mem_write {m : List Host.Cell} {a : Nat} {v : Byte} {c : Host.Cell} (h : c ∈ Memory.write m a v) :
    c = (a, v) ∨ c ∈ m := by
  induction m with
  | nil => simpa [Memory.write] using h
  | cons d m ih =>
    unfold Memory.write at h
    split at h
    · simpa using h
    · split at h
      · rcases List.mem_cons.1 h with h | h <;> simp [h]
      · rcases List.mem_cons.1 h with h | h
        · simp [h]
        · rcases ih h with h | h <;> simp [h]

/-- A write keeps the canonical form. -/
theorem Memory.wf_write {m : List Host.Cell} {a : Nat} (v : Byte) (hm : Memory.wf m) (ha : a < 2 ^ 64) :
    Memory.wf (Memory.write m a v) := by
  refine ⟨?_, fun c hc => ?_⟩
  · induction m with
    | nil => simp [Memory.write]
    | cons d m ih =>
      obtain ⟨hd, hp⟩ := List.pairwise_cons.1 hm.1
      have hm' : Memory.wf m := ⟨hp, fun c hc => hm.2 c (List.mem_cons_of_mem _ hc)⟩
      unfold Memory.write
      split
      · next hlt =>
        refine List.pairwise_cons.2 ⟨fun c hc => ?_, hm.1⟩
        rcases List.mem_cons.1 hc with rfl | hc
        · exact hlt
        · exact Nat.lt_trans hlt (hd c hc)
      · split
        · next heq => exact List.pairwise_cons.2 ⟨fun c hc => heq ▸ hd c hc, hp⟩
        · next h1 h2 =>
          refine List.pairwise_cons.2 ⟨fun c hc => ?_, ih hm'⟩
          rcases Memory.mem_write hc with rfl | hc
          · show d.1 < a
            omega
          · exact hd c hc
  · rcases Memory.mem_write hc with rfl | hc
    · exact ha
    · exact hm.2 c hc

/-- A read of the written address gives the written byte. -/
theorem Memory.read_write_same (m : List Host.Cell) (a : Nat) (v : Byte) :
    Memory.read (Memory.write m a v) a = some v := by
  induction m with
  | nil => simp [Memory.write, Memory.read]
  | cons d m ih =>
    unfold Memory.write
    split
    · simp [Memory.read]
    · split
      · simp [Memory.read]
      · next h1 h2 =>
        have : d.1 ≠ a := fun e => h2 e.symm
        simp [Memory.read, this, ih]

/-- A read of another address is unchanged by a write. -/
theorem Memory.read_write_other (m : List Host.Cell) {a b : Nat} (v : Byte) (h : b ≠ a) :
    Memory.read (Memory.write m a v) b = Memory.read m b := by
  have h' : a ≠ b := fun e => h e.symm
  induction m with
  | nil => simp [Memory.write, Memory.read, h']
  | cons d m ih =>
    unfold Memory.write
    split
    · simp [Memory.read, h']
    · split
      · next heq =>
        have : d.1 ≠ b := by omega
        simp [Memory.read, h', this]
      · simp [Memory.read, ih]

/-- A load that succeeds has read every address, in order. -/
theorem Memory.load_ok_iff (m : List Host.Cell) (as : List Addr) (bs : List Byte) :
    Memory.load m as = .ok bs ↔ as.map (fun a => Memory.read m a.toNat) = bs.map some := by
  induction as generalizing bs with
  | nil => cases bs <;> simp [Memory.load]
  | cons a as ih =>
    unfold Memory.load
    cases hr : Memory.read m a.toNat with
    | none => cases bs <;> simp [hr]
    | some b =>
      cases hl : Memory.load m as with
      | error e =>
        cases bs with
        | nil => simp
        | cons c cs =>
          have := (ih cs).not.1 (by simp [hl])
          simp [hr, this]
      | ok cs =>
        cases bs with
        | nil => simp
        | cons d ds =>
          have := ih ds
          simp only [hl, Except.ok.injEq] at this
          simp [hr, ← this]

end Sys2Proof.Machine
end

