-- ==== Sys2Proof/Laws/State.lean ====
section
/-! SUPPORT. One lemma per field of `State` per update, true by `rfl`, and what reading a register gives after a write
of one. -/

namespace Sys2Proof.Machine

/-! ### `writeMm` -/

@[simp] theorem State.writeMm_gpr (s : State) (i : BitVec 3) (v : BitVec 64) : (s.writeMm i v).gpr = s.gpr := rfl
@[simp] theorem State.writeMm_mm (s : State) (i : BitVec 3) (v : BitVec 64) : (s.writeMm i v).mm = s.mm.set i.toNat v i.isLt := rfl
@[simp] theorem State.writeMm_vec (s : State) (i : BitVec 3) (v : BitVec 64) : (s.writeMm i v).vec = s.vec := rfl
@[simp] theorem State.writeMm_x87 (s : State) (i : BitVec 3) (v : BitVec 64) : (s.writeMm i v).x87 = { ext := s.x87.ext.set i.toNat (BitVec.allOnes 16) i.isLt, tag := 0, top := 0 } := rfl
@[simp] theorem State.writeMm_ip (s : State) (i : BitVec 3) (v : BitVec 64) : (s.writeMm i v).ip = s.ip := rfl
@[simp] theorem State.writeMm_ctl (s : State) (i : BitVec 3) (v : BitVec 64) : (s.writeMm i v).ctl = s.ctl := rfl
@[simp] theorem State.writeMm_mxcsr (s : State) (i : BitVec 3) (v : BitVec 64) : (s.writeMm i v).mxcsr = s.mxcsr := rfl
@[simp] theorem State.writeMm_mode (s : State) (i : BitVec 3) (v : BitVec 64) : (s.writeMm i v).mode = s.mode := rfl
@[simp] theorem State.writeMm_feat (s : State) (i : BitVec 3) (v : BitVec 64) : (s.writeMm i v).feat = s.feat := rfl
@[simp] theorem State.writeMm_vaBits (s : State) (i : BitVec 3) (v : BitVec 64) : (s.writeMm i v).vaBits = s.vaBits := rfl
@[simp] theorem State.writeMm_codeBase (s : State) (i : BitVec 3) (v : BitVec 64) : (s.writeMm i v).codeBase = s.codeBase := rfl
@[simp] theorem State.writeMm_code (s : State) (i : BitVec 3) (v : BitVec 64) : (s.writeMm i v).code = s.code := rfl
@[simp] theorem State.writeMm_mem (s : State) (i : BitVec 3) (v : BitVec 64) : (s.writeMm i v).mem = s.mem := rfl

/-! ### `writeVec` -/

@[simp] theorem State.writeVec_gpr (s : State) (i : BitVec 5) (v : VReg) : (s.writeVec i v).gpr = s.gpr := rfl
@[simp] theorem State.writeVec_mm (s : State) (i : BitVec 5) (v : VReg) : (s.writeVec i v).mm = s.mm := rfl
@[simp] theorem State.writeVec_vec (s : State) (i : BitVec 5) (v : VReg) : (s.writeVec i v).vec = s.vec.set i.toNat (clipMaxvl s.feat v) i.isLt := rfl
@[simp] theorem State.writeVec_x87 (s : State) (i : BitVec 5) (v : VReg) : (s.writeVec i v).x87 = s.x87 := rfl
@[simp] theorem State.writeVec_ip (s : State) (i : BitVec 5) (v : VReg) : (s.writeVec i v).ip = s.ip := rfl
@[simp] theorem State.writeVec_ctl (s : State) (i : BitVec 5) (v : VReg) : (s.writeVec i v).ctl = s.ctl := rfl
@[simp] theorem State.writeVec_mxcsr (s : State) (i : BitVec 5) (v : VReg) : (s.writeVec i v).mxcsr = s.mxcsr := rfl
@[simp] theorem State.writeVec_mode (s : State) (i : BitVec 5) (v : VReg) : (s.writeVec i v).mode = s.mode := rfl
@[simp] theorem State.writeVec_feat (s : State) (i : BitVec 5) (v : VReg) : (s.writeVec i v).feat = s.feat := rfl
@[simp] theorem State.writeVec_vaBits (s : State) (i : BitVec 5) (v : VReg) : (s.writeVec i v).vaBits = s.vaBits := rfl
@[simp] theorem State.writeVec_codeBase (s : State) (i : BitVec 5) (v : VReg) : (s.writeVec i v).codeBase = s.codeBase := rfl
@[simp] theorem State.writeVec_code (s : State) (i : BitVec 5) (v : VReg) : (s.writeVec i v).code = s.code := rfl
@[simp] theorem State.writeVec_mem (s : State) (i : BitVec 5) (v : VReg) : (s.writeVec i v).mem = s.mem := rfl

/-! ### `advance` -/

@[simp] theorem State.advance_gpr (s : State) (n : Nat) : (s.advance n).gpr = s.gpr := rfl
@[simp] theorem State.advance_mm (s : State) (n : Nat) : (s.advance n).mm = s.mm := rfl
@[simp] theorem State.advance_vec (s : State) (n : Nat) : (s.advance n).vec = s.vec := rfl
@[simp] theorem State.advance_x87 (s : State) (n : Nat) : (s.advance n).x87 = s.x87 := rfl
@[simp] theorem State.advance_ip (s : State) (n : Nat) : (s.advance n).ip = s.nextIp n := rfl
@[simp] theorem State.advance_ctl (s : State) (n : Nat) : (s.advance n).ctl = s.ctl := rfl
@[simp] theorem State.advance_mxcsr (s : State) (n : Nat) : (s.advance n).mxcsr = s.mxcsr := rfl
@[simp] theorem State.advance_mode (s : State) (n : Nat) : (s.advance n).mode = s.mode := rfl
@[simp] theorem State.advance_feat (s : State) (n : Nat) : (s.advance n).feat = s.feat := rfl
@[simp] theorem State.advance_vaBits (s : State) (n : Nat) : (s.advance n).vaBits = s.vaBits := rfl
@[simp] theorem State.advance_codeBase (s : State) (n : Nat) : (s.advance n).codeBase = s.codeBase := rfl
@[simp] theorem State.advance_code (s : State) (n : Nat) : (s.advance n).code = s.code := rfl
@[simp] theorem State.advance_mem (s : State) (n : Nat) : (s.advance n).mem = s.mem := rfl

/-! ### `place` -/

@[simp] theorem State.place_gpr (s : State) (c : List Byte) : (s.place c).gpr = s.gpr := rfl
@[simp] theorem State.place_mm (s : State) (c : List Byte) : (s.place c).mm = s.mm := rfl
@[simp] theorem State.place_vec (s : State) (c : List Byte) : (s.place c).vec = s.vec := rfl
@[simp] theorem State.place_x87 (s : State) (c : List Byte) : (s.place c).x87 = s.x87 := rfl
@[simp] theorem State.place_ip (s : State) (c : List Byte) : (s.place c).ip = s.ip := rfl
@[simp] theorem State.place_ctl (s : State) (c : List Byte) : (s.place c).ctl = s.ctl := rfl
@[simp] theorem State.place_mxcsr (s : State) (c : List Byte) : (s.place c).mxcsr = s.mxcsr := rfl
@[simp] theorem State.place_mode (s : State) (c : List Byte) : (s.place c).mode = s.mode := rfl
@[simp] theorem State.place_feat (s : State) (c : List Byte) : (s.place c).feat = s.feat := rfl
@[simp] theorem State.place_vaBits (s : State) (c : List Byte) : (s.place c).vaBits = s.vaBits := rfl
@[simp] theorem State.place_codeBase (s : State) (c : List Byte) : (s.place c).codeBase = s.ip := rfl
@[simp] theorem State.place_code (s : State) (c : List Byte) : (s.place c).code = c := rfl
@[simp] theorem State.place_mem (s : State) (c : List Byte) : (s.place c).mem = s.mem := rfl

/-! ### `boot` -/

@[simp] theorem State.boot_gpr (s : State) : s.boot.gpr = s.gpr := rfl
@[simp] theorem State.boot_mm (s : State) : s.boot.mm = s.mm := rfl
@[simp] theorem State.boot_vec (s : State) : s.boot.vec = s.vec := rfl
@[simp] theorem State.boot_x87 (s : State) : s.boot.x87 = s.x87 := rfl
@[simp] theorem State.boot_ip (s : State) : s.boot.ip = s.ip := rfl
@[simp] theorem State.boot_mxcsr (s : State) : s.boot.mxcsr = s.mxcsr := rfl
@[simp] theorem State.boot_mode (s : State) : s.boot.mode = .mode64 := rfl
@[simp] theorem State.boot_feat (s : State) : s.boot.feat = s.feat := rfl
@[simp] theorem State.boot_vaBits (s : State) : s.boot.vaBits = s.vaBits := rfl
@[simp] theorem State.boot_codeBase (s : State) : s.boot.codeBase = s.codeBase := rfl
@[simp] theorem State.boot_code (s : State) : s.boot.code = s.code := rfl
@[simp] theorem State.boot_mem (s : State) : s.boot.mem = s.mem := rfl

/-! ### Reads after writes -/

@[simp] theorem State.readGpr_writeMm (s : State) (i : BitVec 3) (v : BitVec 64) (j : BitVec 4) :
    (s.writeMm i v).readGpr j = s.readGpr j := rfl

@[simp] theorem State.readGpr_writeVec (s : State) (i : BitVec 5) (v : VReg) (j : BitVec 4) :
    (s.writeVec i v).readGpr j = s.readGpr j := rfl

@[simp] theorem State.readGpr_advance (s : State) (n : Nat) (j : BitVec 4) :
    (s.advance n).readGpr j = s.readGpr j := rfl

@[simp] theorem State.readMm_advance (s : State) (n : Nat) (j : BitVec 3) :
    (s.advance n).readMm j = s.readMm j := rfl

@[simp] theorem State.readVec_advance (s : State) (n : Nat) (j : BitVec 5) :
    (s.advance n).readVec j = s.readVec j := rfl

@[simp] theorem State.readMm_writeVec (s : State) (i : BitVec 5) (v : VReg) (j : BitVec 3) :
    (s.writeVec i v).readMm j = s.readMm j := rfl

@[simp] theorem State.readVec_writeMm (s : State) (i : BitVec 3) (v : BitVec 64) (j : BitVec 5) :
    (s.writeMm i v).readVec j = s.readVec j := rfl

@[simp] theorem State.readMm_writeMm_same (s : State) (i : BitVec 3) (v : BitVec 64) :
    (s.writeMm i v).readMm i = v := by
  simp [State.readMm, State.writeMm]

theorem State.readMm_writeMm_other (s : State) {i j : BitVec 3} (v : BitVec 64) (h : j ≠ i) :
    (s.writeMm i v).readMm j = s.readMm j := by
  have : i.toNat ≠ j.toNat := fun e => h (BitVec.eq_of_toNat_eq e.symm)
  simp [State.readMm, State.writeMm, this]

@[simp] theorem State.readVec_writeVec_same (s : State) (i : BitVec 5) (v : VReg) :
    (s.writeVec i v).readVec i = clipMaxvl s.feat v := by
  simp [State.readVec, State.writeVec]

theorem State.readVec_writeVec_other (s : State) {i j : BitVec 5} (v : VReg) (h : j ≠ i) :
    (s.writeVec i v).readVec j = s.readVec j := by
  have : i.toNat ≠ j.toNat := fun e => h (BitVec.eq_of_toNat_eq e.symm)
  simp [State.readVec, State.writeVec, this]

/-- A bit of a value as a `MAXVL`-bit register holds it. -/
theorem getLsbD_clipMaxvl (f : Feat) (v : VReg) (j : Nat) :
    (clipMaxvl f v).getLsbD j = (decide (j < 512) && (decide (j < maxvl f) && v.getLsbD j)) := by
  simp [clipMaxvl, BitVec.getLsbD_setWidth]

/-- `MAXVL` is at least 128 and at most 512 (R4). -/
theorem maxvl_bounds (f : Feat) : 128 ≤ maxvl f ∧ maxvl f ≤ 512 := by
  unfold maxvl
  split
  · omega
  · split <;> omega

end Sys2Proof.Machine
end

