-- ==== Sys2Proof/Laws/Ops.lean ====
section
/-! SUPPORT. What each shared operation of a step can do: one lemma per operation, cited instead of unfolding it. -/

namespace Sys2Proof.Machine

/-! ### Chaining -/

@[simp] theorem andThen_next {α β : Type} (v : α) (f : α → Result β) : andThen (.next v) f = f v := rfl

@[simp] theorem andThen_fault {α β : Type} (e : Fault) (f : α → Result β) :
    andThen (.fault e) f = .fault e := rfl

@[simp] theorem andThen_refused {α β : Type} (e : Refusal) (f : α → Result β) :
    andThen (.refused e) f = .refused e := rfl

/-- A chain answers a value exactly when both parts do. -/
theorem andThen_eq_next {α β : Type} (r : Result α) (f : α → Result β) (v : β) :
    andThen r f = .next v ↔ ∃ a, r = .next a ∧ f a = .next v := by
  cases r <;> simp [andThen]

@[simp] theorem raise_eq {α : Type} (exc : Addr → Fault) (s : State) :
    raise (α := α) exc s = .fault (exc s.ip) := rfl

/-! ### The checks of R122 to R124 -/

/-- The state-dependent checks of a form pass exactly under these conditions. -/
theorem formChecks_eq_next (f : Form) (p : Prefixes) (rm : RmOperand) (s : State) (u : Unit) :
    formChecks f p rm s = .next u ↔
      s.mode.supported = true ∧ (s.mode = .mode32 → p.addrSize = true → rm.isMem = false)
        ∧ featureOk f s.feat = true ∧ controlOk f s.ctl = true ∧ s.ctl.ts = false
        ∧ (f = .mm → s.ctl.x87Pending = false) := by
  unfold formChecks
  cases s.mode.supported <;> cases featureOk f s.feat <;> cases controlOk f s.ctl <;> cases s.ctl.ts <;>
    cases s.ctl.x87Pending <;> cases p.addrSize <;> cases rm.isMem <;> by_cases hm : s.mode = .mode32 <;>
    by_cases hf : f = .mm <;> simp [hm, hf]

/-! ### The memory operand (R131 step 7) -/

/-- A load answers bytes exactly when no check of R131 step 7 stops it. -/
theorem loadOperand_eq_next (s : State) (f : Form) (ss : Bool) (la : Addr) (bs : List Byte) :
    loadOperand s f ss la = .next bs ↔
      inRange s la (operandBytes f) = true ∧ (f = .xmm → aligned la 16 = true)
        ∧ Memory.load s.mem (operandAddrs la (operandBytes f)) = .ok bs
        ∧ (s.ctl.alignmentChecking = true → aligned la (operandBytes f) = true) := by
  simp only [loadOperand]
  generalize inRange s la (operandBytes f) = r
  generalize aligned la 16 = a16
  generalize aligned la (operandBytes f) = an
  generalize s.ctl.alignmentChecking = ac
  generalize Memory.load s.mem (operandAddrs la (operandBytes f)) = ld
  cases r
  · cases ss <;> simp
  · cases ld <;> cases ac <;> cases an <;> cases a16 <;> by_cases hf : f = .xmm <;> by_cases hm : f = .mm <;>
      simp [hf, hm]

/-- A memory operand is the little-endian value of the loaded bytes. -/
theorem readMemOperand_eq_next (s : State) (f : Form) (p : Prefixes) (x b : Bool) (len : Nat) (m : MemForm)
    (v : BitVec (vl f)) :
    readMemOperand s f p x b len m = .next v ↔
      ∃ bs, loadOperand s f (usesSS s.mode p b m) (effectiveAddress s f p x b len m) = .next bs
        ∧ leValue (vl f) bs = v := by
  simp [readMemOperand, andThen_eq_next]

/-! ### Fetch (R15, R131 step 1) -/

/-- The bytes taken are a beginning of the bytes given. -/
theorem takeCanonical_prefix (va : VaBits) (a : Addr) (bs : List Byte) : takeCanonical va a bs <+: bs := by
  induction bs generalizing a with
  | nil => exact List.prefix_refl _
  | cons b bs ih =>
    rw [takeCanonical]
    split
    · exact List.cons_prefix_cons.2 ⟨rfl, ih (a + 1)⟩
    · exact List.nil_prefix

theorem ofNat_succ_addr (a : Addr) (k : Nat) : a + BitVec.ofNat 64 (k + 1) = a + 1 + BitVec.ofNat 64 k := by
  rw [BitVec.add_assoc, BitVec.ofNat_add, BitVec.add_comm (BitVec.ofNat 64 k)]
  rfl

/-- Every byte that is taken lies at a canonical address. -/
theorem canonical_of_takeCanonical (va : VaBits) (a : Addr) (bs : List Byte) (k : Nat)
    (h : k < (takeCanonical va a bs).length) : canonical va (a + BitVec.ofNat 64 k) = true := by
  induction bs generalizing a k with
  | nil => simp [takeCanonical] at h
  | cons b bs ih =>
    rw [takeCanonical] at h
    split at h
    · next hc =>
      cases k with
      | zero => simpa using hc
      | succ k => exact ofNat_succ_addr a k ▸ ih (a + 1) k (by simpa using h)
    · simp at h

/-- Bytes at canonical addresses are all taken. -/
theorem takeCanonical_of_canonical (va : VaBits) (a : Addr) (bs : List Byte)
    (h : ∀ k, k < bs.length → canonical va (a + BitVec.ofNat 64 k) = true) : takeCanonical va a bs = bs := by
  induction bs generalizing a with
  | nil => rfl
  | cons b bs ih =>
    have h0 : canonical va a = true := by simpa using h 0 (by simp)
    rw [takeCanonical, if_pos h0, ih]
    exact fun k hk => ofNat_succ_addr a k ▸ h (k + 1) (by simpa using hk)

/-- What can be fetched is a beginning of the text's bytes from `ip` on. -/
theorem fetchBytes_prefix (s : State) : s.fetchBytes <+: s.textBytes := by
  unfold State.fetchBytes
  split
  · exact takeCanonical_prefix ..
  · exact List.prefix_refl _

/-- A missing byte is past the text exactly when all of the text can be fetched. -/
theorem missingByte_eq (s : State) :
    s.missingByte = if s.fetchBytes = s.textBytes then .fetchOutsideCode else .nonCanonicalFetch := by
  have hp := fetchBytes_prefix s
  have hl := hp.length_le
  unfold State.missingByte
  by_cases h : s.fetchBytes = s.textBytes
  · simp [h]
  · have : s.fetchBytes.length ≠ s.textBytes.length := fun e => h (hp.eq_of_length e)
    rw [if_pos (by omega), if_neg h]

/-! ### The shared operation of each family -/

/-- What form 1 can do: if it answers a next state, its checks passed, its operand was read, and that state is this one. -/
theorem runMm_eq_next (p : Prefixes) (x b : Bool) (m : ModRM) (len : Nat) (s t : State) :
    runMm p x b m len s = .next t ↔
      formChecks .mm p m.rm s = .next () ∧ ∃ src, readRmMm s p x b len m.rm = .next src
        ∧ t = (s.writeMm m.reg (sadvec 64 (s.readMm m.reg) src)).advance len := by
  simp only [runMm, andThen_eq_next, Host.Outcome.next.injEq]
  constructor
  · rintro ⟨⟨⟩, h, src, hsrc, rfl⟩
    exact ⟨h, src, hsrc, rfl⟩
  · rintro ⟨h, src, hsrc, rfl⟩
    exact ⟨(), h, src, hsrc, rfl⟩

/-- What form 2 can do. -/
theorem runXmm_eq_next (p : Prefixes) (r x b : Bool) (m : ModRM) (len : Nat) (s t : State) :
    runXmm p r x b m len s = .next t ↔
      formChecks .xmm p m.rm s = .next () ∧ ∃ src, readRmVec s .xmm p false x b len m.rm = .next src
        ∧ t = (s.writeVec (reg5 false r m.reg)
            (keepUpper128 (s.readVec (reg5 false r m.reg))
              (sadvec 128 (s.readView 128 (reg5 false r m.reg)) src))).advance len := by
  simp only [runXmm, andThen_eq_next, Host.Outcome.next.injEq]
  constructor
  · rintro ⟨⟨⟩, h, src, hsrc, rfl⟩
    exact ⟨h, src, hsrc, rfl⟩
  · rintro ⟨h, src, hsrc, rfl⟩
    exact ⟨(), h, src, hsrc, rfl⟩

/-- What forms 3 to 7 can do. -/
theorem runVector_eq_next (f : Form) (p : Prefixes) (d src1 : BitVec 5) (hi x b : Bool) (rm : RmOperand) (len : Nat)
    (s t : State) :
    runVector f p d src1 hi x b rm len s = .next t ↔
      formChecks f p rm s = .next () ∧ ∃ src2, readRmVec s f p hi x b len rm = .next src2
        ∧ t = (s.writeVec d ((sadvec (vl f) (s.readView (vl f) src1) src2).setWidth 512)).advance len := by
  simp only [runVector, andThen_eq_next, Host.Outcome.next.injEq]
  constructor
  · rintro ⟨⟨⟩, h, src, hsrc, rfl⟩
    exact ⟨h, src, hsrc, rfl⟩
  · rintro ⟨h, src, hsrc, rfl⟩
    exact ⟨(), h, src, hsrc, rfl⟩

/-! ### One inversion for all instructions -/

/-- Whatever an instruction does, a next state is a write of one register of the form's file, then the advance of `ip`. -/
theorem exec_next_shape (i : Instr) (s t : State) (h : exec i s = .next t) :
    (i.form = .mm ∧ ∃ v, t = (s.writeMm i.modrm.reg v).advance i.len)
      ∨ (i.form ≠ .mm ∧ ∃ v, t = (s.writeVec i.dest v).advance i.len) := by
  cases i <;>
    simp only [exec, execPsadbwMm, execPsadbwMmRex, execPsadbwXmm, execPsadbwXmmRex, execVpsadbwVex128C5,
      execVpsadbwVex128C4, execVpsadbwVex256C5, execVpsadbwVex256C4, execVpsadbwEvex128, execVpsadbwEvex256,
      execVpsadbwEvex512, runMm_eq_next, runXmm_eq_next, runVector_eq_next] at h <;>
    obtain ⟨-, src, -, rfl⟩ := h
  · exact .inl ⟨rfl, _, rfl⟩
  · exact .inl ⟨rfl, _, rfl⟩
  all_goals exact .inr ⟨by simp [Instr.form], _, rfl⟩

end Sys2Proof.Machine
end

