-- ==== Sys2Proof/Laws/Exec.lean ====
section
/-! SUPPORT. What an instruction does as a whole: its checks decide first, then its operand, and what it answers follows from
the conditions named in Sys2Proof/Safety.lean. -/

namespace Sys2Proof.Machine

/-! ### The conditions of Safety.lean and the checks -/

theorem mode_supported_iff (m : Mode) : m.supported = true ↔ m = .mode64 ∨ m = .mode32 := by
  cases m <;> simp [Mode.supported]

/-- XCR0 bits 2:1 are 11b exactly when both are set. -/
theorem avxState_eq (c : BitVec 64) : (c.extractLsb' 1 2 == 3) = (c.getLsbD 1 && c.getLsbD 2) := by
  have h : ∀ v : BitVec 2, (v == 3) = (v.getLsbD 0 && v.getLsbD 1) := by decide
  rw [h]
  simp

/-- XCR0 bits 7:5 are 111b exactly when all three are set. -/
theorem avx512State_eq (c : BitVec 64) :
    (c.extractLsb' 5 3 == 7) = (c.getLsbD 5 && c.getLsbD 6 && c.getLsbD 7) := by
  have h : ∀ v : BitVec 3, (v == 7) = (v.getLsbD 0 && v.getLsbD 1 && v.getLsbD 2) := by decide
  rw [h]
  simp

/-- A form is defined exactly when the `#UD` check of `formChecks` passes. -/
theorem formDefined_iff (f : Form) (s : State) :
    FormDefined f s ↔ (featureOk f s.feat && controlOk f s.ctl) = true := by
  cases f <;>
    simp only [FormDefined, featureOk, controlOk, Ctl.em, Ctl.osfxsr, Ctl.osxsave, Ctl.avxState, Ctl.avx512State,
      avxState_eq, avx512State_eq, Bool.and_eq_true, Bool.not_eq_true', and_assoc]

open Classical in
/-- The checks of an admitted instruction: `#UD`, then `#NM`, then `#MF`. -/
theorem formChecks_of_admitted (i : Instr) (s : State) (h : Admitted i s) :
    formChecks i.form i.prefixes i.modrm.rm s =
      if ¬ FormDefined i.form s then .fault (.ud s.ip)
      else if s.ctl.cr0.getLsbD 3 then .fault (.nm s.ip)
      else if i.form = .mm ∧ s.ctl.x87Pending = true then .fault (.mf s.ip)
      else Host.Outcome.next () := by
  have h1 := (mode_supported_iff _).2 h.1
  have h2 : (decide (s.mode = .mode32) && i.prefixes.addrSize && i.modrm.rm.isMem) = false := by
    have := h.2
    cases hA : i.prefixes.addrSize <;> cases hB : i.modrm.rm.isMem <;> simp_all
  simp only [formChecks, h1, h2, formDefined_iff, Ctl.ts, raise_eq]
  cases (featureOk i.form s.feat && controlOk i.form s.ctl) <;> simp

/-- An enabled instruction passes its checks. -/
theorem formChecks_of_enabled (i : Instr) (s : State) (h : Enabled i s) :
    formChecks i.form i.prefixes i.modrm.rm s = .next () := by
  obtain ⟨h1, h2, h3, h4⟩ := h
  have : ¬(i.form = .mm ∧ s.ctl.x87Pending = true) := by
    rintro ⟨a, b⟩
    simp [h4 a] at b
  rw [formChecks_of_admitted i s h1]
  simp only [h2, h3, this]
  simp

/-! ### Checks first, then the operand -/

/-- Where the checks fault, the instruction faults so. -/
theorem exec_of_checks_fault (i : Instr) (s : State) (e : Fault)
    (h : formChecks i.form i.prefixes i.modrm.rm s = .fault e) : exec i s = .fault e := by
  cases i <;> simp only [Instr.form, Instr.prefixes, Instr.modrm] at h <;>
    simp only [exec, execPsadbwMm, execPsadbwMmRex, execPsadbwXmm, execPsadbwXmmRex, execVpsadbwVex128C5,
      execVpsadbwVex128C4, execVpsadbwVex256C5, execVpsadbwVex256C4, execVpsadbwEvex128, execVpsadbwEvex256,
      execVpsadbwEvex512, runMm, runXmm, runVector, h, andThen_fault]

/-- Where the checks refuse, the instruction is refused so. -/
theorem exec_of_checks_refused (i : Instr) (s : State) (e : Refusal)
    (h : formChecks i.form i.prefixes i.modrm.rm s = .refused e) : exec i s = .refused e := by
  cases i <;> simp only [Instr.form, Instr.prefixes, Instr.modrm] at h <;>
    simp only [exec, execPsadbwMm, execPsadbwMmRex, execPsadbwXmm, execPsadbwXmmRex, execVpsadbwVex128C5,
      execVpsadbwVex128C4, execVpsadbwVex256C5, execVpsadbwVex256C4, execVpsadbwEvex128, execVpsadbwEvex256,
      execVpsadbwEvex512, runMm, runXmm, runVector, h, andThen_refused]

/-- Where the checks pass and the operand is a register, the instruction completes. -/
theorem exec_of_reg (i : Instr) (s : State) (r : BitVec 3) (hm : i.modrm.rm = .reg r)
    (h : formChecks i.form i.prefixes i.modrm.rm s = .next ()) : ∃ t, exec i s = .next t := by
  cases i <;> simp only [Instr.form, Instr.prefixes, Instr.modrm] at h hm <;>
    simp only [exec, execPsadbwMm, execPsadbwMmRex, execPsadbwXmm, execPsadbwXmmRex, execVpsadbwVex128C5,
      execVpsadbwVex128C4, execVpsadbwVex256C5, execVpsadbwVex256C4, execVpsadbwEvex128, execVpsadbwEvex256,
      execVpsadbwEvex512, runMm, runXmm, runVector, h, andThen_next] <;>
    rw [hm] <;> simp only [readRmMm, readRmVec] <;> exact ⟨_, rfl⟩

theorem andThen_map {α β γ : Type} (r : Result α) (f : α → β) (k : β → γ) :
    andThen (andThen r fun x => .next (f x)) (fun y => Host.Outcome.next (k y))
      = andThen r (fun x => .next (k (f x))) := by
  cases r <;> rfl

/-- Where the checks pass and the operand is in memory, the load decides: the instruction stops as the load stops, and
completes when it answers bytes. -/
theorem exec_of_mem (i : Instr) (s : State) (a : MemForm) (hm : i.modrm.rm = .mem a)
    (h : formChecks i.form i.prefixes i.modrm.rm s = .next ()) :
    ∃ g : List Byte → State, exec i s =
      andThen (loadOperand s i.form (i.throughSS s) (effectiveAddress s i.form i.prefixes i.extX i.extB i.len a))
        (fun bs => .next (g bs)) := by
  cases i <;> simp only [Instr.form, Instr.prefixes, Instr.modrm] at h hm <;>
    simp only [exec, execPsadbwMm, execPsadbwMmRex, execPsadbwXmm, execPsadbwXmmRex, execVpsadbwVex128C5,
      execVpsadbwVex128C4, execVpsadbwVex256C5, execVpsadbwVex256C4, execVpsadbwEvex128, execVpsadbwEvex256,
      execVpsadbwEvex512, runMm, runXmm, runVector, h, andThen_next, Instr.throughSS, Instr.modrm] <;>
    rw [hm] <;> simp only [readRmMm, readRmVec, readMemOperand] <;> exact ⟨_, andThen_map _ _ _⟩

/-- The same for an enabled instruction, with its address. -/
theorem exec_of_memAddress (i : Instr) (s : State) (la : Addr) (he : Enabled i s) (h : i.memAddress s = some la) :
    ∃ g : List Byte → State, exec i s =
      andThen (loadOperand s i.form (i.throughSS s) la) (fun bs => .next (g bs)) := by
  unfold Instr.memAddress at h
  split at h
  · cases h
  · next a ha =>
    obtain rfl := Option.some.inj h
    exact exec_of_mem i s a ha (formChecks_of_enabled i s he)

/-! ### Loads -/

/-- A load of mapped addresses answers bytes. -/
theorem Memory.load_of_mapped (m : List Host.Cell) (as : List Addr)
    (h : ∀ a ∈ as, Memory.read m a.toNat ≠ none) : ∃ bs, Memory.load m as = .ok bs := by
  induction as with
  | nil => exact ⟨_, rfl⟩
  | cons a as ih =>
    obtain ⟨bs, hb⟩ := ih fun x hx => h x (by simp [hx])
    obtain ⟨b, hb'⟩ := Option.ne_none_iff_exists'.1 (h a (by simp))
    exact ⟨b :: bs, by simp [Memory.load, hb, hb']⟩

/-- A load stops at the first address that is not mapped. -/
theorem Memory.load_of_unmapped (m : List Host.Cell) (as : List Addr) (k : Nat) (hk : k < as.length)
    (h : Memory.read m as[k].toNat = none) (hl : ∀ j (hj : j < k), Memory.read m (as[j]).toNat ≠ none) :
    Memory.load m as = .error as[k] := by
  induction as generalizing k with
  | nil => simp at hk
  | cons a as ih =>
    cases k with
    | zero =>
      simp at h
      simp [Memory.load, h]
    | succ k =>
      obtain ⟨b, hb⟩ := Option.ne_none_iff_exists'.1 (by simpa using hl 0 (by omega))
      have := ih k (by simpa using hk) (by simpa using h) fun j hj => by simpa using hl (j + 1) (by omega)
      simp [Memory.load, hb, this]

/-! ### Operands that hold a value (`MmSource`, `VecSource`) -/

/-- A bit of a little-endian value is the bit of its byte. -/
theorem getLsbD_leValue (w : Nat) (bs : List Byte) (j : Nat) :
    (leValue w bs).getLsbD j = (decide (j < w) && (bs.getD (j / 8) 0).getLsbD (j % 8)) := by
  induction bs generalizing j with
  | nil => simp [leValue]
  | cons b bs ih =>
    simp only [leValue, BitVec.getLsbD_or, BitVec.getLsbD_shiftLeft, ih, BitVec.getLsbD_setWidth]
    by_cases h : j < 8
    · have hd : j / 8 = 0 := by omega
      have hr : j % 8 = j := by omega
      simp [h, hd, hr]
    · obtain ⟨q, hq⟩ : ∃ q, j / 8 = q + 1 := ⟨j / 8 - 1, by omega⟩
      have h1 : (j - 8) / 8 = q := by omega
      have h2 : (j - 8) % 8 = j % 8 := by omega
      have h3 : b.getLsbD j = false := BitVec.getLsbD_of_ge _ _ (by omega)
      simp [h, hq, h1, h2, h3]
      by_cases hj : j < w
      · have : j - 8 < w := by omega
        simp [hj, this]
      · simp [hj]

/-- The bytes loaded where memory holds a value assemble to that value. -/
theorem load_of_memHolds (s : State) (la : Addr) (w : Nat) (hw : 8 ∣ w) (v : BitVec w) (h : MemHolds s la v) :
    ∃ bs, Memory.load s.mem (operandAddrs la (w / 8)) = .ok bs ∧ leValue w bs = v := by
  refine ⟨(List.range (w / 8)).map fun k => byteOf v k, ?_, ?_⟩
  · rw [Memory.load_ok_iff]
    simp only [operandAddrs, List.map_map]
    exact List.map_congr_left fun k hk => by simpa using h k (by simpa using hk)
  · apply BitVec.eq_of_getLsbD_eq
    intro j hj
    rw [getLsbD_leValue]
    have h1 : j / 8 < w / 8 := by omega
    have h2 : 8 * (j / 8) + j % 8 = j := by omega
    have h3 : j % 8 < 8 := by omega
    simp [hj, List.getD, h1, byteOf, h2, h3]

theorem eight_dvd_vl (f : Form) : 8 ∣ vl f := by
  cases f <;> simp [vl]

/-- A memory operand that holds a value, and that no check stops, reads as that value. -/
theorem readMemOperand_of_holds (s : State) (f : Form) (p : Prefixes) (x b : Bool) (len : Nat) (a : MemForm)
    (v : BitVec (vl f)) (h : AccessOk f s (effectiveAddress s f p x b len a))
    (hm : MemHolds s (effectiveAddress s f p x b len a) v) : readMemOperand s f p x b len a = .next v := by
  obtain ⟨bs, h1, h2⟩ := load_of_memHolds s _ _ (eight_dvd_vl f) v hm
  obtain ⟨a1, a2, a3⟩ := h
  rw [readMemOperand_eq_next]
  refine ⟨bs, ?_, h2⟩
  rw [loadOperand_eq_next]
  exact ⟨a1, fun hf => by simp [aligned, a2 hf], h1, fun hf => by simp [aligned, a3 hf]⟩

/-- The last operand of form 1 reads as its source value. -/
theorem readRmMm_of_source (i : Instr) (s : State) (v : BitVec 64) (h : MmSource i s v) :
    readRmMm s i.prefixes i.extX i.extB i.len i.modrm.rm = .next v := by
  unfold MmSource at h
  unfold readRmMm
  revert h
  generalize i.modrm.rm = r
  cases r with
  | reg rm => rintro rfl; rfl
  | mem a => exact fun h => readMemOperand_of_holds s .mm _ _ _ _ _ v h.1 h.2

/-- The last operand of forms 2 to 7 reads as its source value. -/
theorem readRmVec_of_source (f : Form) (hi : Bool) (i : Instr) (s : State) (v : BitVec (vl f))
    (h : VecSource f hi i s v) : readRmVec s f i.prefixes hi i.extX i.extB i.len i.modrm.rm = .next v := by
  unfold VecSource at h
  unfold readRmVec
  revert h
  generalize i.modrm.rm = r
  cases r with
  | reg rm => rintro rfl; rfl
  | mem a => exact fun h => readMemOperand_of_holds s f _ _ _ _ _ v h.1 h.2

/-! ### Widths -/

/-- A result no wider than `MAXVL` is held whole. -/
theorem clipMaxvl_setWidth (f : Feat) (w : Nat) (hw : w ≤ maxvl f) (r : BitVec w) :
    clipMaxvl f (r.setWidth 512) = r.setWidth 512 := by
  apply BitVec.eq_of_getLsbD_eq
  intro j hj
  rw [getLsbD_clipMaxvl, BitVec.getLsbD_setWidth]
  by_cases h : j < w
  · have : j < maxvl f := by omega
    simp [hj, this]
  · simp [BitVec.getLsbD_of_ge r j (by omega)]

/-- With consistent flags (R4), a defined three-operand form is no wider than `MAXVL`. -/
theorem vl_le_maxvl (f : Form) (s : State) (hc : s.feat.consistent = true) (hd : FormDefined f s) (hf : f ≠ .mm)
    (hf' : f ≠ .xmm) : vl f ≤ maxvl s.feat := by
  revert hc hd
  unfold Feat.consistent maxvl
  cases f <;> simp [FormDefined, vl] at * <;>
    cases s.feat.avx512f <;> cases s.feat.avx <;> cases s.feat.avx2 <;> cases s.feat.avx512bw <;> simp

/-- A bit of form 2's destination value. -/
theorem getLsbD_keepUpper128 (o : VReg) (r : BitVec 128) (j : Nat) :
    (keepUpper128 o r).getLsbD j = if j < 128 then r.getLsbD j else (decide (j < 512) && o.getLsbD j) := by
  simp only [keepUpper128, BitVec.getLsbD_append, BitVec.getLsbD_extractLsb']
  by_cases h : j < 128
  · simp [h]
  · have e : 128 + (j - 128) = j := by omega
    simp only [h, e]
    by_cases g : j < 512
    · have : j - 128 < 384 := by omega
      simp [g, this]
    · have : ¬j - 128 < 384 := by omega
      simp [g, this]

/-! ### States that differ where no instruction looks -/

/-- A change of state that the checks, the operand read and the register files do not see, and that commutes with the two
writes, commutes with every instruction. -/
theorem exec_mapNext (g : State → State) (s : State)
    (hc : ∀ f p rm, formChecks f p rm (g s) = formChecks f p rm s)
    (hm : ∀ f p x b len a, readMemOperand (g s) f p x b len a = readMemOperand s f p x b len a)
    (hmm : (g s).mm = s.mm) (hv : (g s).vec = s.vec)
    (hw : ∀ i v n, ((g s).writeMm i v).advance n = g ((s.writeMm i v).advance n))
    (hw' : ∀ i v n, ((g s).writeVec i v).advance n = g ((s.writeVec i v).advance n)) (i : Instr) :
    exec i (g s) = mapNext g (exec i s) := by
  have r1 : ∀ p x b len rm, readRmMm (g s) p x b len rm = readRmMm s p x b len rm := by
    intro p x b len rm
    cases rm with
    | reg r => simp [readRmMm, State.readMm, hmm]
    | mem a => exact hm ..
  have r2 : ∀ f p hi x b len rm, readRmVec (g s) f p hi x b len rm = readRmVec s f p hi x b len rm := by
    intro f p hi x b len rm
    cases rm with
    | reg r => simp [readRmVec, State.readView, State.readVec, hv]
    | mem a => exact hm ..
  have k1 : ∀ p x b m len, runMm p x b m len (g s) = mapNext g (runMm p x b m len s) := by
    intro p x b m len
    simp only [runMm, hc, r1]
    cases formChecks .mm p m.rm s <;> simp [mapNext]
    cases readRmMm s p x b len m.rm <;> simp [hw, State.readMm, hmm]
  have k2 : ∀ p r x b m len, runXmm p r x b m len (g s) = mapNext g (runXmm p r x b m len s) := by
    intro p r x b m len
    simp only [runXmm, hc, r2]
    cases formChecks .xmm p m.rm s <;> simp [mapNext]
    cases readRmVec s .xmm p false x b len m.rm <;> simp [hw', State.readVec, State.readView, hv]
  have k3 : ∀ f p d s1 hi x b rm len,
      runVector f p d s1 hi x b rm len (g s) = mapNext g (runVector f p d s1 hi x b rm len s) := by
    intro f p d s1 hi x b rm len
    simp only [runVector, hc, r2]
    cases formChecks f p rm s <;> simp [mapNext]
    cases readRmVec s f p hi x b len rm <;> simp [hw', State.readVec, State.readView, hv]
  cases i <;>
    simp only [exec, execPsadbwMm, execPsadbwMmRex, execPsadbwXmm, execPsadbwXmmRex, execVpsadbwVex128C5,
      execVpsadbwVex128C4, execVpsadbwVex256C5, execVpsadbwVex256C4, execVpsadbwEvex128, execVpsadbwEvex256,
      execVpsadbwEvex512, k1, k2, k3]

end Sys2Proof.Machine
end

