-- ==== Sys2Proof/Laws/PerInstr.lean ====
section
/-! SUPPORT. A law per constructor of `Instr`: the encoder writes as many bytes as `Instr.len` says (R75), and their
number is between 3 and 15 (R15). -/

namespace Sys2Proof.Laws.EncodedLength

/-- The number of encoded bytes is the instruction's length, 3 to 15 (R15, R75). -/
def Statement (i : Instr) : Prop :=
  (encode i).length = i.len ∧ 3 ≤ i.len ∧ i.len ≤ 15

/-- The law of the three-operand forms: `n` bytes between the legacy prefixes and ModRM. -/
theorem of_parts {i : Instr} (p : Prefixes) (m : ModRM) (n : Nat) (h : (encode i).length = p.len + n + m.len)
    (hl : i.len = p.len + n + m.len) (h2 : 2 ≤ n) (h5 : n ≤ 5) : Statement i := by
  have hp := prefixes_len_le p
  have hm := modrm_len_bounds m
  exact ⟨by omega, by omega, by omega⟩

theorem psadbwMm (p : Prefixes) (m : ModRM) : Statement (.psadbwMm p m) :=
  of_parts p m 2 (by simp [encode, length_prefixes_encode, length_modrm_encode]; omega) rfl (by omega) (by omega)

theorem psadbwMmRex (p : Prefixes) (rex : Rex) (m : ModRM) : Statement (.psadbwMmRex p rex m) :=
  of_parts p m 3 (by simp [encode, length_prefixes_encode, length_modrm_encode]; omega)
    rfl (by omega) (by omega)

theorem psadbwXmm (p : Prefixes) (m : ModRM) : Statement (.psadbwXmm p m) :=
  of_parts p m 3 (by simp [encode, length_prefixes_encode, length_modrm_encode]; omega)
    rfl (by omega) (by omega)

theorem psadbwXmmRex (p : Prefixes) (rex : Rex) (m : ModRM) : Statement (.psadbwXmmRex p rex m) :=
  of_parts p m 4 (by simp [encode, length_prefixes_encode, length_modrm_encode]; omega)
    rfl (by omega) (by omega)

theorem vpsadbwVex128C5 (p : Prefixes) (v : Vex2) (m : ModRM) : Statement (.vpsadbwVex128C5 p v m) :=
  of_parts p m 3 (by simp [encode, Vex2.encode, length_prefixes_encode, length_modrm_encode]; omega)
    rfl (by omega) (by omega)

theorem vpsadbwVex128C4 (p : Prefixes) (v : Vex3) (m : ModRM) : Statement (.vpsadbwVex128C4 p v m) :=
  of_parts p m 4 (by simp [encode, Vex3.encode, length_prefixes_encode, length_modrm_encode]; omega)
    rfl (by omega) (by omega)

theorem vpsadbwVex256C5 (p : Prefixes) (v : Vex2) (m : ModRM) : Statement (.vpsadbwVex256C5 p v m) :=
  of_parts p m 3 (by simp [encode, Vex2.encode, length_prefixes_encode, length_modrm_encode]; omega)
    rfl (by omega) (by omega)

theorem vpsadbwVex256C4 (p : Prefixes) (v : Vex3) (m : ModRM) : Statement (.vpsadbwVex256C4 p v m) :=
  of_parts p m 4 (by simp [encode, Vex3.encode, length_prefixes_encode, length_modrm_encode]; omega)
    rfl (by omega) (by omega)

theorem vpsadbwEvex128 (p : Prefixes) (e : Evex) (m : ModRM) : Statement (.vpsadbwEvex128 p e m) :=
  of_parts p m 5 (by simp [encode, Evex.encode, length_prefixes_encode, length_modrm_encode]; omega)
    rfl (by omega) (by omega)

theorem vpsadbwEvex256 (p : Prefixes) (e : Evex) (m : ModRM) : Statement (.vpsadbwEvex256 p e m) :=
  of_parts p m 5 (by simp [encode, Evex.encode, length_prefixes_encode, length_modrm_encode]; omega)
    rfl (by omega) (by omega)

theorem vpsadbwEvex512 (p : Prefixes) (e : Evex) (m : ModRM) : Statement (.vpsadbwEvex512 p e m) :=
  of_parts p m 5 (by simp [encode, Evex.encode, length_prefixes_encode, length_modrm_encode]; omega)
    rfl (by omega) (by omega)

end Sys2Proof.Laws.EncodedLength
end

