-- ==== Sys2Proof/Laws/Sad.lean ====
section
/-! SUPPORT. Small facts about the shared arithmetic (R90 to R92). -/

namespace Sys2Proof.Machine

theorem ad_comm (x y : Byte) : ad x y = ad y x := by
  unfold ad
  omega

theorem ad_self (x : Byte) : ad x x = 0 := by
  simp [ad]

theorem ad_zero (x : Byte) : ad x 0 = x.toNat := by
  simp [ad]

theorem ad_le (x y : Byte) : ad x y ≤ 255 := by
  have := x.isLt
  have := y.isLt
  unfold ad
  omega

theorem sad8_comm (a b : BitVec 64) : sad8 a b = sad8 b a := by
  simp only [sad8, ad_comm (byteOf a _)]

theorem sad8_self (a : BitVec 64) : sad8 a a = 0 := by
  simp only [sad8, ad_self, Nat.add_zero]

theorem sad8_le (a b : BitVec 64) : sad8 a b ≤ 2040 := by
  unfold sad8
  have h := fun i => ad_le (byteOf a i) (byteOf b i)
  have := h 0
  have := h 1
  have := h 2
  have := h 3
  have := h 4
  have := h 5
  have := h 6
  have := h 7
  omega

/-- A bit of a packed value is the bit of its group, and 0 above the last group. -/
theorem getLsbD_packGroups (n k : Nat) (f : Nat → BitVec 64) (hk : 64 * k ≤ n) (j : Nat) :
    (packGroups n f k).getLsbD j = (decide (j < 64 * k) && (f (j / 64)).getLsbD (j % 64)) := by
  induction k with
  | zero => simp [packGroups]
  | succ k ih =>
    have hk' : 64 * k ≤ n := by omega
    simp only [packGroups, BitVec.getLsbD_or, ih hk', BitVec.getLsbD_shiftLeft, BitVec.getLsbD_setWidth]
    by_cases h1 : j < 64 * k
    · have : j < 64 * (k + 1) := by omega
      simp [h1, this]
    · by_cases h2 : j < 64 * (k + 1)
      · have hd : j / 64 = k := by omega
        have hmod : j % 64 = j - 64 * k := by omega
        have hn : j < n := by omega
        have hlt : j - 64 * k < n := by omega
        simp [h1, h2, hd, hmod, hn, hlt]
      · have hge : 64 ≤ j - 64 * k := by omega
        have : (f k).getLsbD (j - 64 * k) = false := BitVec.getLsbD_of_ge _ _ hge
        simp [h1, h2, this]

end Sys2Proof.Machine
end

