-- ==== Sys2Proof/Tests/Slice0.lean ====
section
/-! SUPPORT. The model's own tests: ill-formed terms refused, words written out from the spec's encodings, the spec's vectors
(spec/95_test_vectors.md), and a witness for the hypotheses of every statement in Certificates/Slice0/Obligations.lean. -/

namespace Sys2Proof.Tests

-- One theorem at a time: side by side, the kernel checks of this file ask for more threads than the memory limit allows.
set_option Elab.async false

open Sys2Proof.Machine

/-! ### Helpers -/

/-- No legacy prefix. -/
def np : Prefixes := { seg := none, addrSize := false }

/-- The default configuration of 95_test_vectors.md: `Mode64`, every flag, clean entry, `ip` 1000H. -/
def start : State := { State.reset.boot with ip := 0x1000, codeBase := 0x1000 }

/-- The same in `Mode32`. -/
def start32 : State := { start with mode := .mode32 }

def withGpr (s : State) (i : BitVec 4) (v : BitVec 64) : State := { s with gpr := s.gpr.set i.toNat v i.isLt }

def withMm (s : State) (i : BitVec 3) (v : BitVec 64) : State := { s with mm := s.mm.set i.toNat v i.isLt }

def withVec (s : State) (i : BitVec 5) (v : VReg) : State := { s with vec := s.vec.set i.toNat v i.isLt }

/-- Bytes mapped from an address on. -/
def withMem (s : State) (a : Nat) (bs : List Byte) : State :=
  { s with mem := (List.range bs.length).map fun k => (a + k, bs.getD k 0) }

/-- A vector value as the spec writes it: 64-bit groups, the most significant first. -/
def groups (l : List (BitVec 64)) : VReg := l.foldl (fun acc g => (acc <<< 64) ||| g.setWidth 512) 0

/-- All 512 bits set. -/
def ones : VReg := BitVec.allOnes 512

/-- One step with the bytes placed at `ip`. -/
def run (s : State) (code : List Byte) : Result State := step (s.place code)

/-- What is observed of a next state. -/
def see {α : Type} (f : State → α) : Result State → Option α
  | .next t => some (f t)
  | .fault _ => none
  | .refused _ => none

/-- The fault a step ends with. -/
def faultOf : Result State → Option Fault
  | .next _ => none
  | .fault e => some e
  | .refused _ => none

/-- The refusal a step ends with. -/
def refusedOf : Result State → Option Refusal
  | .next _ => none
  | .fault _ => none
  | .refused r => some r

/-- A step or an instruction that is seen to complete has a next state. -/
theorem next_of_see {r : Result State} (h : see (fun _ => ()) r = some ()) : ∃ t, r = .next t := by
  cases r with
  | next t => exact ⟨t, rfl⟩
  | fault e => simp [see] at h
  | refused e => simp [see] at h

/-! ### Well-formedness refuses an ill-formed term for each check -/

theorem test_wf_base_needs_sib : (Instr.psadbwMm np ⟨0, .mem (.base 4 (.disp8 1))⟩).wf .mode64 = false := by decide

theorem test_wf_base5_needs_disp : (Instr.psadbwMm np ⟨0, .mem (.base 5 .none)⟩).wf .mode64 = false := by decide

theorem test_wf_base4_no_disp : (Instr.psadbwMm np ⟨0, .mem (.base 4 .none)⟩).wf .mode64 = false := by decide

theorem test_wf_sib_base5_needs_disp : (Instr.psadbwXmm np ⟨0, .mem (.sib 0 1 5 .none)⟩).wf .mode64 = false := by decide

theorem test_wf_rex_not_in_mode32 :
    (Instr.psadbwMmRex np ⟨false, false, false, false⟩ ⟨0, .reg 1⟩).wf .mode32 = false
      ∧ (Instr.psadbwXmmRex np ⟨false, false, false, false⟩ ⟨0, .reg 1⟩).wf .mode32 = false := by decide

theorem test_wf_vex2_mode32 :
    (Instr.vpsadbwVex128C5 np ⟨true, 2⟩ ⟨1, .reg 3⟩).wf .mode32 = false
      ∧ (Instr.vpsadbwVex256C5 np ⟨false, 8⟩ ⟨1, .reg 3⟩).wf .mode32 = false
      ∧ (Instr.vpsadbwVex256C5 np ⟨false, 7⟩ ⟨1, .reg 3⟩).wf .mode32 = true := by decide

theorem test_wf_vex3_mode32 :
    (Instr.vpsadbwVex128C4 np ⟨true, false, false, false, 2⟩ ⟨1, .reg 3⟩).wf .mode32 = false
      ∧ (Instr.vpsadbwVex128C4 np ⟨false, true, false, false, 2⟩ ⟨1, .reg 3⟩).wf .mode32 = false
      ∧ (Instr.vpsadbwVex256C4 np ⟨false, false, true, false, 2⟩ ⟨1, .reg 3⟩).wf .mode32 = false
      ∧ (Instr.vpsadbwVex256C4 np ⟨false, false, false, true, 10⟩ ⟨1, .reg 3⟩).wf .mode32 = false := by decide

theorem test_wf_evex_mode32 :
    (Instr.vpsadbwEvex128 np ⟨false, false, false, true, false, 2, false⟩ ⟨1, .reg 3⟩).wf .mode32 = false
      ∧ (Instr.vpsadbwEvex256 np ⟨false, false, true, false, false, 2, false⟩ ⟨1, .reg 3⟩).wf .mode32 = false
      ∧ (Instr.vpsadbwEvex512 np ⟨false, false, false, false, false, 2, true⟩ ⟨1, .reg 3⟩).wf .mode32 = false
      ∧ (Instr.vpsadbwEvex512 np ⟨true, false, false, false, false, 2, false⟩ ⟨1, .reg 3⟩).wf .mode32 = false
      ∧ (Instr.vpsadbwEvex512 np ⟨false, true, false, false, false, 2, false⟩ ⟨1, .reg 3⟩).wf .mode32 = false
      ∧ (Instr.vpsadbwEvex512 np ⟨false, false, false, false, false, 9, false⟩ ⟨1, .reg 3⟩).wf .mode32 = false := by
  decide

theorem test_wf_addr16 :
    (Instr.psadbwMm ⟨none, true⟩ ⟨0, .mem (.base 0 .none)⟩).wf .mode32 = false
      ∧ (Instr.psadbwMm ⟨none, true⟩ ⟨0, .reg 0⟩).wf .mode32 = true
      ∧ (Instr.psadbwMm ⟨none, true⟩ ⟨0, .mem (.base 0 .none)⟩).wf .mode64 = true := by decide

theorem test_wf_other_modes :
    (Instr.psadbwMm np ⟨0, .reg 1⟩).wf .realAddress = false ∧ (Instr.psadbwMm np ⟨0, .reg 1⟩).wf .virtual8086 = false
      ∧ (Instr.psadbwMm np ⟨0, .reg 1⟩).wf .code16 = false ∧ (Instr.psadbwMm np ⟨0, .reg 1⟩).wf .smm = false := by decide

/-! ### One word for every constructor, bit by bit from its encoding -/

/-- R54: `0F F6 /r`, ModRM `11 000 001`. -/
theorem test_word_psadbwMm :
    decode .mode64 [0b00001111, 0b11110110, 0b11000001] = .instr (.psadbwMm np ⟨0, .reg 1⟩) := by decide

/-- R53, R62: REX `0100 0011` (X and B), ModRM `00 011 100`, SIB `11 100 101` would take a displacement, so base `001`. -/
theorem test_word_psadbwMmRex :
    decode .mode64 [0b01000011, 0b00001111, 0b11110110, 0b00011100, 0b11100001]
      = .instr (.psadbwMmRex np ⟨false, false, true, true⟩ ⟨3, .mem (.sib 3 4 1 .none)⟩) := by decide

/-- R54: `66 0F F6 54 8B 10`, `PSADBW xmm2, [rbx+rcx*4+16]`. -/
theorem test_word_psadbwXmm :
    decode .mode64 [0b01100110, 0b00001111, 0b11110110, 0b01010100, 0b10001011, 0b00010000]
      = .instr (.psadbwXmm np ⟨2, .mem (.sib 2 1 3 (.disp8 16))⟩) := by decide

/-- R54: `66 45 0F F6 C1`, `PSADBW xmm8, xmm9`. -/
theorem test_word_psadbwXmmRex :
    decode .mode64 [0b01100110, 0b01000101, 0b00001111, 0b11110110, 0b11000001]
      = .instr (.psadbwXmmRex np ⟨false, true, false, true⟩ ⟨0, .reg 1⟩) := by decide

/-- R57: `C5 E9 F6 CB`, byte 1 `1 1101 0 01`. -/
theorem test_word_vpsadbwVex128C5 :
    decode .mode64 [0b11000101, 0b11101001, 0b11110110, 0b11001011]
      = .instr (.vpsadbwVex128C5 np ⟨false, 2⟩ ⟨1, .reg 3⟩) := by decide

/-- R56, V-V128-5: `C4 41 09 F6 EF`, `VPSADBW xmm13, xmm14, xmm15`. -/
theorem test_word_vpsadbwVex128C4 :
    decode .mode64 [0b11000100, 0b01000001, 0b00001001, 0b11110110, 0b11101111]
      = .instr (.vpsadbwVex128C4 np ⟨true, false, true, false, 14⟩ ⟨5, .reg 7⟩) := by decide

/-- R57: `C5 ED F6 CB`, `L = 1`. -/
theorem test_word_vpsadbwVex256C5 :
    decode .mode64 [0b11000101, 0b11101101, 0b11110110, 0b11001011]
      = .instr (.vpsadbwVex256C5 np ⟨false, 2⟩ ⟨1, .reg 3⟩) := by decide

/-- R57: `C4 41 6D F6 CB`, `VPSADBW ymm9, ymm2, ymm11`. -/
theorem test_word_vpsadbwVex256C4 :
    decode .mode64 [0b11000100, 0b01000001, 0b01101101, 0b11110110, 0b11001011]
      = .instr (.vpsadbwVex256C4 np ⟨true, false, true, false, 2⟩ ⟨1, .reg 3⟩) := by decide

/-- R67: `62 F1 6D 00 F6 4E 04`, `VPSADBW xmm1, xmm18, [rsi+64]`. -/
theorem test_word_vpsadbwEvex128 :
    decode .mode64 [0b01100010, 0b11110001, 0b01101101, 0b00000000, 0b11110110, 0b01001110, 0b00000100]
      = .instr (.vpsadbwEvex128 np ⟨false, false, false, false, false, 2, true⟩ ⟨1, .mem (.base 6 (.disp8 4))⟩) := by
  decide

/-- R67: `62 F1 6D 20 F6 4E 02`, `VPSADBW ymm1, ymm18, [rsi+64]`. -/
theorem test_word_vpsadbwEvex256 :
    decode .mode64 [0b01100010, 0b11110001, 0b01101101, 0b00100000, 0b11110110, 0b01001110, 0b00000010]
      = .instr (.vpsadbwEvex256 np ⟨false, false, false, false, false, 2, true⟩ ⟨1, .mem (.base 6 (.disp8 2))⟩) := by
  decide

/-- R59: `62 A1 6D 40 F6 CB`, `VPSADBW zmm17, zmm18, zmm19`. -/
theorem test_word_vpsadbwEvex512 :
    decode .mode64 [0b01100010, 0b10100001, 0b01101101, 0b01000000, 0b11110110, 0b11001011]
      = .instr (.vpsadbwEvex512 np ⟨false, true, false, true, false, 2, true⟩ ⟨1, .reg 3⟩) := by decide

/-- V-DEC-3 to V-DEC-6: base R12, base R13, index R12, no index. -/
theorem test_decode_special_bases :
    decode .mode64 [0x66, 0x41, 0x0F, 0xF6, 0x04, 0x24]
        = .instr (.psadbwXmmRex np ⟨false, false, false, true⟩ ⟨0, .mem (.sib 0 4 4 .none)⟩)
      ∧ decode .mode64 [0x66, 0x41, 0x0F, 0xF6, 0x45, 0x00]
        = .instr (.psadbwXmmRex np ⟨false, false, false, true⟩ ⟨0, .mem (.base 5 (.disp8 0))⟩)
      ∧ decode .mode64 [0x66, 0x42, 0x0F, 0xF6, 0x04, 0x20]
        = .instr (.psadbwXmmRex np ⟨false, false, true, false⟩ ⟨0, .mem (.sib 0 4 0 .none)⟩)
      ∧ decode .mode64 [0x66, 0x0F, 0xF6, 0x04, 0x20]
        = .instr (.psadbwXmm np ⟨0, .mem (.sib 0 4 0 .none)⟩) := by decide

/-- V-DEC-7, V-DEC-8: no base, and a disp32 stored least significant byte first. -/
theorem test_decode_disp32 :
    decode .mode64 [0x66, 0x0F, 0xF6, 0x04, 0x25, 0x00, 0x10, 0x00, 0x00]
        = .instr (.psadbwXmm np ⟨0, .mem (.sibNoBase 0 4 0x1000)⟩)
      ∧ decode .mode64 [0x66, 0x47, 0x0F, 0xF6, 0xBC, 0x75, 0x78, 0x56, 0x34, 0x12]
        = .instr (.psadbwXmmRex np ⟨false, true, true, true⟩ ⟨7, .mem (.sib 1 6 5 (.disp32 0x12345678))⟩) := by decide

/-- V-DEC-9, V-DEC-10: a segment override and the address-size prefix. -/
theorem test_decode_prefixes :
    decode .mode64 [0x2E, 0x66, 0x0F, 0xF6, 0x00] = .instr (.psadbwXmm ⟨some .cs, false⟩ ⟨0, .mem (.base 0 .none)⟩)
      ∧ decode .mode64 [0x66, 0x67, 0x0F, 0xF6, 0x00] = .instr (.psadbwXmm ⟨none, true⟩ ⟨0, .mem (.base 0 .none)⟩) := by
  decide

/-- V-REJ-1 to V-REJ-5. -/
theorem test_reject_prefixes :
    decode .mode64 [0xF3, 0x0F, 0xF6, 0xC1] = .rejected .reservedRepPrefix
      ∧ decode .mode64 [0xF2, 0x0F, 0xF6, 0xC1] = .rejected .reservedRepPrefix
      ∧ decode .mode64 [0xF0, 0x66, 0x0F, 0xF6, 0x00] = .undefinedOpcode
      ∧ decode .mode64 [0x66, 0x66, 0x0F, 0xF6, 0xC1] = .rejected .repeatedPrefix
      ∧ decode .mode64 [0x48, 0x66, 0x0F, 0xF6, 0xC1] = .rejected .rexNotLast
      ∧ decode .mode64 [0x64, 0x66, 0x0F, 0xF6, 0x00] = .rejected .segmentOverrideFSGS
      ∧ decode .mode64 [0x65, 0x0F, 0xF6, 0x00] = .rejected .segmentOverrideFSGS := by decide

/-- V-REJ-6 to V-REJ-11. -/
theorem test_reject_illegal :
    decode .mode64 [0x66, 0xC5, 0xE9, 0xF6, 0xCB] = .undefinedOpcode
      ∧ decode .mode64 [0xF0, 0xC5, 0xE9, 0xF6, 0xCB] = .undefinedOpcode
      ∧ decode .mode64 [0x62, 0xF1, 0x6D, 0x49, 0xF6, 0xCB] = .undefinedOpcode
      ∧ decode .mode64 [0x62, 0xF1, 0x6D, 0xC8, 0xF6, 0xCB] = .undefinedOpcode
      ∧ decode .mode64 [0x62, 0xF1, 0x6D, 0x58, 0xF6, 0x0E] = .undefinedOpcode
      ∧ decode .mode64 [0x62, 0xF1, 0x6D, 0x58, 0xF6, 0xCB] = .undefinedOpcode
      ∧ decode .mode64 [0x62, 0xF1, 0x6D, 0x68, 0xF6, 0xCB] = .undefinedOpcode
      ∧ decode .mode64 [0x62, 0xF9, 0x6D, 0x48, 0xF6, 0xCB] = .undefinedOpcode
      ∧ decode .mode64 [0x62, 0xF1, 0x69, 0x48, 0xF6, 0xCB] = .undefinedOpcode := by decide

/-- V-REJ-12, V-REJ-18. -/
theorem test_reject_other_instructions :
    decode .mode64 [0x0F, 0xF7, 0xC1] = .rejected .notInSlice
      ∧ decode .mode64 [0xC5, 0xE9, 0xF7, 0xCB] = .rejected .notInSlice
      ∧ decode .mode64 [0xC5, 0xEA, 0xF6, 0xCB] = .rejected .notInSlice
      ∧ decode .mode64 [0xC4, 0xE2, 0x69, 0xF6, 0xCB] = .rejected .notInSlice
      ∧ decode .mode64 [0x0F, 0xF6] = .rejected .fetchOutsideCode := by decide

/-- V-REJ-13 to V-REJ-16. -/
theorem test_reject_mode32 :
    decode .mode32 [0xC5, 0x69, 0xF6, 0xCB] = .rejected .notInSlice
      ∧ decode .mode32 [0x62, 0x71, 0x6D, 0x48] = .rejected .notInSlice
      ∧ decode .mode32 [0x62, 0xF1, 0x6D, 0x40, 0xF6, 0xCB] = .rejected .nonCanonicalMode32Bits
      ∧ decode .mode32 [0xC4, 0xC1, 0x69, 0xF6, 0xCB] = .rejected .nonCanonicalMode32Bits
      ∧ decode .mode32 [0x67, 0x0F, 0xF6, 0x00] = .rejected .addrSize16
      ∧ decode .mode32 [0x45, 0x0F, 0xF6, 0xC1] = .rejected .notInSlice := by decide

/-! ### Arithmetic (95, section 2) -/

/-- V-AD-3, V-AD-4, V-AD-5, V-AD-7. -/
theorem test_ad : ad 0x00 0xFF = 0xFF ∧ ad 0x80 0x7F = 1 ∧ ad 0x7F 0x80 = 1 ∧ ad 0xC8 0x64 = 0x64 := by decide

/-- V-64-8, V-64-9, V-64-10, V-64-12. -/
theorem test_sad8 :
    sad8 0xFF00FF00FF00FF00 0x00FF00FF00FF00FF = 0x7F8 ∧ sad8 0x100 0xFF = 0x100
      ∧ sad8 0xDEADBEEFCAFEF00D 0x0123456789ABCDEF = 0x401 ∧ sad8 0x0123456789ABCDEF 0xFEDCBA9876543210 = 0x440 := by
  decide +kernel

/-! ### Instructions (95, section 3): at most two for each constructor -/

/-- V-MM-1. -/
theorem test_psadbwMm_basic :
    see (fun t => (t.readMm 0, t.readMm 1, t.ip))
        (run (withMm (withMm start 0 0x0102030405060708) 1 0x0807060504030201) [0x0F, 0xF6, 0xC1])
      = some (0x20, 0x0807060504030201, 0x1003) := by decide +kernel

/-- V-MM-3: a memory operand at an address that is not a multiple of 8. -/
theorem test_psadbwMm_memory :
    see (fun t => (t.readMm 3, t.ip))
        (run (withMem (withGpr (withMm start 3 0xDEADBEEFCAFEF00D) 0 0x5003) 0x5003
          [0xEF, 0xCD, 0xAB, 0x89, 0x67, 0x45, 0x23, 0x01]) [0x0F, 0xF6, 0x18])
      = some (0x401, 0x1003) := by decide +kernel

/-- V-MM-5: REX with all four bits set names the same registers. -/
theorem test_psadbwMmRex_ignored :
    see (fun t => (t.readMm 0, t.ip))
        (run (withMm (withMm start 0 0x0102030405060708) 1 0x0807060504030201) [0x4F, 0x0F, 0xF6, 0xC1])
      = some (0x20, 0x1004) := by decide +kernel

/-- R19: the x87 effects of form 1 on register R6. -/
theorem test_psadbwMmRex_x87 :
    see (fun t => (t.x87.tag, t.x87.top, t.x87.ext)) (run start [0x40, 0x0F, 0xF6, 0xF7])
      = some (0, 0, (Vector.replicate 8 0).set 6 0xFFFF) := by decide +kernel

/-- V-128-5: bits 511:128 are kept. -/
theorem test_psadbwXmm_keeps_upper :
    see (fun t => (t.readVec 0, t.ip))
        (run (withVec (withVec start 0 (groups [1, 2, 3, 4, 5, 6, 0x0001020304050607, 0x08090A0B0C0D0E0F]))
          1 (groups [0x0F0E0D0C0B0A0908, 0x0706050403020100])) [0x66, 0x0F, 0xF6, 0xC1])
      = some (groups [1, 2, 3, 4, 5, 6, 0x40, 0x40], 0x1004) := by decide +kernel

/-- V-X-2: REX.R and REX.B reach registers 8 and 9; registers 0 and 1 are unchanged. -/
theorem test_psadbwXmmRex_high :
    see (fun t => (t.readVec 8, t.readVec 0, t.readVec 1, t.ip))
        (run (withVec (withVec start 8 (groups [9, 0x8080808080808080, 0x7F7F7F7F7F7F7F7F]))
          9 (groups [0x7F7F7F7F7F7F7F7F, 0x8080808080808080])) [0x66, 0x45, 0x0F, 0xF6, 0xC1])
      = some (groups [9, 8, 8], 0, 0, 0x1005) := by decide +kernel

/-- V-V128-1: three operands, the destination's old bits do not matter, the upper bits are cleared. -/
theorem test_vpsadbwVex128C5_basic :
    see (fun t => (t.readVec 1, t.ip))
        (run (withVec (withVec (withVec start 1 ones) 2 (groups [0x0001020304050607, 0x08090A0B0C0D0E0F]))
          3 (groups [0x0F0E0D0C0B0A0908, 0x0706050403020100])) [0xC5, 0xE9, 0xF6, 0xCB])
      = some (groups [0x40, 0x40], 0x1004) := by decide +kernel

/-- V-V128-6: RIP-relative, 8 bytes off a multiple of 16, no fault. -/
theorem test_vpsadbwVex128C5_unaligned :
    see (fun t => (t.readVec 1, t.ip))
        (run (withMem (withVec start 2 ones) 0x1018 (List.replicate 16 0)) [0xC5, 0xE9, 0xF6, 0x0D, 0x10, 0, 0, 0])
      = some (groups [0x7F8, 0x7F8], 0x1008) := by decide +kernel

/-- V-V128-5: `VPSADBW xmm13, xmm14, xmm15`. -/
theorem test_vpsadbwVex128C4_high :
    see (fun t => (t.readVec 13, t.ip))
        (run (withVec (withVec start 14 (groups [0x1111111111111111, 0x2222222222222222]))
          15 (groups [0x1111111111111110, 0x2222222222222223])) [0xC4, 0x41, 0x09, 0xF6, 0xEF])
      = some (groups [1, 1], 0x1005) := by decide +kernel

/-- V-V256-2: 32 bytes at an odd address; bits 511:256 cleared. -/
theorem test_vpsadbwVex256C5_memory :
    see (fun t => (t.readVec 1, t.ip))
        (run (withMem (withGpr (withVec (withVec start 1 ones) 2
          (groups [0x0011223344556677, 0x8899AABBCCDDEEFF, 0x0123456789ABCDEF, 0xFEDCBA9876543210])) 7 0x3001)
          0x3001 (List.replicate 32 0)) [0xC5, 0xED, 0xF6, 0x0F])
      = some (groups [0x1DC, 0x61C, 0x3C0, 0x438], 0x1004) := by decide +kernel

/-- V-V256-4: a VEX disp8 of -128 is not scaled. -/
theorem test_vpsadbwVex256C5_disp8 :
    see (fun t => (t.readVec 6, t.ip))
        (run (withMem (withGpr start 2 0x4080) 0x4000 (List.replicate 32 0xFF)) [0xC5, 0xD5, 0xF6, 0x72, 0x80])
      = some (groups [0x7F8, 0x7F8, 0x7F8, 0x7F8], 0x1005) := by decide +kernel

/-- V-V256-3: `VPSADBW ymm9, ymm2, ymm11`. -/
theorem test_vpsadbwVex256C4_high :
    see (fun t => (t.readVec 9, t.ip)) (run (withVec start 2 ones) [0xC4, 0x41, 0x6D, 0xF6, 0xCB])
      = some (groups [0x7F8, 0x7F8, 0x7F8, 0x7F8], 0x1005) := by decide +kernel

/-- V-E128-2: register 18 and a disp8 of 4 scaled by 16. -/
theorem test_vpsadbwEvex128_scaled :
    see (fun t => (t.readVec 1, t.ip))
        (run (withMem (withGpr (withVec (withVec start 1 ones) 18 (groups [0xFFFFFFFFFFFFFFFF, 0])) 6 0x6000)
          0x6040 (List.replicate 16 0)) [0x62, 0xF1, 0x6D, 0x00, 0xF6, 0x4E, 0x04])
      = some (groups [0x7F8, 0], 0x1007) := by decide +kernel

/-- V-E128-3: a disp8 of -1, times 16. -/
theorem test_vpsadbwEvex128_negative :
    see (fun t => (t.readVec 6, t.ip))
        (run (withMem (withGpr start 2 0x4010) 0x4000 (List.replicate 16 0xFF)) [0x62, 0xF1, 0x55, 0x08, 0xF6, 0x72, 0xFF])
      = some (groups [0x7F8, 0x7F8], 0x1007) := by decide +kernel

/-- R106, worked example: bytes 0 to 31 in memory. -/
theorem test_vpsadbwEvex256_memory :
    see (fun t => (t.readVec 1, t.ip))
        (run (withMem (withGpr (withVec start 1 ones) 6 0x1000) 0x1040 ((List.range 32).map (BitVec.ofNat 8)))
          [0x62, 0xF1, 0x6D, 0x20, 0xF6, 0x4E, 0x02])
      = some (groups [0xDC, 0x9C, 0x5C, 0x1C], 0x1007) := by decide +kernel

/-- V-E512-2 with V-512-3: every group its own sum, registers 17 to 19. -/
theorem test_vpsadbwEvex512_groups :
    see (fun t => (t.readVec 17, t.readVec 1, t.ip))
        (run (withVec (withVec start 18 (groups [0xFFFFFFFFFFFFFFFF, 0xFFFFFFFFFFFFFFFF, 0xFFFFFFFFFFFFFFFF,
            0xFFFFFFFFFFFFFFFF, 0x0123456789ABCDEF, 0x0123456789ABCDEF, 0x0123456789ABCDEF, 0x0123456789ABCDEF]))
          19 (groups [0, 0, 0, 0, 0x0123456789ABCDEF, 0x0123456789ABCDEF, 0x0123456789ABCDEF, 0x0123456789ABCDEF]))
          [0x62, 0xA1, 0x6D, 0x40, 0xF6, 0xCB])
      = some (groups [0x7F8, 0x7F8, 0x7F8, 0x7F8, 0, 0, 0, 0], 0, 0x1006) := by decide +kernel

/-- V-E512-7: `X` extends the index register, `R'` the destination. -/
theorem test_vpsadbwEvex512_index :
    see (fun t => (t.readVec 20, t.ip))
        (run (withMem (withGpr (withGpr (withVec start 2 ones) 0 0x8000) 9 0x10) 0x8080 (List.replicate 64 0))
          [0x62, 0xA1, 0x6D, 0x48, 0xF6, 0x24, 0xC8])
      = some (groups [0x7F8, 0x7F8, 0x7F8, 0x7F8, 0x7F8, 0x7F8, 0x7F8, 0x7F8], 0x1007) := by decide +kernel

/-- Program P5, second instruction: absolute in `Mode32`, RIP-relative in `Mode64`. -/
theorem test_mode_decides_address :
    see (fun t => (t.readVec 0, t.ip))
        (run (withMem (withVec { start32 with ip := 0x1003 } 0 (groups [7, 0x8080808080808080, 0x7F7F7F7F7F7F7F7F])) 0x2000
          (List.replicate 8 0x80 ++ List.replicate 8 0x7F)) [0x66, 0x0F, 0xF6, 0x05, 0x00, 0x20, 0x00, 0x00])
      = some (groups [7, 8, 8], 0x100B)
    ∧ faultOf (run { start with ip := 0x1003 } [0x66, 0x0F, 0xF6, 0x05, 0x00, 0x20, 0x00, 0x00]) = some (.gp 0x1003) := by
  decide +kernel

/-! ### The fixed entry points -/

/-- The table's words, first byte most significant, and the step that runs the word first after reset. -/
theorem test_table_words :
    decodeTableWord 24 0x0FF6C1 = some (.psadbwMm np ⟨0, .reg 1⟩)
      ∧ decodeTableWord 48 0x62F16D48F6CB
        = some (.vpsadbwEvex512 np ⟨false, false, false, false, false, 2, false⟩ ⟨1, .reg 3⟩)
      ∧ decodeTableWord 24 0x0FF604 = some (.psadbwMm np ⟨0, .mem (.sib 0 0 0 .none)⟩) := by decide

theorem test_fetch_word_after_reset :
    see (fun t => t.ip) (step (State.reset.withFetchWord 24 0x0FF6C1)) = some 0xFFF3
      ∧ see (fun t => t.ip) (step (State.reset.withFetchWord 48 0x62F16D48F6CB)) = some 0xFFF6
      ∧ refusedOf (step State.reset) = some .unsupportedMode := by decide +kernel

/-! ### Witnesses: the hypotheses of the statements are met

Each theorem is named after the obligation whose hypotheses it meets, together, with a concrete state and operands. -/

/-- Eight bytes mapped at 5003H, RAX pointing at them. -/
def mmMem : State := withMem (withGpr start 0 0x5003) 0x5003 [0xEF, 0xCD, 0xAB, 0x89, 0x67, 0x45, 0x23, 0x01]

/-- 64 zero bytes mapped at 6040H, RSI = 6000H, RAX = 6040H. -/
def zeroMem : State := withMem (withGpr (withGpr start 6 0x6000) 0 0x6040) 0x6040 (List.replicate 64 0)

/-- ModRM for register 1 as operand 1 and register 3 as the last operand. -/
def rr : ModRM := { reg := 1, rm := .reg 3 }

/-- ModRM for register 1 and the memory at RAX. -/
def ra : ModRM := { reg := 1, rm := .mem (.base 0 .none) }

/-- ModRM for register 1 and the memory at RSI plus a disp8. -/
def rsi (d : BitVec 8) : ModRM := { reg := 1, rm := .mem (.base 6 (.disp8 d)) }

def rex0 : Rex := { w := false, r := false, x := false, b := false }

def vex0 : Vex3 := { r := false, x := false, b := false, w := false, vvvv := 2 }

def evex0 : Evex := { r := false, x := false, b := false, rHi := false, w := false, vvvv := 2, vHi := false }

/-- Every constructor on a register operand. -/
def registerForms : List Instr :=
  [.psadbwMm np rr, .psadbwMmRex np rex0 rr, .psadbwXmm np rr, .psadbwXmmRex np rex0 rr,
    .vpsadbwVex128C5 np ⟨false, 2⟩ rr, .vpsadbwVex128C4 np vex0 rr, .vpsadbwVex256C5 np ⟨false, 2⟩ rr,
    .vpsadbwVex256C4 np vex0 rr, .vpsadbwEvex128 np evex0 rr, .vpsadbwEvex256 np evex0 rr, .vpsadbwEvex512 np evex0 rr]

/-- Every constructor on a memory operand at RAX. -/
def memoryForms : List Instr :=
  [.psadbwMm np ra, .psadbwMmRex np rex0 ra, .psadbwXmm np ra, .psadbwXmmRex np rex0 ra,
    .vpsadbwVex128C5 np ⟨false, 2⟩ ra, .vpsadbwVex128C4 np vex0 ra, .vpsadbwVex256C5 np ⟨false, 2⟩ ra,
    .vpsadbwVex256C4 np vex0 ra, .vpsadbwEvex128 np evex0 ra, .vpsadbwEvex256 np evex0 ra, .vpsadbwEvex512 np evex0 ra]

/-- Every constructor completes on register operands, in both modes but for REX. -/
theorem witness_register_forms_complete :
    (registerForms.all fun i => see (fun _ => ()) (exec i start) == some ()) = true
      ∧ (registerForms.all fun i => see (fun _ => ()) (exec i start32) == some ()) = true := by decide +kernel

/-- Every constructor completes on memory operands. -/
theorem witness_memory_forms_complete :
    (memoryForms.all fun i => see (fun _ => ()) (exec i zeroMem) == some ()) = true := by decide +kernel

theorem witness_AbsoluteDifferenceOfUnsignedBytes :
    (0x00#8).toNat ≤ (0xFF#8).toNat ∧ (0x80#8).toNat ≤ (0x80#8).toNat ∧ ad 0xFF 0 = 255 ∧ ad 0 0xFF = 255 ∧ ad 0x80 0x80 = 0 := by
  decide

theorem witness_PackedResultPerGroup : (512 = 64 ∨ 512 = 128 ∨ 512 = 256 ∨ 512 = 512) ∧ 7 < 512 / 64 ∧ 0 < 64 / 64 := by decide

theorem witness_SadvecSymmetricAndZeroOnEqual : 64 ∣ 64 ∧ 64 ∣ 512 := by decide

theorem witness_SadvecOfConcatenation : 64 ∣ 64 ∧ 64 ∣ 256 := by decide

theorem enabled_start (i : Instr) (h : FormDefined i.form start) : Enabled i start :=
  ⟨⟨.inl rfl, by rintro ⟨h, -⟩; cases h⟩, h, by decide +kernel, fun _ => rfl⟩

theorem formDefined_start (f : Form) : FormDefined f start := by
  cases f <;> simp only [FormDefined] <;> decide +kernel

theorem enabled_mmMem (i : Instr) (h : i.form = .mm) : Enabled i mmMem :=
  ⟨⟨.inl rfl, by rintro ⟨h, -⟩; cases h⟩, by rw [h]; exact formDefined_start .mm, by decide +kernel, fun _ => rfl⟩

theorem enabled_zeroMem (i : Instr) : Enabled i zeroMem :=
  ⟨⟨.inl rfl, by rintro ⟨h, -⟩; cases h⟩, formDefined_start i.form, by decide +kernel, fun _ => rfl⟩

/-- Form 1, register and memory operand (little-endian), without and with REX. -/
theorem witness_PsadbwMmCompletes :
    (Enabled (.psadbwMm np rr) start ∧ MmSource (.psadbwMm np rr) start (start.readMm 3))
      ∧ (Enabled (.psadbwMm np ra) mmMem ∧ MmSource (.psadbwMm np ra) mmMem 0x0123456789ABCDEF)
      ∧ (Enabled (.psadbwMmRex np rex0 ra) mmMem ∧ MmSource (.psadbwMmRex np rex0 ra) mmMem 0x0123456789ABCDEF) := by
  refine ⟨⟨enabled_start _ (formDefined_start _), rfl⟩, ⟨enabled_mmMem _ rfl, ?_⟩, ⟨enabled_mmMem _ rfl, ?_⟩⟩
  · exact ⟨⟨by decide +kernel, (by intro h; cases h), by decide +kernel⟩,
      by unfold MemHolds; decide +kernel⟩
  · exact ⟨⟨by decide +kernel, (by intro h; cases h), by decide +kernel⟩,
      by unfold MemHolds; decide +kernel⟩

theorem witness_PsadbwXmmCompletes :
    (Enabled (.psadbwXmm np ra) zeroMem ∧ VecSource .xmm false (.psadbwXmm np ra) zeroMem (0#128))
      ∧ (Enabled (.psadbwXmmRex np ⟨false, true, false, true⟩ rr) start
        ∧ VecSource .xmm false (.psadbwXmmRex np ⟨false, true, false, true⟩ rr) start (start.readView 128 11)) := by
  refine ⟨⟨enabled_zeroMem _, ?_⟩, ⟨enabled_start _ (formDefined_start _), rfl⟩⟩
  exact ⟨⟨by decide +kernel, by intro _; decide +kernel, by decide +kernel⟩, by unfold MemHolds; decide +kernel⟩

theorem witness_VpsadbwVex128Completes :
    start.feat.consistent = true ∧ zeroMem.feat.consistent = true
      ∧ (Enabled (.vpsadbwVex128C5 np ⟨false, 2⟩ ra) zeroMem
        ∧ VecSource .vex128 false (.vpsadbwVex128C5 np ⟨false, 2⟩ ra) zeroMem (0#128))
      ∧ (Enabled (.vpsadbwVex128C4 np vex0 rr) start
        ∧ VecSource .vex128 false (.vpsadbwVex128C4 np vex0 rr) start (start.readView 128 3)) := by
  refine ⟨rfl, rfl, ⟨enabled_zeroMem _, ?_⟩, ⟨enabled_start _ (formDefined_start _), rfl⟩⟩
  exact ⟨⟨by decide +kernel, (by intro h; cases h), by decide +kernel⟩, by unfold MemHolds; decide +kernel⟩

theorem witness_VpsadbwVex256Completes :
    start.feat.consistent = true ∧ zeroMem.feat.consistent = true
      ∧ (Enabled (.vpsadbwVex256C5 np ⟨false, 2⟩ ra) zeroMem
        ∧ VecSource .vex256 false (.vpsadbwVex256C5 np ⟨false, 2⟩ ra) zeroMem (0#256))
      ∧ (Enabled (.vpsadbwVex256C4 np vex0 rr) start
        ∧ VecSource .vex256 false (.vpsadbwVex256C4 np vex0 rr) start (start.readView 256 3)) := by
  refine ⟨rfl, rfl, ⟨enabled_zeroMem _, ?_⟩, ⟨enabled_start _ (formDefined_start _), rfl⟩⟩
  exact ⟨⟨by decide +kernel, (by intro h; cases h), by decide +kernel⟩, by unfold MemHolds; decide +kernel⟩

/-- The disp8 of 4 is scaled by 16. -/
theorem witness_VpsadbwEvex128Completes :
    zeroMem.feat.consistent = true ∧ Enabled (.vpsadbwEvex128 np evex0 (rsi 4)) zeroMem
      ∧ VecSource .evex128 false (.vpsadbwEvex128 np evex0 (rsi 4)) zeroMem (0#128) := by
  refine ⟨rfl, enabled_zeroMem _, ⟨by decide +kernel, (by intro h; cases h), by decide +kernel⟩, ?_⟩
  unfold MemHolds
  decide +kernel

/-- The disp8 of 2 is scaled by 32. -/
theorem witness_VpsadbwEvex256Completes :
    zeroMem.feat.consistent = true ∧ Enabled (.vpsadbwEvex256 np evex0 (rsi 2)) zeroMem
      ∧ VecSource .evex256 false (.vpsadbwEvex256 np evex0 (rsi 2)) zeroMem (0#256) := by
  refine ⟨rfl, enabled_zeroMem _, ⟨by decide +kernel, (by intro h; cases h), by decide +kernel⟩, ?_⟩
  unfold MemHolds
  decide +kernel

/-- The disp8 of 1 is scaled by 64; with a register operand `X` is bit 4 of its number. -/
theorem witness_VpsadbwEvex512Completes :
    start.feat.consistent = true ∧ zeroMem.feat.consistent = true
      ∧ (Enabled (.vpsadbwEvex512 np evex0 (rsi 1)) zeroMem
        ∧ VecSource .evex512 false (.vpsadbwEvex512 np evex0 (rsi 1)) zeroMem (0#512))
      ∧ (Enabled (.vpsadbwEvex512 np { evex0 with x := true } rr) start
        ∧ VecSource .evex512 true (.vpsadbwEvex512 np { evex0 with x := true } rr) start (start.readView 512 19)) := by
  refine ⟨rfl, rfl, ⟨enabled_zeroMem _, ⟨by decide +kernel, (by intro h; cases h), by decide +kernel⟩, ?_⟩,
    ⟨enabled_start _ (formDefined_start _), rfl⟩⟩
  unfold MemHolds
  decide +kernel

theorem witness_EveryInstructionKeepsTheRest : ∃ t, exec (.vpsadbwVex256C5 np ⟨false, 2⟩ ra) zeroMem = .next t :=
  next_of_see (by decide +kernel)

theorem witness_MmxFormsKeepOtherRegisters :
    (Instr.psadbwMm np ra).form = .mm ∧ (∃ t, exec (.psadbwMm np ra) mmMem = .next t) ∧ (7 : BitVec 3) ≠ ra.reg :=
  ⟨rfl, next_of_see (by decide +kernel), by decide⟩

theorem witness_VectorFormsKeepOtherRegisters :
    (Instr.vpsadbwEvex512 np evex0 rr).form ≠ .mm ∧ (∃ t, exec (.vpsadbwEvex512 np evex0 rr) start = .next t)
      ∧ (31 : BitVec 5) ≠ (Instr.vpsadbwEvex512 np evex0 rr).dest :=
  ⟨by decide, next_of_see (by decide +kernel), by decide⟩

/-- Each clause at its first bit: 128 of form 2, 128 of forms 3 and 5, 256 of forms 4 and 6. -/
theorem witness_UpperBitsOfDestination :
    ((∃ t, exec (.psadbwXmm np rr) start = .next t) ∧ 128 < maxvl start.feat)
      ∧ (∃ t, exec (.vpsadbwVex128C5 np ⟨false, 2⟩ rr) start = .next t)
      ∧ (∃ t, exec (.vpsadbwEvex128 np evex0 rr) start = .next t)
      ∧ (∃ t, exec (.vpsadbwVex256C5 np ⟨false, 2⟩ rr) start = .next t)
      ∧ ∃ t, exec (.vpsadbwEvex256 np evex0 rr) start = .next t :=
  ⟨⟨next_of_see (by decide +kernel), by decide⟩, next_of_see (by decide +kernel), next_of_see (by decide +kernel),
    next_of_see (by decide +kernel), next_of_see (by decide +kernel)⟩

/-- In `Mode32` the advance wraps at 2^32, in `Mode64` at 2^64. -/
theorem witness_InstructionPointerAdvances :
    see (fun t => t.ip) (exec (.psadbwMm np rr) { start32 with ip := 0xFFFFFFFE }) = some 1
      ∧ see (fun t => t.ip) (exec (.psadbwMm np rr) { start with ip := 0xFFFFFFFE }) = some 0x100000001
      ∧ see (fun t => t.ip) (exec (.psadbwMm np rr) { start with ip := 0xFFFFFFFFFFFFFFFE }) = some 1 := by decide +kernel

/-- Each clause, each constructor that it names: form 1, form 2 with registers 1 and (REX) 9, the VEX spellings, and the EVEX
forms with register 18. -/
theorem witness_SameRegisterGivesZero :
    ((∃ t, exec (.psadbwMm np ⟨3, .reg 3⟩) start = .next t) ∧ (ModRM.mk 3 (.reg 3)).rm = .reg 3)
      ∧ ([Instr.psadbwXmm np ⟨1, .reg 1⟩, .psadbwXmmRex np ⟨false, true, false, true⟩ ⟨1, .reg 1⟩].all fun i =>
          i.form == .xmm && i.src2 == some i.src1 && see (fun _ => ()) (exec i start) == some ()) = true
      ∧ 128 < maxvl start.feat
      ∧ ([Instr.vpsadbwVex128C5 np ⟨false, 2⟩ ⟨1, .reg 2⟩, .vpsadbwVex256C5 np ⟨false, 2⟩ ⟨1, .reg 2⟩,
          .vpsadbwVex128C4 np { vex0 with b := true, vvvv := 10 } ⟨1, .reg 2⟩,
          .vpsadbwVex256C4 np { vex0 with b := true, vvvv := 10 } ⟨1, .reg 2⟩,
          .vpsadbwEvex128 np { evex0 with x := true, vHi := true } ⟨1, .reg 2⟩,
          .vpsadbwEvex256 np { evex0 with x := true, vHi := true } ⟨1, .reg 2⟩,
          .vpsadbwEvex512 np { evex0 with x := true, vHi := true } ⟨1, .reg 2⟩].all fun i =>
          i.form != .mm && i.form != .xmm && i.src2 == some i.src1 && see (fun _ => ()) (exec i start) == some ()) = true :=
  ⟨⟨next_of_see (by decide +kernel), rfl⟩, by decide +kernel⟩

theorem witness_EvexAgreesWithVex :
    evex0.r = vex0.r ∧ evex0.b = vex0.b ∧ evex0.vvvv = vex0.vvvv ∧ evex0.x = false ∧ evex0.rHi = false ∧ evex0.vHi = false
      ∧ (∃ t, exec (.vpsadbwVex128C4 np vex0 rr) start = .next t) ∧ (∃ t, exec (.vpsadbwEvex128 np evex0 rr) start = .next t)
      ∧ (∃ t, exec (.vpsadbwVex256C4 np vex0 rr) start = .next t) ∧ ∃ t, exec (.vpsadbwEvex256 np evex0 rr) start = .next t :=
  ⟨rfl, rfl, rfl, rfl, rfl, rfl, next_of_see (by decide +kernel), next_of_see (by decide +kernel),
    next_of_see (by decide +kernel), next_of_see (by decide +kernel)⟩

/-- CF, PF, AF, ZF, SF and OF set, AC as it was. -/
theorem witness_FlagsAndMxcsrDoNotMatter :
    (0x8D7#32).getLsbD 18 = start.ctl.eflags.getLsbD 18 ∧ 0x8D7#32 ≠ start.ctl.eflags := by decide +kernel

/-- Alignment checking not enabled; and CR0.AM and EFLAGS.AC both set, from level 0 to level 2. -/
theorem witness_PrivilegeLevelDoesNotMatter :
    (start.ctl.cr0.getLsbD 18 = false ∧ (3 : BitVec 2) ≠ start.ctl.cpl)
      ∧ ({ start.ctl with cr0 := 0x40000, eflags := 0x40002 } : Ctl).cr0.getLsbD 18 = true
      ∧ ({ start.ctl with cr0 := 0x40000, eflags := 0x40002 } : Ctl).eflags.getLsbD 18 = true
      ∧ ((2 : BitVec 2) = 3 ↔ ({ start.ctl with cr0 := 0x40000, eflags := 0x40002 } : Ctl).cpl = 3)
      ∧ (2 : BitVec 2) ≠ start.ctl.cpl := by decide +kernel

theorem witness_RegisterOperandTouchesNoMemory : (Instr.psadbwXmm np rr).modrm.rm.isMem = false := by decide

/-- A register operand, an operand without SIB byte, `Mode64`, an operand that is no displacement alone. -/
theorem witness_IgnoredBitsDoNotMatter :
    rr.rm = .reg 3 ∧ ra.rm.hasSib = false ∧ start.mode = .mode64
      ∧ (Instr.vpsadbwVex128C5 np ⟨false, 2⟩ ra).modrm.rm.isDispOnly = false := by decide

/-- V-FLT-1 to V-FLT-8: for each form a missing flag or control bit, in an admitted state. -/
theorem witness_UndefinedOpcodeExactly :
    Admitted (.psadbwXmm np rr) { start with feat := { allFeatures with sse2 := false } }
      ∧ faultOf (exec (.psadbwMm np rr) { start with ctl := { start.ctl with cr0 := 4 } }) = some (.ud 0x1000)
      ∧ faultOf (exec (.psadbwXmm np rr) { start with feat := { allFeatures with sse2 := false } }) = some (.ud 0x1000)
      ∧ faultOf (exec (.psadbwXmm np rr) { start with ctl := { start.ctl with cr4 := 0x40000 } }) = some (.ud 0x1000)
      ∧ see (fun _ => ()) (exec (.psadbwMm np rr) { start with ctl := { start.ctl with cr4 := 0 } }) = some ()
      ∧ faultOf (exec (.vpsadbwVex128C5 np ⟨false, 2⟩ rr) { start with ctl := { start.ctl with xcr0 := 0xE2 } }) = some (.ud 0x1000)
      ∧ faultOf (exec (.vpsadbwVex256C5 np ⟨false, 2⟩ rr) { start with feat := { allFeatures with avx2 := false } }) = some (.ud 0x1000)
      ∧ faultOf (exec (.vpsadbwEvex128 np evex0 rr) { start with feat := { allFeatures with avx512vl := false } }) = some (.ud 0x1000)
      ∧ see (fun _ => ()) (exec (.vpsadbwEvex512 np evex0 rr) { start with feat := { allFeatures with avx512vl := false } }) = some ()
      ∧ faultOf (exec (.vpsadbwEvex512 np evex0 rr) { start with ctl := { start.ctl with xcr0 := 0x66 } }) = some (.ud 0x1000) := by
  refine ⟨⟨.inl rfl, by rintro ⟨h, -⟩; cases h⟩, ?_⟩
  decide +kernel

/-- The default state with another CR0 and another x87 pending bit. -/
def startCr0 (cr0 : BitVec 64) (pending : Bool) : State :=
  { start with ctl := { start.ctl with cr0 := cr0, x87Pending := pending } }

/-- V-FLT-9; V-FLT-10: #UD outranks #NM. -/
theorem witness_TaskSwitchedRaisesNM :
    (Admitted (.vpsadbwVex128C5 np ⟨false, 2⟩ rr) (startCr0 8 false) ∧ FormDefined .vex128 (startCr0 8 false)
        ∧ (startCr0 8 false).ctl.cr0.getLsbD 3 = true)
      ∧ faultOf (exec (.vpsadbwVex128C5 np ⟨false, 2⟩ rr) (startCr0 8 false)) = some (.nm 0x1000)
      ∧ faultOf (exec (.psadbwMm np rr) (startCr0 12 false)) = some (.ud 0x1000) :=
  ⟨⟨⟨.inl rfl, by rintro ⟨h, -⟩; cases h⟩, formDefined_start .vex128, by decide⟩, by decide +kernel, by decide +kernel⟩

/-- V-FLT-11. -/
theorem witness_PendingX87RaisesMF :
    (Admitted (.psadbwMm np rr) (startCr0 0 true) ∧ FormDefined .mm (startCr0 0 true)
        ∧ (startCr0 0 true).ctl.cr0.getLsbD 3 = false ∧ (startCr0 0 true).ctl.x87Pending = true)
      ∧ faultOf (exec (.psadbwMm np rr) (startCr0 0 true)) = some (.mf 0x1000)
      ∧ (Instr.psadbwXmm np rr).form ≠ .mm ∧ see (fun _ => ()) (exec (.psadbwXmm np rr) (startCr0 0 true)) = some () :=
  ⟨⟨⟨.inl rfl, by rintro ⟨h, -⟩; cases h⟩, ⟨rfl, by decide⟩, by decide, rfl⟩, by decide +kernel, by decide,
    by decide +kernel⟩

/-- The last address in range and the first out of range, for each clause. -/
theorem witness_AddressRangeCheckMeaning :
    inRange start 0x00007FFFFFFFFFF0 16 = true ∧ inRange start 0x00007FFFFFFFFFF0 17 = false
      ∧ inRange start 0xFFFF800000000000 64 = true
      ∧ inRange { start with vaBits := .bits57 } 0x00FFFFFFFFFFFFF0 16 = true
      ∧ inRange { start with vaBits := .bits57 } 0x00FFFFFFFFFFFFF0 17 = false
      ∧ inRange start32 0xFFFFFFF0 16 = true ∧ inRange start32 0xFFFFFFF0 17 = false := by decide +kernel

/-- An instruction is enabled in a state that has the default state's mode, flags and control registers. -/
theorem enabled_like_start (i : Instr) (s : State) (h1 : s.mode = .mode64) (h2 : s.feat = start.feat)
    (h3 : s.ctl = start.ctl) : Enabled i s := by
  refine ⟨⟨.inl h1, by rintro ⟨h, -⟩; rw [h1] at h; cases h⟩, ?_, by rw [h3]; decide +kernel, fun _ => by rw [h3]; rfl⟩
  have h := formDefined_start i.form
  cases hf : i.form <;> rw [hf] at h <;> simp only [FormDefined, h2, h3] at h ⊢ <;> exact h

/-- `PSADBW mm1, [rsp]` with RSP = 0000800000000000H (V-FLT-15). -/
def stackState : State := withGpr start 4 0x0000800000000000

def stackInstr : Instr := .psadbwMm np ⟨1, .mem (.sib 0 4 4 .none)⟩

theorem witness_StackSegmentRangeRaisesSS :
    Enabled stackInstr stackState ∧ stackInstr.memAddress stackState = some 0x0000800000000000
      ∧ stackInstr.throughSS stackState = true ∧ inRange stackState 0x0000800000000000 8 = false
      ∧ faultOf (exec stackInstr stackState) = some (.ss 0x1000) :=
  ⟨enabled_like_start _ _ rfl rfl rfl, by decide +kernel⟩

/-- V-FLT-14: a non-canonical address; then, as V-FLT-12, an address 8 off a multiple of 16. -/
theorem witness_RangeOrMisalignmentRaisesGP :
    (Enabled (.psadbwXmm np ra) (withGpr start 0 0x0000800000000000)
        ∧ (Instr.psadbwXmm np ra).memAddress (withGpr start 0 0x0000800000000000) = some 0x0000800000000000
        ∧ (Instr.psadbwXmm np ra).throughSS (withGpr start 0 0x0000800000000000) = false
        ∧ inRange (withGpr start 0 0x0000800000000000) 0x0000800000000000 16 = false
        ∧ faultOf (exec (.psadbwXmm np ra) (withGpr start 0 0x0000800000000000)) = some (.gp 0x1000))
      ∧ (Enabled (.psadbwXmm np ra) (withGpr start 0 0x2018)
        ∧ (Instr.psadbwXmm np ra).memAddress (withGpr start 0 0x2018) = some 0x2018
        ∧ inRange (withGpr start 0 0x2018) 0x2018 16 = true ∧ (0x2018 : Addr).toNat % 16 ≠ 0
        ∧ faultOf (exec (.psadbwXmm np ra) (withGpr start 0 0x2018)) = some (.gp 0x1000)) :=
  ⟨⟨enabled_like_start _ _ rfl rfl rfl, by decide +kernel⟩, enabled_like_start _ _ rfl rfl rfl, by decide +kernel⟩

/-- `VPSADBW xmm1, xmm2, [rsi+65]`: mapped, and not a multiple of 16. -/
def oddInstr : Instr := .vpsadbwVex128C5 np ⟨false, 2⟩ (rsi 0x41)

theorem witness_OnlyFormTwoNeedsAlignment :
    Enabled oddInstr zeroMem ∧ oddInstr.memAddress zeroMem = some 0x6041 ∧ inRange zeroMem 0x6041 16 = true
      ∧ zeroMem.ctl.alignmentChecking = false
      ∧ (∀ k, k < 16 → Memory.read zeroMem.mem ((0x6041 : Addr) + BitVec.ofNat 64 k).toNat ≠ none)
      ∧ oddInstr.form ≠ .xmm ∧ see (fun _ => ()) (exec oddInstr zeroMem) = some () :=
  ⟨enabled_zeroMem _, by decide +kernel⟩

/-- 31 bytes mapped from 3FE1H: the last byte of a 32-byte operand is the lowest unmapped one (V-FLT-16). -/
def edgeState : State := withMem (withGpr start 0 0x3FE1) 0x3FE1 (List.replicate 31 0)

theorem witness_UnmappedByteRaisesPF :
    Enabled (.vpsadbwVex256C5 np ⟨false, 2⟩ ra) edgeState
      ∧ (Instr.vpsadbwVex256C5 np ⟨false, 2⟩ ra).memAddress edgeState = some 0x3FE1 ∧ inRange edgeState 0x3FE1 32 = true
      ∧ (Instr.vpsadbwVex256C5 np ⟨false, 2⟩ ra).form ≠ .xmm
      ∧ (∀ j, j < 31 → Memory.read edgeState.mem ((0x3FE1 : Addr) + BitVec.ofNat 64 j).toNat ≠ none)
      ∧ Memory.read edgeState.mem ((0x3FE1 : Addr) + BitVec.ofNat 64 31).toNat = none
      ∧ (0x3FE1 : Addr).toNat + operandBytes (Instr.vpsadbwVex256C5 np ⟨false, 2⟩ ra).form ≤ 2 ^ 64
      ∧ faultOf (exec (.vpsadbwVex256C5 np ⟨false, 2⟩ ra) edgeState) = some (.pf 0x4000 0x1000) :=
  ⟨enabled_like_start _ _ rfl rfl rfl, by decide +kernel⟩

/-- Alignment checking on: CR0.AM, EFLAGS.AC, CPL 3. -/
def checked (s : State) : State := { s with ctl := { s.ctl with cr0 := 0x40000, eflags := 0x40002, cpl := 3 } }

/-- V-FLT-17, both halves. -/
theorem witness_AlignmentCheckOutcomes :
    (Enabled (.psadbwMm np ra) (checked mmMem) ∧ (Instr.psadbwMm np ra).memAddress (checked mmMem) = some 0x5003
        ∧ inRange (checked mmMem) 0x5003 8 = true ∧ (checked mmMem).ctl.cr0.getLsbD 18 = true
        ∧ (checked mmMem).ctl.eflags.getLsbD 18 = true ∧ (checked mmMem).ctl.cpl = 3 ∧ (0x5003 : Addr).toNat % 8 ≠ 0
        ∧ (∀ k, k < 8 → Memory.read (checked mmMem).mem ((0x5003 : Addr) + BitVec.ofNat 64 k).toNat ≠ none)
        ∧ faultOf (exec (.psadbwMm np ra) (checked mmMem)) = some (.ac 0x1000))
      ∧ (Enabled oddInstr (checked zeroMem) ∧ oddInstr.memAddress (checked zeroMem) = some 0x6041
        ∧ inRange (checked zeroMem) 0x6041 16 = true ∧ (0x6041 : Addr).toNat % 16 ≠ 0
        ∧ (∀ k, k < 16 → Memory.read (checked zeroMem).mem ((0x6041 : Addr) + BitVec.ofNat 64 k).toNat ≠ none)
        ∧ refusedOf (exec oddInstr (checked zeroMem)) = some .alignmentCheckEnabled) :=
  ⟨⟨⟨⟨.inl rfl, by rintro ⟨h, -⟩; cases h⟩, ⟨rfl, by decide⟩, by decide, fun _ => rfl⟩, by decide +kernel⟩,
    ⟨⟨.inl rfl, by rintro ⟨h, -⟩; cases h⟩, formDefined_start .vex128, by decide, fun _ => rfl⟩, by decide +kernel⟩

/-- A fault of an instruction, and one of a step (LOCK before form 1, R77). -/
theorem witness_FaultRecordOfInstruction :
    exec (.psadbwMm np rr) { start with ctl := { start.ctl with cr0 := 8 } } = .fault (.nm 0x1000)
      ∧ faultOf (run start [0xF0, 0x0F, 0xF6, 0xC1]) = some (.ud 0x1000) := ⟨rfl, by decide +kernel⟩

theorem witness_OtherModesAreRefused : State.reset.mode ≠ .mode64 ∧ State.reset.mode ≠ .mode32 := by decide

theorem witness_EffectiveAddress64 : start.mode = .mode64 := rfl

theorem witness_RipRelativeAddress : start.mode = .mode64 ∧ start32.mode = .mode32 := by decide

/-- Both ways to 32-bit address size, the no-index encoding, and a register file that differs in the upper halves only. -/
theorem witness_Address32UsesLowHalves :
    (start32.mode = .mode32 ∧ np.addrSize = false) ∧ (start.mode = .mode64 ∧ (Prefixes.mk none true).addrSize = true)
      ∧ effectiveAddress { start with ip := 0xFFFFFFFF } .xmm ⟨none, true⟩ false false 9 (.dispOnly 0xFFFFFFFF) = 7
      ∧ effectiveAddress (withGpr start32 3 0x1FFFFFFF0) .xmm np false false 5 (.sib 2 3 3 (.disp8 0x20)) = 0xFFFFFFD0
      ∧ (∀ k : Fin 16, ((withGpr start 0 0x100000000).gpr[k]).setWidth 32 = (start.gpr[k]).setWidth 32) := by decide +kernel

/-- A well-formed term of every constructor in `Mode64`, and of those without REX in `Mode32`. -/
theorem witness_DecodeReadsBackEncode :
    (memoryForms.all fun i => i.wf .mode64) = true ∧ (Instr.psadbwMm np ra).wf .mode32 = true
      ∧ (Instr.vpsadbwEvex512 ⟨some .ss, false⟩ evex0 ra).wf .mode32 = true := by decide

/-- An accepted word, and one whose prefix bytes stand in another order than the encoder's. -/
theorem witness_DecodedInstructionIsWellFormed :
    decode .mode32 [0x36, 0xC5, 0xE9, 0xF6, 0xCB] = .instr (.vpsadbwVex128C5 ⟨some .ss, false⟩ ⟨false, 2⟩ ⟨1, .reg 3⟩)
      ∧ decode .mode64 [0x66, 0x67, 0x0F, 0xF6, 0x00] = .instr (.psadbwXmm ⟨none, true⟩ ⟨0, .mem (.base 0 .none)⟩)
      ∧ (Instr.psadbwXmm ⟨none, true⟩ ⟨0, .mem (.base 0 .none)⟩).prefixBytes = [0x67, 0x66] := by
  decide

theorem witness_LockAndRepPrefixes :
    (Instr.psadbwXmm np rr).wf .mode64 = true ∧ (Instr.psadbwXmm np rr).form = .xmm
      ∧ (Instr.vpsadbwEvex512 np evex0 ra).wf .mode64 = true := by decide

theorem witness_PrefixBeforeVexIsIllegal :
    (Instr.vpsadbwVex128C5 np ⟨false, 2⟩ rr).wf .mode64 = true ∧ (Instr.vpsadbwVex128C5 np ⟨false, 2⟩ rr).form ≠ .mm
      ∧ (Instr.vpsadbwVex128C5 np ⟨false, 2⟩ rr).form ≠ .xmm
      ∧ (Instr.vpsadbwVex128C5 np ⟨false, 2⟩ rr).prefixes = { seg := none, addrSize := false }
      ∧ (0x48#8).extractLsb' 4 4 = 4 := by decide

/-- Each of the six alternatives, the other fields being this instruction's, with a register and a memory operand; the other
premises in both modes. -/
theorem witness_IllegalEvexFieldsAreUD :
    (0xF1#8).extractLsb' 0 3 = 1 ∧ (0xF9#8).extractLsb' 0 3 = 1 ∧ (0x6D#8).extractLsb' 0 2 = 1 ∧ (0x69#8).extractLsb' 0 2 = 1
      ∧ rr.rm.wf = true ∧ ra.rm.wf = true ∧ (0xF9#8).getLsbD 3 = true ∧ (0x69#8).getLsbD 2 = false
      ∧ (0xC8#8).getLsbD 7 = true ∧ (0x58#8).getLsbD 4 = true ∧ (0x49#8).extractLsb' 0 3 ≠ 0 ∧ (0x68#8).extractLsb' 5 2 = 3
      ∧ (Prefixes.mk (some .ss) false).wf32 ra.rm = true ∧ (0xF1#8).extractLsb' 4 4 = 15 ∧ (0x6D#8).getLsbD 6 = true
      ∧ (0x58#8).getLsbD 3 = true := by decide

theorem witness_Mode32OlderInstructions : (0x69#8).extractLsb' 6 2 ≠ 3 ∧ (0xBF#8).extractLsb' 6 2 ≠ 3 := by decide

/-- Both modes, a sequence of prefix bytes with and without `66`, a REX byte, and for each clause bytes that meet it: `C5` with
another `pp`, `C4` with another map, `pp` or opcode byte, `62` likewise. -/
theorem witness_OtherBytesAreNotInSlice :
    (Mode.mode64.supported = true ∧ Mode.mode32.supported = true)
      ∧ (AcceptedPrefixes [0x66, 0x2E, 0xF0, 0x67] ∧ AcceptedPrefixes [0x2E, 0x67]) ∧ (∃ x : Rex, [0x48#8] = [x.encode])
      ∧ ((0x90#8) ∉ acceptedBytes ∧ (0x90#8) ∉ [0x64#8, 0x65, 0x0F, 0xC4, 0xC5, 0x62] ∧ (0x90#8).extractLsb' 4 4 ≠ 4)
      ∧ (0xF7#8) ≠ 0xF6
      ∧ ((0x66#8) ∉ [0x2E#8, 0x67] ∧ (0xF2#8) ∉ [0x2E#8, 0x67] ∧ (0xF3#8) ∉ [0x2E#8, 0x67] ∧ (0xF0#8) ∉ [0x2E#8, 0x67])
      ∧ (0xEA#8).extractLsb' 0 2 ≠ 1 ∧ (0xE2#8).extractLsb' 0 5 ≠ 1
      ∧ ((0xF2#8).getLsbD 3 = false ∧ (0x6D#8).getLsbD 2 = true ∧ (0xF2#8).extractLsb' 0 3 ≠ 1
        ∧ (0x6E#8).getLsbD 2 = true ∧ (0x6E#8).extractLsb' 0 2 ≠ 1) :=
  ⟨by decide, by unfold AcceptedPrefixes; decide, ⟨⟨true, false, false, false⟩, by decide⟩, by decide⟩

/-- A sequence of the most prefix bytes, and for each clause bytes that meet it. -/
theorem witness_RefusedPrefixSequences :
    (Mode.mode64.supported = true ∧ Mode.mode32.supported = true)
      ∧ AcceptedPrefixes [0x66, 0x2E, 0xF2, 0xF3, 0xF0, 0x67] ∧ AcceptedPrefixes [0x66, 0x2E, 0x67]
      ∧ (0x66#8) ∈ [0x66#8, 0x2E, 0x67] ∧ ((0x26#8) ∈ segBytes ∧ (0x2E#8) ∈ segBytes ∧ (0x2E#8) ∈ [0x66#8, 0x2E, 0x67])
      ∧ ((0x48#8).extractLsb' 4 4 = 4 ∧ (0x66#8) ∈ acceptedBytes)
      ∧ ((0x67#8) ∈ [0x66#8, 0x2E, 0x67] ∧ (0xF0#8) ∉ [0x66#8, 0x2E, 0x67] ∧ (0xF2#8) ∉ [0x66#8, 0x2E, 0x67]
        ∧ (0xF3#8) ∉ [0x66#8, 0x2E, 0x67])
      ∧ ((Instr.psadbwMm np ra).wf .mode32 = true ∧ (Instr.psadbwMm np ra).prefixes = { seg := none, addrSize := false }
        ∧ (Instr.psadbwMm np ra).modrm.rm.isMem = true ∧ (Instr.psadbwMm np ra).form = .mm)
      ∧ ((Instr.vpsadbwEvex512 np evex0 ra).wf .mode32 = true ∧ (0x66#8) ∉ [0x2E#8, 0x67])
      ∧ AcceptedPrefixes [0x2E, 0x67] := by
  unfold AcceptedPrefixes
  decide

/-- `B~ = 0` after `C4`, `V'~ = 0` after `62` (V-REJ-14). -/
theorem witness_Mode32ExtensionBitsRefused :
    ({ vex0 with b := true }).r = false ∧ ({ vex0 with b := true }).x = false ∧ ({ vex0 with b := true }).wf32 = false
      ∧ ({ evex0 with vHi := true }).r = false ∧ ({ evex0 with vHi := true }).x = false
      ∧ ({ evex0 with vHi := true }).wf32 = false := by decide

theorem witness_StepRunsDecodedInstruction :
    decode (start.place [0x0F, 0xF6, 0xC1]).mode (start.place [0x0F, 0xF6, 0xC1]).fetchBytes
      = .instr (.psadbwMm np ⟨0, .reg 1⟩) := by decide +kernel

theorem witness_StepFaultsOnIllegalEncodings :
    faultOf (run start [0xF0, 0x0F, 0xF6, 0x00]) = some (.ud 0x1000)
      ∧ faultOf (run start [0xF0, 0x66, 0xF2, 0xF3, 0x2E, 0x67, 0x62, 0xF1, 0x6D, 0x48, 0xF6, 0x8C, 0x8B, 0, 0, 0, 0])
        = some (.gp 0x1000) := by decide +kernel

theorem witness_LaunchedProgramRuns :
    decode .mode64 [0x0F, 0xF6, 0xC1] = .instr (.psadbwMm np ⟨0, .reg 1⟩) ∧ 0xFFF0 + [0x0F, 0xF6, 0xC1].length ≤ 2 ^ 47 := by
  decide

theorem witness_NoStepAtCodeEnd :
    ({ start.place [0x0F, 0xF6, 0xC1] with ip := 0x1003 } : State).mode.supported = true
      ∧ ({ start.place [0x0F, 0xF6, 0xC1] with ip := 0x1003 } : State).final = true := by decide +kernel

/-- The default state with a text that starts at an address. -/
def textAt (a : Addr) (code : List Byte) : State := ({ start with ip := a }).place code

/-- R15, at the first non-canonical address: an instruction before it runs, one that reaches it or starts there is refused. -/
theorem test_non_canonical_fetch :
    see (fun t => t.ip) (step (textAt 0x00007FFFFFFFFFFD [0x0F, 0xF6, 0xC1, 0x90])) = some 0x0000800000000000
      ∧ refusedOf (step (textAt 0x00007FFFFFFFFFFE [0x0F, 0xF6, 0xC1])) = some .nonCanonicalFetch
      ∧ refusedOf (step (textAt 0x0000800000000000 [0x0F, 0xF6, 0xC1])) = some .nonCanonicalFetch
      ∧ refusedOf (step (textAt 0x00007FFFFFFFFFFE [0x0F, 0xF6])) = some .fetchOutsideCode
      ∧ see (fun t => t.ip) (step (textAt 0xFFFF800000000000 [0x0F, 0xF6, 0xC1])) = some 0xFFFF800000000003 := by
  decide +kernel

/-- `ip` one below the text; a text of the first two bytes of a three-byte instruction; one whose third byte is not at a
canonical address; an `ip` that is not canonical; and an instruction that ends below the first such address. -/
theorem witness_TextMustHoldWholeInstruction :
    (({ start.place [0x0F, 0xF6, 0xC1] with ip := 0xFFF } : State).ip.toNat
        < ({ start.place [0x0F, 0xF6, 0xC1] with ip := 0xFFF } : State).codeBase.toNat)
      ∧ decode start.mode [0x0F, 0xF6, 0xC1] = .instr (.psadbwMm np ⟨0, .reg 1⟩) ∧ 2 < (Instr.psadbwMm np ⟨0, .reg 1⟩).len
      ∧ ((start.place [0x0F, 0xF6]).fetchBytes = [0x0F#8, 0xF6, 0xC1].take 2
        ∧ (start.place [0x0F, 0xF6]).textBytes = [0x0F#8, 0xF6, 0xC1].take 2)
      ∧ ((textAt 0x00007FFFFFFFFFFE [0x0F, 0xF6, 0xC1]).fetchBytes = [0x0F#8, 0xF6, 0xC1].take 2
        ∧ (textAt 0x00007FFFFFFFFFFE [0x0F, 0xF6, 0xC1]).textBytes ≠ [0x0F#8, 0xF6, 0xC1].take 2)
      ∧ ((textAt 0x0000800000000000 [0x0F]).mode = .mode64 ∧ (textAt 0x0000800000000000 [0x0F]).textBytes ≠ []
        ∧ inRange (textAt 0x0000800000000000 [0x0F]) 0x0000800000000000 1 = false)
      ∧ decode .mode64 (textAt 0x00007FFFFFFFFFFD [0x0F, 0xF6, 0xC1, 0x90]).fetchBytes
        = .instr (.psadbwMm np ⟨0, .reg 1⟩) := by decide +kernel

/-- A run of one step. -/
theorem witness_RunKeepsLaunchParameters :
    ∃ t, Host.Core.run Sys2Proof.core 1 (start.place [0x0F, 0xF6, 0xC1]) = .next t := by
  obtain ⟨t, h⟩ := next_of_see (r := step (start.place [0x0F, 0xF6, 0xC1])) (by decide +kernel)
  exact ⟨t, by simp only [Host.Core.run, Sys2Proof.core, h]⟩

theorem witness_RunsEndWithinTheText :
    (∃ t, Host.Core.run Sys2Proof.core 1 (start.place [0x0F, 0xF6, 0xC1]) = .next t) ∧ 0 < 1 :=
  ⟨witness_RunKeepsLaunchParameters, by decide⟩

theorem witness_StepKeepsInvariant :
    (start.place [0xC5, 0xE9, 0xF6, 0xCB]).Inv ∧ ∃ t, step (start.place [0xC5, 0xE9, 0xF6, 0xCB]) = .next t := by
  have hz : ∀ i : BitVec 5, (start.place [0xC5, 0xE9, 0xF6, 0xCB]).readVec i = 0 := by decide +kernel
  exact ⟨⟨rfl, fun i j _ => by rw [hz]; simp, fun _ i _ => hz i, fun h => (by cases h), by simp [Memory.wf, State.place, start, State.boot, State.reset]⟩,
    next_of_see (by decide +kernel)⟩

theorem witness_PowerUpAndBootedControlBits :
    (Admitted (.psadbwXmm np rr) { start with ctl := State.reset.ctl } ∧ (Instr.psadbwXmm np rr).form ≠ .mm
        ∧ faultOf (exec (.psadbwXmm np rr) { start with ctl := State.reset.ctl }) = some (.ud 0x1000))
      ∧ (State.reset.feat = allFeatures ∧ Admitted (.vpsadbwEvex512 np evex0 ra) State.reset.boot) :=
  ⟨⟨⟨.inl rfl, by rintro ⟨h, -⟩; cases h⟩, by decide, by decide +kernel⟩, rfl, .inl rfl, by rintro ⟨h, -⟩; cases h⟩

end Sys2Proof.Tests
end

section
/-! PROOFS. What an instruction does with EFLAGS and MXCSR (spec/10_state.md R16): it reads EFLAGS.AC alone, in the #AC check
of R38, and writes neither register. -/

namespace Sys2Proof.Machine

/-- The state with other values of EFLAGS and MXCSR. -/
def State.withFlags (s : State) (fl mx : BitVec 32) : State :=
  { s with ctl := { s.ctl with eflags := fl }, mxcsr := mx }

/-! ### What sees another EFLAGS or MXCSR -/

/-- No check of R122 to R124 reads a flag. -/
theorem formChecks_withFlags (s : State) (fl mx : BitVec 32) (f : Form) (p : Prefixes) (rm : RmOperand) :
    formChecks f p rm (s.withFlags fl mx) = formChecks f p rm s := by
  cases f <;> rfl

/-- The enabling condition of R38 reads no flag but AC. -/
theorem alignmentChecking_withFlags (s : State) (fl mx : BitVec 32) (hac : fl.getLsbD 18 = s.ctl.eflags.getLsbD 18) :
    (s.withFlags fl mx).ctl.alignmentChecking = s.ctl.alignmentChecking := by
  simp only [Ctl.alignmentChecking, Ctl.am, Ctl.ac, State.withFlags, hac]

/-- A load sees the flags through the enabling condition of R38 alone. -/
theorem loadOperand_withFlags (s : State) (fl mx : BitVec 32) (hac : fl.getLsbD 18 = s.ctl.eflags.getLsbD 18)
    (f : Form) (ss : Bool) (la : Addr) :
    loadOperand (s.withFlags fl mx) f ss la = loadOperand s f ss la := by
  simp only [loadOperand, alignmentChecking_withFlags s fl mx hac]
  rfl

/-- No part of an operand's address reads a flag. -/
theorem effectiveAddress_withFlags (s : State) (fl mx : BitVec 32) (f : Form) (p : Prefixes) (x b : Bool) (len : Nat)
    (m : MemForm) :
    effectiveAddress (s.withFlags fl mx) f p x b len m = effectiveAddress s f p x b len m := by
  cases m <;> rfl

theorem readMemOperand_withFlags (s : State) (fl mx : BitVec 32) (hac : fl.getLsbD 18 = s.ctl.eflags.getLsbD 18)
    (f : Form) (p : Prefixes) (x b : Bool) (len : Nat) (m : MemForm) :
    readMemOperand (s.withFlags fl mx) f p x b len m = readMemOperand s f p x b len m := by
  simp only [readMemOperand, effectiveAddress_withFlags, loadOperand_withFlags s fl mx hac]
  rfl

/-- With AC as it was, other flags and another MXCSR pass through every instruction. -/
theorem exec_withFlags (s : State) (fl mx : BitVec 32) (hac : fl.getLsbD 18 = s.ctl.eflags.getLsbD 18) (i : Instr) :
    exec i (s.withFlags fl mx) = mapNext (·.withFlags fl mx) (exec i s) :=
  exec_mapNext (·.withFlags fl mx) s (formChecks_withFlags s fl mx) (readMemOperand_withFlags s fl mx hac) rfl rfl
    (fun _ _ _ => rfl) (fun _ _ _ => rfl) i

/-! ### Frame -/

/-- A completed instruction leaves every control bit, the flags among them, and MXCSR as they were. -/
theorem exec_keeps_ctl_mxcsr {i : Instr} {s t : State} (h : exec i s = .next t) :
    t.ctl = s.ctl ∧ t.mxcsr = s.mxcsr := by
  obtain ⟨-, v, rfl⟩ | ⟨-, v, rfl⟩ := exec_next_shape i s t h
  · exact ⟨rfl, rfl⟩
  · exact ⟨rfl, rfl⟩

/-- Settles O20: every instruction commutes with a change of EFLAGS (AC apart) and MXCSR, and keeps both. -/
theorem flagsAndMxcsrDoNotMatter : Obligations.FlagsAndMxcsrDoNotMatter := by
  intro i s fl mx hac
  refine ⟨exec_withFlags s fl mx hac i, fun t h => ?_⟩
  obtain ⟨hctl, hmxcsr⟩ := exec_keeps_ctl_mxcsr h
  exact ⟨by rw [hctl], hmxcsr⟩

end Sys2Proof.Machine
end

section
/-! PROOFS. The effective address (spec/30_encoding.md R63, R64, R67): what the address size does to the sum of R62, the form
with a displacement alone, and the scaled displacement. -/

namespace Sys2Proof.Machine

/-! ### Address size -/

/-- With 64-bit address size the address is the sum of R62 itself. -/
theorem effectiveAddress_of_addr64 {s : State} {p : Prefixes} (h : addr32 s.mode p = false) (f : Form) (x b : Bool)
    (len : Nat) (m : MemForm) :
    effectiveAddress s f p x b len m = addressSum s false x b (dispScale f) len m := by
  simp [effectiveAddress, h]

/-- With 32-bit address size the address is the low half of that sum, zero-extended. -/
theorem effectiveAddress_of_addr32 {s : State} {p : Prefixes} (h : addr32 s.mode p = true) (f : Form) (x b : Bool)
    (len : Nat) (m : MemForm) :
    effectiveAddress s f p x b len m = ((addressSum s true x b (dispScale f) len m).setWidth 32).setWidth 64 := by
  simp [effectiveAddress, h]

/-! ### A displacement alone -/

theorem State.nextIp_of_mode64 {s : State} (h : s.mode = .mode64) (len : Nat) :
    s.nextIp len = s.ip + BitVec.ofNat 64 len := by
  simp [State.nextIp, advanceAddr, h]

theorem addressSum_dispOnly_of_mode64 {s : State} (h : s.mode = .mode64) (a32 x b : Bool) (n len : Nat) (d : BitVec 32) :
    addressSum s a32 x b n len (.dispOnly d) = s.ip + BitVec.ofNat 64 len + d.signExtend 64 := by
  rw [addressSum, if_pos h, State.nextIp_of_mode64 h]

theorem addressSum_dispOnly_of_mode32 {s : State} (h : s.mode = .mode32) (a32 x b : Bool) (n len : Nat) (d : BitVec 32) :
    addressSum s a32 x b n len (.dispOnly d) = d.signExtend 64 :=
  if_neg (by simp [h])

/-- The sign extension of a displacement is cut off again by 32-bit address size. -/
theorem setWidth_signExtend_disp (d : BitVec 32) : (d.signExtend 64).setWidth 32 = d := by
  ext i hi
  have h64 : i < 64 := by omega
  rw [BitVec.getElem_setWidth, BitVec.getLsbD_signExtend]
  simp [hi, h64]

/-- Settles O36: in Mode64 the address size is 64 bits and the sum is relative to the next instruction; in Mode32 it is 32
bits and leaves the low half of the sign-extended displacement. -/
theorem ripRelativeAddress : Obligations.RipRelativeAddress := by
  intro s f seg x b len d
  refine ⟨fun h64 => ?_, fun h32 => ?_⟩
  · rw [effectiveAddress_of_addr64 (by simp [addr32, h64]), addressSum_dispOnly_of_mode64 h64]
  · rw [effectiveAddress_of_addr32 (by simp [addr32, h32]), addressSum_dispOnly_of_mode32 h32, setWidth_signExtend_disp]

/-! ### Scaled displacement -/

/-- An 8-bit displacement with `N = 1` is not scaled. -/
theorem dispValue_one_disp8 (d : BitVec 8) : dispValue 1 (.disp8 d) = d.signExtend 64 :=
  BitVec.mul_one _

/-- Settles O38: `N` is read off the form, and multiplying by it does nothing for the legacy and VEX forms. -/
theorem compressedDisplacement : Obligations.CompressedDisplacement := by
  refine ⟨fun d => ⟨rfl, rfl, rfl, ?_⟩, fun _ _ => rfl⟩
  have unscaled := dispValue_one_disp8 d
  exact ⟨unscaled, unscaled, unscaled, unscaled⟩

end Sys2Proof.Machine
end

section
/-! PROOFS. The shared arithmetic (spec/40_sad_core.md R90 to R92): one absolute difference, the sum of a group as a
word, and the groups of the packed result. -/

namespace Sys2Proof.Machine

/-! ### One absolute difference -/

theorem ad_of_le {x y : Byte} (h : y.toNat ≤ x.toNat) : ad x y = x.toNat - y.toNat := by
  unfold ad
  omega

/-- Settles O1: one order of the bytes is a natural subtraction, the other follows by symmetry. -/
theorem absoluteDifferenceOfUnsignedBytes : Obligations.AbsoluteDifferenceOfUnsignedBytes :=
  fun x y => ⟨ad_of_le, fun h => (ad_comm x y).trans (ad_of_le h), ad_le x y, ad_comm x y⟩

/-! ### The sum of a group -/

theorem sad8_eq_sum (a b : BitVec 64) :
    sad8 a b = ((List.range 8).map fun i => ad (byteOf a i) (byteOf b i)).sum := by
  simp [sad8, List.range_succ, Nat.add_assoc]

/-- The sum fits in 11 bits (R91). -/
theorem sad8_lt_two_pow_eleven (a b : BitVec 64) : sad8 a b < 2 ^ 11 :=
  (sad8_le a b).trans_lt (by decide)

/-- The result word keeps the value of the sum. -/
theorem toNat_ofNat_sad8 (a b : BitVec 64) : (BitVec.ofNat 16 (sad8 a b)).toNat = sad8 a b :=
  Nat.mod_eq_of_lt ((sad8_lt_two_pow_eleven a b).trans (by decide))

/-- Settles O2: the bound 2040 lies below `2 ^ 11`, so the word keeps the sum and has no bit from bit 11 up. -/
theorem groupSumFitsElevenBits : Obligations.GroupSumFitsElevenBits := by
  refine fun a b => ⟨sad8_eq_sum a b, sad8_le a b, toNat_ofNat_sad8 a b, fun j hj => ?_⟩
  have hlt : sad8 a b < 2 ^ j := (sad8_lt_two_pow_eleven a b).trans_le (Nat.pow_le_pow_right (by decide) hj)
  rw [BitVec.getLsbD, toNat_ofNat_sad8]
  exact Nat.testBit_lt_two_pow hlt

/-! ### The groups of the packed result -/

/-- Bits that lie within group `g` can be read from the group. -/
theorem extractLsb'_group {n s w : Nat} (v : BitVec n) (g : Nat) (h : s + w ≤ 64) :
    (group v g).extractLsb' s w = v.extractLsb' (64 * g + s) w := by
  apply BitVec.eq_of_getLsbD_eq
  intro i hi
  have hlt : s + i < 64 := by omega
  simp [group, hi, hlt, Nat.add_assoc]

/-- Packing puts each group where it can be read back. -/
theorem group_packGroups {n k : Nat} (f : Nat → BitVec 64) (hk : 64 * k ≤ n) {g : Nat} (hg : g < k) :
    group (packGroups n f k) g = f g := by
  apply BitVec.eq_of_getLsbD_eq
  intro i hi
  have hbound : 64 * g + i < 64 * k := by omega
  have hdiv : (64 * g + i) / 64 = g := by omega
  have hmod : (64 * g + i) % 64 = i := by omega
  rw [group, BitVec.getLsbD_extractLsb', getLsbD_packGroups n k f hk, hdiv, hmod]
  simp [hi, hbound]

/-- Groups do not interact (R92): group `g` of the result comes from group `g` of the sources, at every width. -/
theorem group_sadvec {n : Nat} (a b : BitVec n) {g : Nat} (hg : g < n / 64) :
    group (sadvec n a b) g = sadGroup (group a g) (group b g) :=
  group_packGroups _ (Nat.mul_div_le n 64) hg

theorem sadGroup_low (a b : BitVec 64) : (sadGroup a b).extractLsb' 0 16 = BitVec.ofNat 16 (sad8 a b) :=
  BitVec.extractLsb'_append_eq_right

theorem sadGroup_high (a b : BitVec 64) : (sadGroup a b).extractLsb' 16 48 = 0 :=
  BitVec.extractLsb'_append_eq_left

/-- Settles O3: both parts of a group are read from the group itself, which is the sum under 48 zero bits. -/
theorem packedResultPerGroup : Obligations.PackedResultPerGroup := by
  intro n _ a b g hg
  constructor
  · calc (sadvec n a b).extractLsb' (64 * g) 16
      _ = (group (sadvec n a b) g).extractLsb' 0 16 := (extractLsb'_group _ g (by decide : 0 + 16 ≤ 64)).symm
      _ = BitVec.ofNat 16 (sad8 (group a g) (group b g)) := by rw [group_sadvec a b hg, sadGroup_low]
  · calc (sadvec n a b).extractLsb' (64 * g + 16) 48
      _ = (group (sadvec n a b) g).extractLsb' 16 48 := (extractLsb'_group _ g (by decide : 16 + 48 ≤ 64)).symm
      _ = 0 := by rw [group_sadvec a b hg, sadGroup_high]

end Sys2Proof.Machine
end

section
/-! PROOFS. The checks before the operand is read, and the range check of the operand (spec/60_exceptions.md R123 to R125):
which faults each part of an instruction can raise, and the one that an instruction raises. -/

namespace Sys2Proof.Machine

/-! ### The faults that each part can raise -/

/-- The checks fault with `#UD` or `#NM`, or for form 1 with `#MF`, at the instruction's address. -/
theorem formChecks_eq_fault {f : Form} {p : Prefixes} {rm : RmOperand} {s : State} {e : Fault}
    (h : formChecks f p rm s = .fault e) : e = .ud s.ip ∨ e = .nm s.ip ∨ f = .mm ∧ e = .mf s.ip := by
  simp only [formChecks, raise_eq] at h
  split at h
  · cases h
  split at h
  · cases h
  split at h
  · cases h; exact .inl rfl
  split at h
  · cases h; exact .inr (.inl rfl)
  split at h
  · next hmf =>
    cases h
    have hf : f = .mm := of_decide_eq_true (Bool.and_eq_true_iff.1 hmf).1
    exact .inr (.inr ⟨hf, rfl⟩)
  · cases h

/-- A load faults with `#SS`, `#GP`, `#PF` or `#AC`, at the instruction's address. -/
theorem loadOperand_eq_fault {s : State} {f : Form} {ss : Bool} {la : Addr} {e : Fault}
    (h : loadOperand s f ss la = .fault e) :
    e = .ss s.ip ∨ e = .gp s.ip ∨ (∃ a, e = .pf a s.ip) ∨ e = .ac s.ip := by
  simp only [loadOperand, raise_eq] at h
  split at h
  · split at h <;> cases h
    · exact .inl rfl
    · exact .inr (.inl rfl)
  split at h
  · cases h; exact .inr (.inl rfl)
  split at h
  · next a _ => cases h; exact .inr (.inr (.inl ⟨a, rfl⟩))
  split at h
  · split at h <;> cases h
    exact .inr (.inr (.inr rfl))
  · cases h

/-- A chain whose second part always answers faults as its first part does. -/
theorem eq_fault_of_andThen_next {α β : Type} {r : Result α} {g : α → β} {e : Fault}
    (h : andThen r (fun x => .next (g x)) = .fault e) : r = .fault e := by
  cases r <;> cases h
  rfl

/-- An instruction faults as its checks fault, or as the load of its memory operand does. -/
theorem exec_eq_fault {i : Instr} {s : State} {e : Fault} (h : exec i s = .fault e) :
    formChecks i.form i.prefixes i.modrm.rm s = .fault e
      ∨ ∃ la, loadOperand s i.form (i.throughSS s) la = .fault e := by
  cases hc : formChecks i.form i.prefixes i.modrm.rm s with
  | fault e' =>
    cases (exec_of_checks_fault i s e' hc).symm.trans h
    exact .inl rfl
  | refused r => cases (exec_of_checks_refused i s r hc).symm.trans h
  | next u =>
    cases hrm : i.modrm.rm with
    | reg r =>
      obtain ⟨t, ht⟩ := exec_of_reg i s r hrm hc
      cases ht.symm.trans h
    | mem a =>
      obtain ⟨g, hg⟩ := exec_of_mem i s a hrm hc
      exact .inr ⟨_, eq_fault_of_andThen_next (hg.symm.trans h)⟩

/-! ### `#NM` and `#MF` -/

/-- Settles O25: with `#UD` excluded, the next check of an admitted instruction is the one of CR0.TS. -/
theorem taskSwitchedRaisesNM : Obligations.TaskSwitchedRaisesNM := by
  intro i s hadm hdef hts
  apply exec_of_checks_fault
  rw [formChecks_of_admitted i s hadm, if_neg (not_not_intro hdef), if_pos hts]

/-- Only form 1 raises `#MF`: the checks raise it for no other form, and a load never does. -/
theorem exec_ne_mf {i : Instr} {s : State} {a : Addr} (hf : i.form ≠ .mm) : exec i s ≠ .fault (.mf a) := by
  intro h
  rcases exec_eq_fault h with hc | ⟨la, hl⟩
  · rcases formChecks_eq_fault hc with he | he | ⟨hmm, -⟩
    · cases he
    · cases he
    · exact hf hmm
  · rcases loadOperand_eq_fault hl with he | he | ⟨b, he⟩ | he <;> cases he

/-- Settles O26: for form 1 the check after `#UD` and `#NM` is the one of the pending exception; `exec_ne_mf` is the other
half. -/
theorem pendingX87RaisesMF : Obligations.PendingX87RaisesMF := by
  refine ⟨fun i s hf hadm hdef hts hpend => ?_, fun i s a hf => exec_ne_mf hf⟩
  apply exec_of_checks_fault
  have hdef' : FormDefined i.form s := hf ▸ hdef
  rw [formChecks_of_admitted i s hadm, if_neg (not_not_intro hdef'), if_neg (ne_true_of_eq_false hts),
    if_pos ⟨hf, hpend⟩]

/-! ### The range check -/

/-- The range check of R35 comes first among the checks of a load; the segment decides between `#SS` and `#GP`. -/
theorem loadOperand_of_not_inRange {s : State} {f : Form} {la : Addr} (h : inRange s la (operandBytes f) = false)
    (ss : Bool) : loadOperand s f ss la = .fault (if ss then .ss s.ip else .gp s.ip) := by
  cases ss <;> simp [loadOperand, h]

/-- Settles O28: the load of an enabled instruction decides, and its range check faults with `#SS`. -/
theorem stackSegmentRangeRaisesSS : Obligations.StackSegmentRangeRaisesSS := by
  intro i s la hen hla hss hrange
  obtain ⟨g, hg⟩ := exec_of_memAddress i s la hen hla
  refine ⟨?_, rfl⟩
  rw [hg, loadOperand_of_not_inRange hrange, hss]
  rfl

end Sys2Proof.Machine
end

section
/-! PROOFS. The privilege level (spec/60_exceptions.md R136): an instruction reads it in the #AC enabling condition of R38
alone, and writes neither it nor the mode. -/

namespace Sys2Proof.Machine

/-- The state at another privilege level. -/
def State.withCpl (s : State) (c : BitVec 2) : State :=
  { s with ctl := { s.ctl with cpl := c } }

/-! ### What sees another privilege level -/

/-- No check of R122 to R124 reads the privilege level. -/
theorem formChecks_withCpl (s : State) (c : BitVec 2) (f : Form) (p : Prefixes) (rm : RmOperand) :
    formChecks f p rm (s.withCpl c) = formChecks f p rm s := by
  cases f <;> rfl

/-- The enabling condition of R38 is the same at two levels of which both or neither are 3, and at any two with CR0.AM or
EFLAGS.AC clear. -/
theorem alignmentChecking_withCpl (s : State) (c : BitVec 2)
    (hc : s.ctl.cr0.getLsbD 18 = true → s.ctl.eflags.getLsbD 18 = true → (c = 3 ↔ s.ctl.cpl = 3)) :
    (s.withCpl c).ctl.alignmentChecking = s.ctl.alignmentChecking := by
  rw [Bool.eq_iff_iff]
  simp only [Ctl.alignmentChecking, Ctl.am, Ctl.ac, State.withCpl, Bool.and_eq_true, beq_iff_eq]
  exact and_congr_right fun ⟨ham, hac⟩ => hc ham hac

/-- The read of a memory operand sees the control bits through the enabling condition of R38 alone. -/
theorem readMemOperand_withCtl (s : State) (c : Ctl) (hc : c.alignmentChecking = s.ctl.alignmentChecking) (f : Form)
    (p : Prefixes) (x b : Bool) (len : Nat) (m : MemForm) :
    readMemOperand { s with ctl := c } f p x b len m = readMemOperand s f p x b len m := by
  have haddr : effectiveAddress { s with ctl := c } f p x b len m = effectiveAddress s f p x b len m := by
    cases m <;> rfl
  simp only [readMemOperand, loadOperand, haddr, hc]
  rfl

/-- Settles O21: every instruction commutes with a change of the level that the enabling condition does not see, and keeps
the level and the mode. -/
theorem privilegeLevelDoesNotMatter : Obligations.PrivilegeLevelDoesNotMatter := by
  intro i s c hc
  constructor
  · exact exec_mapNext (·.withCpl c) s (formChecks_withCpl s c)
      (readMemOperand_withCtl s { s.ctl with cpl := c } (alignmentChecking_withCpl s c hc)) rfl rfl
      (fun _ _ _ => rfl) (fun _ _ _ => rfl) i
  · intro t h
    obtain ⟨-, v, rfl⟩ | ⟨-, v, rfl⟩ := exec_next_shape i s t h
    · exact ⟨rfl, rfl⟩
    · exact ⟨rfl, rfl⟩

end Sys2Proof.Machine
end

section
/-! PROOFS. The decoder on the bytes of an encoding (spec/30_encoding.md R73): what it answers to the body of an instruction
(REX, VEX or EVEX prefix, opcode, ModRM) after any set of consumed legacy prefixes. -/

namespace Sys2Proof

/-! ### An instruction under another set of prefixes -/

/-- One of the two legacy forms (R52); the others have a VEX or EVEX prefix. -/
def Instr.legacy (i : Instr) : Bool :=
  decide (i.form = .mm) || decide (i.form = .xmm)

/-- Bytes of an encoding between the legacy prefixes and ModRM (R75). -/
def Instr.headLen : Instr → Nat
  | .psadbwMm _ _ => 2
  | .psadbwMmRex _ _ _ => 3
  | .psadbwXmm _ _ => 2
  | .psadbwXmmRex _ _ _ => 3
  | .vpsadbwVex128C5 _ _ _ => 3
  | .vpsadbwVex128C4 _ _ _ => 4
  | .vpsadbwVex256C5 _ _ _ => 3
  | .vpsadbwVex256C4 _ _ _ => 4
  | .vpsadbwEvex128 _ _ _ => 5
  | .vpsadbwEvex256 _ _ _ => 5
  | .vpsadbwEvex512 _ _ _ => 5

/-- The instruction that the body of `i` is after the legacy prefixes `ps`, with another ModRM: a `66` among them makes form 2
of a legacy form (R52). -/
def Instr.under (ps : PrefixSet) : Instr → ModRM → Instr
  | .psadbwMm _ _ => legacyInstr ps none
  | .psadbwMmRex _ x _ => legacyInstr ps (some x)
  | .psadbwXmm _ _ => legacyInstr ps none
  | .psadbwXmmRex _ x _ => legacyInstr ps (some x)
  | .vpsadbwVex128C5 _ v _ => .vpsadbwVex128C5 ps.kept v
  | .vpsadbwVex128C4 _ v _ => .vpsadbwVex128C4 ps.kept v
  | .vpsadbwVex256C5 _ v _ => .vpsadbwVex256C5 ps.kept v
  | .vpsadbwVex256C4 _ v _ => .vpsadbwVex256C4 ps.kept v
  | .vpsadbwEvex128 _ e _ => .vpsadbwEvex128 ps.kept e
  | .vpsadbwEvex256 _ e _ => .vpsadbwEvex256 ps.kept e
  | .vpsadbwEvex512 _ e _ => .vpsadbwEvex512 ps.kept e

/-- A prefix set with the legacy prefixes of an instruction, the mandatory `66` of form 2 among them. -/
def Instr.addPrefixes (i : Instr) (ps : PrefixSet) : PrefixSet :=
  { ps with
    opSize := ps.opSize || decide (i.form = .xmm)
    addrSize := ps.addrSize || i.prefixes.addrSize
    seg := ps.seg.or i.prefixes.seg }

theorem Instr.under_addPrefixes_empty (i : Instr) : i.under (i.addPrefixes .empty) i.modrm = i := by
  cases i <;> rfl

/-! ### What well-formedness says of the parts -/

theorem Instr.supported_of_wf {mode : Mode} {i : Instr} (h : i.wf mode = true) : mode.supported = true := by
  cases mode with
  | mode64 => rfl
  | mode32 => rfl
  | realAddress => cases h
  | virtual8086 => cases h
  | code16 => cases h
  | smm => cases h

theorem Instr.rm_wf_of_wf {mode : Mode} {i : Instr} (h : i.wf mode = true) : i.modrm.rm.wf = true := by
  unfold Instr.wf at h
  cases mode <;> simp_all

theorem Instr.wf32_of_wf {mode : Mode} {i : Instr} (h : i.wf mode = true) : mode = .mode32 → i.wf32 = true := by
  rintro rfl
  simp only [Instr.wf, Bool.and_eq_true] at h
  exact h.2

theorem decode_of_supported {mode : Mode} (h : mode.supported = true) (bs : List Byte) :
    decode mode bs = decodeFrom mode .empty bs :=
  if_pos h

theorem decode_of_wf {mode : Mode} {i : Instr} (h : i.wf mode = true) (bs : List Byte) :
    decode mode bs = decodeFrom mode .empty bs :=
  decode_of_supported (i.supported_of_wf h) bs

/-! ### After a VEX or EVEX prefix -/

/-- `C5`, `C4` and `62` are no LES, LDS or BOUND before a byte whose top bits are set, nor in another mode (R74). -/
theorem olderInstr_cons_eq_false {mode : Mode} {p : Byte} {bs : List Byte}
    (h : mode = .mode32 → p.extractLsb' 6 2 = 3) : olderInstr mode (p :: bs) = false := by
  by_cases hm : mode = .mode32
  · simp [olderInstr, h hm]
  · simp [olderInstr, hm]

/-- The bytes `head` of a VEX or EVEX prefix and the opcode `F6` after them, following any legacy prefixes and REX byte, lead to
ModRM with `n` bytes read: illegal where R78 says so, the instruction `mk` otherwise. -/
def OpensModRM (mode : Mode) (head : List Byte) (n : Nat) (mk : PrefixSet → Option (ModRM → Instr)) : Prop :=
  ∃ b bs, head = b :: bs ∧ prefixByte b = none ∧ isRexByte b = false ∧ ∀ ps rex X,
    decodeOpcode mode ps rex b (bs ++ 0xF6 :: X) =
      withModRM (ps.count + rex.isSome.toNat + n) (if ps.illegalBeforeVex || rex.isSome then none else mk ps)
        (addr16 mode ps) X

theorem opensModRM_vex2 {mode : Mode} {v : Vex2} (h32 : mode = .mode32 → v.wf32 = true) (l : Bool) :
    OpensModRM mode (v.encode l) 3 fun ps =>
      some (if l then .vpsadbwVex256C5 ps.kept v else .vpsadbwVex128C5 ps.kept v) := by
  obtain ⟨p, he, hr, hvvvv, hpp, hl, htop⟩ := vex2_encode v l
  refine ⟨0xC5, [p], he, rfl, rfl, fun ps rex X => ?_⟩
  have hold := olderInstr_cons_eq_false (bs := 0xF6 :: X) fun h => htop.2 (h32 h)
  simp only [decodeOpcode, List.singleton_append, hold, decodeVex2, hr, hvvvv, hpp, hl]
  cases ps.illegalBeforeVex <;> cases rex <;> cases l <;> rfl

theorem opensModRM_vex3 {mode : Mode} {v : Vex3} (h32 : mode = .mode32 → v.wf32 = true) (l : Bool) :
    OpensModRM mode (v.encode l) 4 fun ps =>
      some (if l then .vpsadbwVex256C4 ps.kept v else .vpsadbwVex128C4 ps.kept v) := by
  obtain ⟨p, q, he, hv, hmap, hpp, hl, htop⟩ := vex3_encode v l
  refine ⟨0xC4, [p, q], he, rfl, rfl, fun ps rex X => ?_⟩
  have hold : olderInstr mode (p :: q :: 0xF6 :: X) = false := olderInstr_cons_eq_false fun h => by
    have := h32 h
    simp only [Vex3.wf32, Bool.and_eq_true, Bool.not_eq_true'] at this
    exact htop.2 this.1.1
  have hwf : (decide (mode = .mode32) && !v.wf32) = false := by simpa using h32
  simp only [decodeOpcode, List.cons_append, List.nil_append, hold, decodeVex3, ← hv, hmap, hpp, hl, hwf]
  cases ps.illegalBeforeVex <;> cases rex <;> cases l <;> rfl

theorem opensModRM_evex {mode : Mode} {e : Evex} (h32 : mode = .mode32 → e.wf32 = true) (ll : BitVec 2) :
    OpensModRM mode (e.encode ll) 5 fun ps => evexInstr ll ps.kept e := by
  obtain ⟨p0, p1, p2, he, hv, h03, h12, hmap, hpp, haaa, hz, hb, hll, htop⟩ := evex_encode e ll
  refine ⟨0x62, [p0, p1, p2], he, rfl, rfl, fun ps rex X => ?_⟩
  have hold : olderInstr mode (p0 :: p1 :: p2 :: 0xF6 :: X) = false := olderInstr_cons_eq_false fun h => by
    have := h32 h
    simp only [Evex.wf32, Bool.and_eq_true, Bool.not_eq_true'] at this
    exact htop.2 this.1.1.1.1
  have hwf : (decide (mode = .mode32) && !e.wf32) = false := by simpa using h32
  simp only [decodeOpcode, List.cons_append, List.nil_append, hold, decodeEvex, ← hv, h03, h12, hmap, hpp, haaa, hz, hb,
    hll, hwf]
  cases ps.illegalBeforeVex <;> cases rex <;> rfl

/-- The body of a VEX or EVEX instruction leads to its own ModRM. -/
theorem opensModRM_body {mode : Mode} {i : Instr} (hl : i.legacy = false) (h32 : mode = .mode32 → i.wf32 = true) :
    ∃ head, i.body = head ++ 0xF6 :: i.modrm.encode ∧ OpensModRM mode head i.headLen fun ps => some (i.under ps) := by
  cases i with
  | psadbwMm | psadbwMmRex | psadbwXmm | psadbwXmmRex => cases hl
  | vpsadbwVex128C5 p v m => exact ⟨_, rfl, opensModRM_vex2 h32 false⟩
  | vpsadbwVex128C4 p v m => exact ⟨_, rfl, opensModRM_vex3 h32 false⟩
  | vpsadbwVex256C5 p v m => exact ⟨_, rfl, opensModRM_vex2 h32 true⟩
  | vpsadbwVex256C4 p v m => exact ⟨_, rfl, opensModRM_vex3 h32 true⟩
  | vpsadbwEvex128 p e m => exact ⟨_, rfl, opensModRM_evex h32 0⟩
  | vpsadbwEvex256 p e m => exact ⟨_, rfl, opensModRM_evex h32 1⟩
  | vpsadbwEvex512 p e m => exact ⟨_, rfl, opensModRM_evex h32 2⟩

/-- A VEX or EVEX body after any consumed prefixes. -/
theorem decodeFrom_body_vex {mode : Mode} {i : Instr} (hl : i.legacy = false) (h32 : mode = .mode32 → i.wf32 = true)
    (ps : PrefixSet) (rest : List Byte) :
    decodeFrom mode ps (i.body ++ rest) =
      withModRM (ps.count + i.headLen) (if ps.illegalBeforeVex then none else some (i.under ps)) (addr16 mode ps)
        (i.modrm.encode ++ rest) := by
  obtain ⟨head, hbody, b, bs, rfl, hb, hr, hd⟩ := opensModRM_body hl h32
  rw [hbody, List.append_assoc, List.cons_append, List.cons_append, decodeFrom_opcode mode ps b _ hb hr, hd]
  simp

/-- A VEX or EVEX body after any consumed prefixes and a REX byte is illegal (R78). -/
theorem decodeAfterRex_body_vex {mode : Mode} {i : Instr} (hl : i.legacy = false)
    (h32 : mode = .mode32 → i.wf32 = true) (ps : PrefixSet) (x : Rex) (rest : List Byte) :
    decodeAfterRex mode ps x (i.body ++ rest) =
      withModRM (ps.count + 1 + i.headLen) none (addr16 mode ps) (i.modrm.encode ++ rest) := by
  obtain ⟨head, hbody, b, bs, rfl, hb, hr, hd⟩ := opensModRM_body hl h32
  rw [hbody, List.append_assoc, List.cons_append, List.cons_append, decodeAfterRex, hb, hr]
  exact (hd ps (some x) _).trans (by simp)

/-! ### Legacy bodies -/

/-- A legacy body after any consumed prefixes: LOCK makes it illegal, `F2` and `F3` are refused (R77), and otherwise it is the
instruction that the prefixes select. -/
theorem decodeFrom_body_legacy {mode : Mode} {i : Instr} (hl : i.legacy = true) (h32 : mode = .mode32 → i.wf32 = true)
    (hmode : mode.supported = true) (ps : PrefixSet) (rest : List Byte) :
    decodeFrom mode ps (i.body ++ rest) =
      if ps.lock then withModRM (ps.count + i.headLen) none (addr16 mode ps) (i.modrm.encode ++ rest)
      else if ps.repne || ps.rep then .rejected .reservedRepPrefix
      else withModRM (ps.count + i.headLen) (some (i.under ps)) (addr16 mode ps) (i.modrm.encode ++ rest) := by
  have plain : ∀ X, decodeFrom mode ps (0x0F :: 0xF6 :: X) = decodeLegacy mode ps none (0xF6 :: X) := fun X =>
    decodeFrom_opcode mode ps 0x0F _ rfl rfl
  have withRex : ∀ (x : Rex) X, mode = .mode64 →
      decodeFrom mode ps (x.encode :: 0x0F :: 0xF6 :: X) = decodeLegacy mode ps (some x) (0xF6 :: X) := by
    rintro x X rfl
    obtain ⟨hp, hr, hx⟩ := rex_encode x
    rw [decodeFrom]
    simp only [hp, hr, hx]
    rfl
  have h64 : i.wf32 = false → mode = .mode64 := fun h => by
    rcases Machine.mode_supported_iff mode |>.1 hmode with h' | h'
    · exact h'
    · simp [h32 h'] at h
  cases i with
  | psadbwMm p m => exact plain _
  | psadbwXmm p m => exact plain _
  | psadbwMmRex p x m => exact withRex x _ (h64 rfl)
  | psadbwXmmRex p x m => exact withRex x _ (h64 rfl)
  | vpsadbwVex128C5 | vpsadbwVex128C4 | vpsadbwVex256C5 | vpsadbwVex256C4 | vpsadbwEvex128 | vpsadbwEvex256
    | vpsadbwEvex512 => cases hl

/-! ### The round trip -/

/-- The decoder consumes the segment override and the `67` of an instruction, where they repeat none of the set. -/
theorem decodeFrom_prefixes_of (mode : Mode) {p : Prefixes} {ps : PrefixSet}
    (haddr : p.addrSize = true → ps.addrSize = false) (hseg : p.seg.isSome = true → ps.seg = none) (rest : List Byte) :
    decodeFrom mode ps (p.encode ++ rest)
      = decodeFrom mode { ps with addrSize := ps.addrSize || p.addrSize, seg := ps.seg.or p.seg } rest := by
  obtain ⟨seg, a⟩ := p
  have hencodeSeg : ∀ X, decodeFrom mode ps (Prefixes.encode ⟨seg, false⟩ ++ X)
      = decodeFrom mode { ps with seg := ps.seg.or seg } X := fun X => by
    rcases seg with _ | sg
    · simp [Prefixes.encode]
    · have hnone : ps.seg = none := hseg rfl
      cases sg <;> simp [Prefixes.encode, SegOverride.byte, decodeFrom, prefixByte, PrefixSet.add, hnone]
  have hsplit : Prefixes.encode ⟨seg, a⟩ = Prefixes.encode ⟨seg, false⟩ ++ if a then [0x67] else [] := by
    simp [Prefixes.encode]
  rw [hsplit, List.append_assoc, hencodeSeg]
  cases a with
  | false => simp
  | true => simp [decodeFrom, prefixByte, PrefixSet.add, haddr rfl]

/-- The decoder consumes the encoder's prefix bytes of an instruction, where none of them repeats one of the set. -/
theorem decodeFrom_prefixBytes (mode : Mode) {i : Instr} {ps : PrefixSet} (hop : i.form = .xmm → ps.opSize = false)
    (haddr : i.prefixes.addrSize = true → ps.addrSize = false) (hseg : i.prefixes.seg.isSome = true → ps.seg = none)
    (rest : List Byte) :
    decodeFrom mode ps (i.prefixBytes ++ rest) = decodeFrom mode (i.addPrefixes ps) rest := by
  rw [Instr.prefixBytes, List.append_assoc, decodeFrom_prefixes_of mode haddr hseg, Instr.addPrefixes]
  by_cases hf : i.form = .xmm
  · simp [hf, decodeFrom, prefixByte, PrefixSet.add, hop hf]
  · simp [hf]

/-- A legacy or a VEX body after a prefix set that makes it neither illegal nor refused. -/
theorem decodeFrom_body {mode : Mode} {i : Instr} (hwf : i.wf mode = true) {ps : PrefixSet} (hlock : ps.lock = false)
    (hrepne : ps.repne = false) (hrep : ps.rep = false) (hop : i.legacy = false → ps.opSize = false)
    (rest : List Byte) :
    decodeFrom mode ps (i.body ++ rest) =
      withModRM (ps.count + i.headLen) (some (i.under ps)) (addr16 mode ps) (i.modrm.encode ++ rest) := by
  have h32 := i.wf32_of_wf hwf
  cases hl : i.legacy with
  | true =>
    rw [decodeFrom_body_legacy hl h32 (i.supported_of_wf hwf), hlock, hrepne, hrep]
    rfl
  | false =>
    rw [decodeFrom_body_vex hl h32, PrefixSet.illegalBeforeVex, hlock, hrepne, hrep, hop hl]
    rfl

theorem Instr.headLen_le (i : Instr) : i.headLen ≤ 5 := by
  cases i <;> simp [Instr.headLen]

/-- A consumed set with none of LOCK, REPNE and REP has at most three bytes. -/
theorem PrefixSet.count_le_three {ps : PrefixSet} (hlock : ps.lock = false) (hrepne : ps.repne = false)
    (hrep : ps.rep = false) : ps.count ≤ 3 := by
  have := Bool.toNat_le ps.opSize
  have := Bool.toNat_le ps.addrSize
  have := Bool.toNat_le ps.seg.isSome
  simp only [PrefixSet.count, hlock, hrepne, hrep, Bool.toNat_false]
  omega

/-- Settles O40: the prefix bytes leave the instruction's prefix set, its body leads to its ModRM, and ModRM is read back. -/
theorem decodeReadsBackEncode : Obligations.DecodeReadsBackEncode := by
  intro mode i rest hwf
  have hop : i.legacy = false → (i.addPrefixes .empty).opSize = false := fun h => (Bool.or_eq_false_iff.1 h).2
  have hlen : (i.addPrefixes .empty).count + i.headLen + i.modrm.len ≤ 15 := by
    have := PrefixSet.count_le_three (ps := i.addPrefixes .empty) rfl rfl rfl
    have := i.headLen_le
    have := (modrm_len_bounds i.modrm).2
    omega
  calc decode mode (encode i ++ rest)
    _ = decodeFrom mode .empty (i.prefixBytes ++ (i.body ++ rest)) := by
      rw [decode_of_wf hwf, encode_eq, List.append_assoc]
    _ = decodeFrom mode (i.addPrefixes .empty) (i.body ++ rest) :=
      decodeFrom_prefixBytes mode (fun _ => rfl) (fun _ => rfl) (fun _ => rfl) _
    _ = withModRM ((i.addPrefixes .empty).count + i.headLen) (some (i.under (i.addPrefixes .empty)))
          (addr16 mode (i.addPrefixes .empty)) (i.modrm.encode ++ rest) := decodeFrom_body hwf rfl rfl rfl hop rest
    _ = .instr (i.under (i.addPrefixes .empty) i.modrm) :=
      withModRM_encode _ _ _ _ _ (i.rm_wf_of_wf hwf) (isMem_of_wf mode i hwf) hlen
    _ = .instr i := by rw [i.under_addPrefixes_empty]

end Sys2Proof
end

section
/-! PROOFS. Prefix bytes before an instruction that do not belong there (spec/30_encoding.md R77, R78), and the illegal EVEX
fields (R78). -/

namespace Sys2Proof

/-! ### One more byte before an encoding -/

/-- The decoder consumes a legacy prefix byte that the set admits. -/
theorem decodeFrom_cons_prefix {mode : Mode} {ps ps' : PrefixSet} {b : Byte} {k : PrefixByte}
    (hb : prefixByte b = some k) (hadd : ps.add k = .ok ps') (bs : List Byte) :
    decodeFrom mode ps (b :: bs) = decodeFrom mode ps' bs := by
  rw [decodeFrom]
  simp only [hb, hadd]

/-- A prefix byte before an encoding that does not repeat one of its own adds to its prefix set. -/
theorem decode_cons_encode {mode : Mode} {i : Instr} (hwf : i.wf mode = true) {b : Byte} {k : PrefixByte}
    {ps : PrefixSet} (hb : prefixByte b = some k) (hadd : PrefixSet.empty.add k = .ok ps) (haddr : ps.addrSize = false)
    (hseg : ps.seg = none) (hop : i.form = .xmm → ps.opSize = false) (rest : List Byte) :
    decode mode (b :: (encode i ++ rest)) = decodeFrom mode (i.addPrefixes ps) (i.body ++ rest) := by
  rw [decode_of_wf hwf, decodeFrom_cons_prefix hb hadd, encode_eq, List.append_assoc,
    decodeFrom_prefixBytes mode hop (fun _ => haddr) (fun _ => hseg)]

theorem Instr.count_addPrefixes_le (i : Instr) (ps : PrefixSet) : (i.addPrefixes ps).count ≤ ps.count + 3 := by
  have hor : ∀ a b : Bool, (a || b).toNat ≤ a.toNat + 1 := by decide
  have hop := hor ps.opSize (decide (i.form = .xmm))
  have haddr := hor ps.addrSize i.prefixes.addrSize
  have hseg := hor ps.seg.isSome i.prefixes.seg.isSome
  rw [← Option.isSome_or] at hseg
  simp only [PrefixSet.count, Instr.addPrefixes]
  omega

/-- 16-bit addressing is excluded for a well-formed instruction, where its own `67` is the only one. -/
theorem Instr.isMem_of_addr16_addPrefixes {mode : Mode} {i : Instr} (hwf : i.wf mode = true) {ps : PrefixSet}
    (haddr : ps.addrSize = false) (h : addr16 mode (i.addPrefixes ps) = true) : i.modrm.rm.isMem = false :=
  isMem_of_wf mode i hwf (by simpa [addr16, Instr.addPrefixes, Prefixes.toSet, haddr] using h)

/-! ### LOCK, F2, F3, 66 and REX -/

/-- A well-formed body after at most four prefixes is `#UD` where these are illegal before it: LOCK before a legacy form (R77),
also `66`, `F2` and `F3` before a VEX or EVEX prefix (R78). -/
theorem decodeFrom_body_illegal {mode : Mode} {i : Instr} (hwf : i.wf mode = true) {ps : PrefixSet}
    (hill : if i.legacy then ps.lock = true else ps.illegalBeforeVex = true)
    (ha : addr16 mode ps = true → i.modrm.rm.isMem = false) (hc : ps.count ≤ 4) (rest : List Byte) :
    decodeFrom mode ps (i.body ++ rest) = .undefinedOpcode := by
  have hlen : ps.count + i.headLen + i.modrm.len ≤ 15 := by
    have := i.headLen_le
    have := (modrm_len_bounds i.modrm).2
    omega
  have hud := withModRM_encode_illegal (ps.count + i.headLen) _ i.modrm rest (i.rm_wf_of_wf hwf) ha hlen
  cases hl : i.legacy with
  | true =>
    rw [hl, if_pos rfl] at hill
    rw [decodeFrom_body_legacy hl (i.wf32_of_wf hwf) (i.supported_of_wf hwf), if_pos hill, hud]
  | false =>
    rw [hl, if_neg Bool.false_ne_true] at hill
    rw [decodeFrom_body_vex hl (i.wf32_of_wf hwf), if_pos hill, hud]

/-- Settles O42: LOCK is tested before all else of a legacy body and makes a VEX or EVEX one illegal; REPNE and REP are tested
next in a legacy body. -/
theorem lockAndRepPrefixes : Obligations.LockAndRepPrefixes := by
  intro mode i rest hwf
  refine ⟨?_, fun hf => ?_⟩
  · rw [decode_cons_encode hwf (b := 0xF0) (k := .lock) rfl rfl rfl rfl (fun _ => rfl)]
    refine decodeFrom_body_illegal hwf ?_ (i.isMem_of_addr16_addPrefixes hwf rfl) (i.count_addPrefixes_le _) rest
    cases i.legacy <;> simp [PrefixSet.illegalBeforeVex, Instr.addPrefixes]
  · have hl : i.legacy = true := by simpa [Instr.legacy] using hf
    have hbody := decodeFrom_body_legacy hl (i.wf32_of_wf hwf) (i.supported_of_wf hwf)
    constructor
    · rw [decode_cons_encode hwf (b := 0xF2) (k := .repne) rfl rfl rfl rfl (fun _ => rfl), hbody]
      rfl
    · rw [decode_cons_encode hwf (b := 0xF3) (k := .rep) rfl rfl rfl rfl (fun _ => rfl), hbody]
      rfl

/-- A byte `40` to `4F` is no legacy prefix. -/
theorem prefixByte_of_rexByte {b : Byte} (h : isRexByte b = true) : prefixByte b = none := by
  revert b
  decide +kernel

/-- In Mode64 a REX byte is read as such. -/
theorem decodeFrom_cons_rex {b : Byte} (h : isRexByte b = true) (ps : PrefixSet) (bs : List Byte) :
    decodeFrom .mode64 ps (b :: bs) = decodeAfterRex .mode64 ps (rexOf b) bs := by
  rw [decodeFrom]
  simp [prefixByte_of_rexByte h, h]

/-- Settles O43: `66`, `F2` and `F3` in the set make the VEX or EVEX body illegal; so does a REX byte, read right before it. -/
theorem prefixBeforeVexIsIllegal : Obligations.PrefixBeforeVexIsIllegal := by
  intro mode i rest b hwf hmm hxmm
  have hl : i.legacy = false := by simp [Instr.legacy, hmm, hxmm]
  constructor
  · have illegal : ∀ k ps, prefixByte b = some k → PrefixSet.empty.add k = .ok ps → ps.addrSize = false →
        ps.seg = none → ps.count = 1 → ps.illegalBeforeVex = true →
        decode mode (b :: (encode i ++ rest)) = .undefinedOpcode := by
      intro k ps hb hadd haddr hseg hcount hill
      rw [decode_cons_encode hwf hb hadd haddr hseg (fun h => absurd h hxmm)]
      refine decodeFrom_body_illegal hwf ?_ (i.isMem_of_addr16_addPrefixes hwf haddr) ?_ rest
      · simpa [hl, PrefixSet.illegalBeforeVex, Instr.addPrefixes, hxmm] using hill
      · have := i.count_addPrefixes_le ps
        omega
    rintro (rfl | rfl | rfl)
    · exact illegal .opSize _ rfl rfl rfl rfl rfl rfl
    · exact illegal .repne _ rfl rfl rfl rfl rfl rfl
    · exact illegal .rep _ rfl rfl rfl rfl rfl rfl
  · rintro rfl hnp hb
    have hbody : encode i = i.body := by
      rw [encode_eq, Instr.prefixBytes, hnp, if_neg hxmm]
      rfl
    have hlen : PrefixSet.empty.count + 1 + i.headLen + i.modrm.len ≤ 15 := by
      have : PrefixSet.empty.count = 0 := rfl
      have := i.headLen_le
      have := (modrm_len_bounds i.modrm).2
      omega
    rw [decode_of_wf hwf, decodeFrom_cons_rex (by simpa [isRexByte] using hb), hbody,
      decodeAfterRex_body_vex hl (i.wf32_of_wf hwf)]
    exact withModRM_encode_illegal _ _ i.modrm rest (i.rm_wf_of_wf hwf) (fun h => by cases h) hlen

/-! ### Illegal EVEX fields -/

/-- `p0[7:4] = 1111b`, `p1[6] = 1` and `p2[3] = 1` leave no extension bit (R58, R72). -/
theorem evex_wf32_of_bytes {p0 p1 p2 : Byte}
    (h : p0.extractLsb' 4 4 = 15 ∧ p1.getLsbD 6 = true ∧ p2.getLsbD 3 = true) (w : Bool) :
    Evex.wf32 ⟨!p0.getLsbD 7, !p0.getLsbD 6, !p0.getLsbD 5, !p0.getLsbD 4, w, ~~~(p1.extractLsb' 3 4), !p2.getLsbD 3⟩
      = true := by
  obtain ⟨h0, h1, h2⟩ := h
  have hp0 : p0.getLsbD 7 = true ∧ p0.getLsbD 6 = true ∧ p0.getLsbD 5 = true ∧ p0.getLsbD 4 = true := by
    clear h1 h2
    revert p0
    decide +kernel
  obtain ⟨h7, h6, h5, h4⟩ := hp0
  have hvvvv : (~~~(p1.extractLsb' 3 4)).getLsbD 3 = false := by simpa using h1
  simp only [Evex.wf32, h7, h6, h5, h4, h2, hvvvv]
  rfl

/-- The bytes `62` and `F6` around three bytes with this instruction's map and `pp` lead to ModRM; an illegal field leaves no
instruction to complete. -/
theorem decodeEvex_illegal {mode : Mode} {p0 p1 p2 : Byte}
    (h32 : mode = .mode32 → p0.extractLsb' 4 4 = 15 ∧ p1.getLsbD 6 = true ∧ p2.getLsbD 3 = true)
    (hmap : p0.extractLsb' 0 3 = 1) (hpp : p1.extractLsb' 0 2 = 1)
    (hill : p0.getLsbD 3 = true ∨ p1.getLsbD 2 = false ∨ p2.getLsbD 7 = true ∨ p2.getLsbD 4 = true
      ∨ p2.extractLsb' 0 3 ≠ 0 ∨ p2.extractLsb' 5 2 = 3) (ps : PrefixSet) (X : List Byte) :
    decodeEvex mode ps none (p0 :: p1 :: p2 :: 0xF6 :: X) = withModRM (ps.count + 5) none (addr16 mode ps) X := by
  have hwf : (decide (mode = .mode32) && !Evex.wf32 ⟨!p0.getLsbD 7, !p0.getLsbD 6, !p0.getLsbD 5, !p0.getLsbD 4,
      p1.getLsbD 7, ~~~(p1.extractLsb' 3 4), !p2.getLsbD 3⟩) = false := by
    by_cases hm : mode = .mode32
    · rw [evex_wf32_of_bytes (h32 hm), Bool.not_true, Bool.and_false]
    · simp [hm]
  simp only [decodeEvex, decodeIllegal, hmap, hpp, hwf, beq_self_eq_true, Bool.and_self, Bool.not_true,
    Bool.false_eq_true, if_false, if_true, ne_eq, not_true_eq_false, Option.isSome_none, Bool.or_false]
  split
  · rfl
  · next hlate =>
    split
    · next hlegal =>
      have hll : p2.extractLsb' 5 2 = 3 := by simp_all
      rw [hll]
      rfl
    · rfl

/-- Settles O44: the prefixes are consumed, `62` is no BOUND, and the illegal field is found before or after the opcode. -/
theorem illegalEvexFieldsAreUD : Obligations.IllegalEvexFieldsAreUD := by
  intro mode p p0 p1 p2 m rest hmode hrm hmap hpp hill
  have h32 : mode = .mode32 → p0.extractLsb' 4 4 = 15 ∧ p1.getLsbD 6 = true ∧ p2.getLsbD 3 = true := by
    rintro rfl
    rcases hmode with h | ⟨-, -, h⟩
    · cases h
    · exact h
  have hsup : mode.supported = true := (Machine.mode_supported_iff mode).2 (hmode.imp_right And.left)
  have ha : addr16 mode p.toSet = true → m.rm.isMem = false := by
    rcases hmode with rfl | ⟨rfl, hwf, -⟩
    · intro h
      cases h
    · intro h
      have h67 : p.addrSize = true := by simpa [addr16, Prefixes.toSet] using h
      simpa [Prefixes.wf32, h67] using hwf
  have hold : olderInstr mode (p0 :: p1 :: p2 :: 0xF6 :: (m.encode ++ rest)) = false :=
    olderInstr_cons_eq_false fun h => by
      have h15 := (h32 h).1
      clear * - h15
      revert p0
      decide +kernel
  have hlen : p.toSet.count + 5 + m.len ≤ 15 := by
    have := prefixes_len_le p
    have := (modrm_len_bounds m).2
    rw [toSet_count]
    omega
  rw [decode_of_supported hsup, decodeFrom_prefixes, decodeFrom_opcode _ _ _ _ rfl rfl]
  calc decodeOpcode mode p.toSet none 0x62 (p0 :: p1 :: p2 :: 0xF6 :: (m.encode ++ rest))
    _ = decodeEvex mode p.toSet none (p0 :: p1 :: p2 :: 0xF6 :: (m.encode ++ rest)) := by
      rw [decodeOpcode, hold]
      rfl
    _ = withModRM (p.toSet.count + 5) none (addr16 mode p.toSet) (m.encode ++ rest) :=
      decodeEvex_illegal h32 hmap hpp hill _ _
    _ = .undefinedOpcode := withModRM_encode_illegal _ _ m rest hrm ha hlen

end Sys2Proof
end

section
/-! PROOFS. Bytes that the decoder refuses by name (spec/30_encoding.md R51, R53, R57, R59, R65, R72 to R74, R79), and the
words that the spec writes out. -/

namespace Sys2Proof

/-! ### After an accepted sequence of prefix bytes -/

/-- The decoder consumes an accepted sequence of prefix bytes, in a mode with a meaning. -/
theorem decode_accepted {mode : Mode} (hmode : mode.supported = true) {pre : List Byte} (h : AcceptedPrefixes pre) :
    ∃ ps : PrefixSet, (∀ X, decode mode (pre ++ X) = decodeFrom mode ps X) ∧ ps.Extends .empty pre := by
  obtain ⟨ps, hps, hext⟩ := decodeFrom_accepted mode pre h
  exact ⟨ps, fun X => (decode_of_supported hmode _).trans (hps X), hext⟩

/-- The bytes of R51's table are the accepted ones and the FS and GS overrides. -/
theorem prefixByte_eq_none_iff (b : Byte) : prefixByte b = none ↔ b ∉ acceptedBytes ∧ b ≠ 0x64 ∧ b ≠ 0x65 := by
  revert b
  decide +kernel

section Flags

variable {ps : PrefixSet} {pre : List Byte} (h : ps.Extends .empty pre)
include h

theorem PrefixSet.Extends.opSize_eq_false (hb : 0x66 ∉ pre) : ps.opSize = false :=
  Bool.eq_false_iff.2 fun h' => (h.opSize.1 h').elim (by decide) hb

theorem PrefixSet.Extends.repne_eq_false (hb : 0xF2 ∉ pre) : ps.repne = false :=
  Bool.eq_false_iff.2 fun h' => (h.repne.1 h').elim (by decide) hb

theorem PrefixSet.Extends.rep_eq_false (hb : 0xF3 ∉ pre) : ps.rep = false :=
  Bool.eq_false_iff.2 fun h' => (h.rep.1 h').elim (by decide) hb

theorem PrefixSet.Extends.lock_eq_false (hb : 0xF0 ∉ pre) : ps.lock = false :=
  Bool.eq_false_iff.2 fun h' => (h.lock.1 h').elim (by decide) hb

/-- A byte of the sequence is held by the set. -/
theorem PrefixSet.Extends.holds_of_mem (hacc : AcceptedPrefixes pre) {b : Byte} (hb : b ∈ pre) : ps.holds b = true := by
  have hseg : b ∈ segBytes → ps.seg.isSome = true := fun hs => h.seg.2 (.inr ⟨b, hb, hs⟩)
  rcases acceptedBytes_cases (hacc.1 b hb) with rfl | rfl | rfl | rfl | rfl | rfl | rfl | rfl | rfl
  · exact h.opSize.2 (.inr hb)
  · exact h.repne.2 (.inr hb)
  · exact h.rep.2 (.inr hb)
  · exact h.lock.2 (.inr hb)
  · exact h.addrSize.2 (.inr hb)
  all_goals exact hseg (by decide)

end Flags

/-- A byte whose prefix the set holds already is a repeated prefix (R51, D20). -/
theorem decodeFrom_of_holds {mode : Mode} {ps : PrefixSet} {b : Byte} (h : ps.holds b = true) (bs : List Byte) :
    decodeFrom mode ps (b :: bs) = .rejected .repeatedPrefix := by
  unfold PrefixSet.holds at h
  rw [decodeFrom]
  split at h <;> simp_all [PrefixSet.add]

/-- A segment override is held where the set has one. -/
theorem PrefixSet.holds_of_segByte {ps : PrefixSet} {b : Byte} (hb : b ∈ segBytes) (h : ps.seg.isSome = true) :
    ps.holds b = true := by
  simp only [segBytes, List.mem_cons, List.not_mem_nil, or_false] at hb
  rcases hb with rfl | rfl | rfl | rfl <;> exact h

/-- Settles O47: each refusal is made at the byte that shows it, from what the set of consumed prefixes holds; 16-bit addressing
is refused at ModRM. -/
theorem refusedPrefixSequences : Obligations.RefusedPrefixSequences := by
  intro mode pre b c rest hmode hacc
  obtain ⟨ps, hps, hext⟩ := decode_accepted hmode hacc
  refine ⟨?_, fun hb => ?_, fun hb hc hcpre => ?_, ?_, ?_⟩
  · rintro (rfl | rfl)
    · rw [hps, decodeFrom]
      rfl
    · rw [hps, decodeFrom]
      rfl
  · rw [hps, decodeFrom_of_holds (hext.holds_of_mem hacc hb)]
  · rw [hps, decodeFrom_of_holds (PrefixSet.holds_of_segByte hb (hext.seg.2 (.inr ⟨c, hcpre, hc⟩)))]
  · rintro rfl hb hc
    have hrex : isRexByte b = true := by simpa [isRexByte] using hb
    have hlast : ((prefixByte c).isSome || isRexByte c) = true := by
      have := prefixByte_eq_none_iff c
      cases hp : prefixByte c with
      | some k => rfl
      | none =>
        obtain ⟨h1, h2, h3⟩ := this.1 hp
        have : c.extractLsb' 4 4 = 4 := ((hc.resolve_left h1).resolve_left h2).resolve_left h3
        simpa [isRexByte] using this
    rw [hps, decodeFrom_cons_rex hrex, decodeAfterRex, if_pos hlast]
  · rintro rfl h67 hF0 hF2 hF3 i hwf hnp hmem hform
    have haddr : addr16 .mode32 (i.addPrefixes ps) = true := by
      simp [addr16, Instr.addPrefixes, hext.addrSize.2 (.inr h67)]
    have hop : i.form ≠ .mm → ps.opSize = false := fun hf => hext.opSize_eq_false fun h => hf (hform h)
    have hopVex : i.legacy = false → (i.addPrefixes ps).opSize = false := fun hl => by
      simp only [Instr.legacy, Bool.or_eq_false_iff, decide_eq_false_iff_not] at hl
      simp [Instr.addPrefixes, hop hl.1, hl.2]
    rw [hps, encode_eq, List.append_assoc, decodeFrom_prefixBytes .mode32 (fun h => hop (by simp [h])) (by simp [hnp])
      (by simp [hnp]), decodeFrom_body (ps := i.addPrefixes ps) hwf (hext.lock_eq_false hF0) (hext.repne_eq_false hF2)
      (hext.rep_eq_false hF3) hopVex, haddr, withModRM_encode_addr16 _ _ _ _ hmem]

/-! ### Other bytes, opcodes, maps and `pp` (R79) -/

/-- A byte that is neither a prefix nor, in Mode64, a REX byte is read as an opcode, also after a REX byte. -/
theorem decodeFrom_optional_rex {mode : Mode} {rex : List Byte}
    (hrex : rex = [] ∨ mode = .mode64 ∧ ∃ x : Rex, rex = [x.encode]) {b : Byte} (hb : prefixByte b = none)
    (hr : mode = .mode64 → isRexByte b = false) (ps : PrefixSet) (bs : List Byte) :
    ∃ r, decodeFrom mode ps (rex ++ b :: bs) = decodeOpcode mode ps r b bs := by
  rcases hrex with rfl | ⟨rfl, x, rfl⟩
  · refine ⟨none, ?_⟩
    have : (decide (mode = .mode64) && isRexByte b) = false := by simpa using hr
    rw [List.nil_append, decodeFrom]
    simp only [hb, this]
    rfl
  · refine ⟨some x, ?_⟩
    obtain ⟨-, hx, hx'⟩ := rex_encode x
    rw [List.singleton_append, decodeFrom_cons_rex hx, hx', decodeAfterRex, hb, hr rfl]
    rfl

theorem decodeLegacy_notInSlice {op : Byte} (hop : op ≠ 0xF6) (mode : Mode) (ps : PrefixSet) (rex : Option Rex)
    (bs : List Byte) : decodeLegacy mode ps rex (op :: bs) = .rejected .notInSlice :=
  if_pos hop

theorem decodeF6_notInSlice {op : Byte} (hop : op ≠ 0xF6) (before : Nat) (mk : Option (ModRM → Instr)) (a16 : Bool)
    (bs : List Byte) : decodeF6 before mk a16 (op :: bs) = .rejected .notInSlice :=
  if_pos hop

theorem decodeVex2_notInSlice {mode : Mode} {ps : PrefixSet} (hps : ps.illegalBeforeVex = false) {p op : Byte}
    (h : p.extractLsb' 0 2 ≠ 1 ∨ op ≠ 0xF6) (bs : List Byte) :
    decodeVex2 mode ps none (p :: op :: bs) = .rejected .notInSlice := by
  cases hours : p.extractLsb' 0 2 == 1 with
  | false => simp only [decodeVex2, hps, hours]; rfl
  | true =>
    have hop : op ≠ 0xF6 := h.resolve_left (not_not_intro (eq_of_beq hours))
    simp only [decodeVex2, hps, hours, decodeF6_notInSlice hop, ite_self]
    rfl

theorem decodeVex3_notInSlice {mode : Mode} {ps : PrefixSet} (hps : ps.illegalBeforeVex = false) {p1 p2 op : Byte}
    (h : p1.extractLsb' 0 5 ≠ 1 ∨ p2.extractLsb' 0 2 ≠ 1 ∨ op ≠ 0xF6) (bs : List Byte) :
    decodeVex3 mode ps none (p1 :: p2 :: op :: bs) = .rejected .notInSlice := by
  cases hours : p1.extractLsb' 0 5 == 1 && p2.extractLsb' 0 2 == 1 with
  | false => simp only [decodeVex3, hps, hours]; rfl
  | true =>
    rw [Bool.and_eq_true, beq_iff_eq, beq_iff_eq] at hours
    have hop : op ≠ 0xF6 := (h.resolve_left (not_not_intro hours.1)).resolve_left (not_not_intro hours.2)
    simp only [decodeVex3, hps, hours, if_pos hop]
    rfl

theorem decodeEvex_notInSlice {mode : Mode} {ps : PrefixSet} (hps : ps.illegalBeforeVex = false) {p0 p1 p2 op : Byte}
    (h0 : p0.getLsbD 3 = false) (h1 : p1.getLsbD 2 = true)
    (h : p0.extractLsb' 0 3 ≠ 1 ∨ p1.extractLsb' 0 2 ≠ 1 ∨ op ≠ 0xF6) (bs : List Byte) :
    decodeEvex mode ps none (p0 :: p1 :: p2 :: op :: bs) = .rejected .notInSlice := by
  cases hours : p0.extractLsb' 0 3 == 1 && p1.extractLsb' 0 2 == 1 with
  | false => simp only [decodeEvex, hps, h0, h1, hours]; rfl
  | true =>
    rw [Bool.and_eq_true, beq_iff_eq, beq_iff_eq] at hours
    have hop : op ≠ 0xF6 := (h.resolve_left (not_not_intro hours.1)).resolve_left (not_not_intro hours.2)
    simp only [decodeEvex, hps, h0, h1, hours, if_pos hop]
    rfl

/-- Settles O46: the prefixes and the REX byte are consumed; then the first byte, field or opcode that is not this
instruction's decides. -/
theorem otherBytesAreNotInSlice : Obligations.OtherBytesAreNotInSlice := by
  intro mode pre rex b op p0 p1 p2 rest hmode hacc hrex
  obtain ⟨ps, hps, hext⟩ := decode_accepted hmode hacc
  refine ⟨fun hb hb' hr => ?_, fun hop => ?_, fun h66 hF2 hF3 hF0 => ?_⟩
  · simp only [List.mem_cons, List.not_mem_nil, or_false, not_or] at hb'
    obtain ⟨h64, h65, h0F, hC4, hC5, h62⟩ := hb'
    obtain ⟨r, hd⟩ := decodeFrom_optional_rex hrex ((prefixByte_eq_none_iff b).2 ⟨hb, h64, h65⟩)
      (fun h => by simpa [isRexByte] using hr h) ps rest
    rw [hps, hd, decodeOpcode, if_neg h0F, if_neg hC5, if_neg hC4, if_neg h62]
  · obtain ⟨r, hd⟩ := decodeFrom_optional_rex hrex (b := 0x0F) rfl (fun _ => rfl) ps (op :: rest)
    rw [hps, hd]
    exact decodeLegacy_notInSlice hop ..
  · have hill : ps.illegalBeforeVex = false := by
      simp [PrefixSet.illegalBeforeVex, hext.opSize_eq_false h66, hext.repne_eq_false hF2, hext.rep_eq_false hF3,
        hext.lock_eq_false hF0]
    refine ⟨fun h => ?_, fun h => ?_, fun h0 h1 h => ?_⟩
    · rw [hps, decodeFrom_opcode mode ps 0xC5 _ rfl rfl]
      simp [decodeOpcode, decodeVex2_notInSlice hill h]
    · rw [hps, decodeFrom_opcode mode ps 0xC4 _ rfl rfl]
      simp [decodeOpcode, decodeVex3_notInSlice hill h]
    · rw [hps, decodeFrom_opcode mode ps 0x62 _ rfl rfl]
      simp [decodeOpcode, decodeEvex_notInSlice hill h0 h1 h]

/-! ### Mode32 (R72, R74) -/

/-- Settles O45: the byte after `C4`, `C5` or `62` is looked at before the prefix is read as one. -/
theorem mode32OlderInstructions : Obligations.Mode32OlderInstructions := by
  intro b next rest hb hnext
  have hold : olderInstr .mode32 (next :: rest) = true := by simpa [olderInstr] using hnext
  have hb' : prefixByte b = none ∧ isRexByte b = false := by
    rcases hb with rfl | rfl | rfl <;> exact ⟨rfl, rfl⟩
  rw [decode_of_supported rfl, decodeFrom_opcode _ _ _ _ hb'.1 hb'.2]
  rcases hb with rfl | rfl | rfl <;> simp [decodeOpcode, hold]

/-- Where `v.r` and `v.x` are clear, `C4` is no LES, and another extension bit is refused after the opcode. -/
theorem decodeOpcode_vex3_nonCanonical {v : Vex3} (hr : v.r = false) (hx : v.x = false) (hwf : v.wf32 = false) (l : Bool)
    (p : Prefixes) (X : List Byte) :
    ∃ bs, v.encode l = 0xC4 :: bs ∧
      decodeOpcode .mode32 p.toSet none 0xC4 (bs ++ 0xF6 :: X) = .rejected .nonCanonicalMode32Bits := by
  obtain ⟨b1, b2, he, hv, hmap, hpp, -, htop⟩ := vex3_encode v l
  have hold : olderInstr .mode32 (b1 :: b2 :: 0xF6 :: X) = false := olderInstr_cons_eq_false fun _ => htop.2 ⟨hr, hx⟩
  refine ⟨[b1, b2], he, ?_⟩
  simp only [decodeOpcode, List.cons_append, List.nil_append, hold, decodeVex3, ← hv, hmap, hpp, hwf]
  rfl

/-- The same for EVEX and BOUND. -/
theorem decodeOpcode_evex_nonCanonical {e : Evex} (hr : e.r = false) (hx : e.x = false) (hwf : e.wf32 = false)
    (ll : BitVec 2) (p : Prefixes) (X : List Byte) :
    ∃ bs, e.encode ll = 0x62 :: bs ∧
      decodeOpcode .mode32 p.toSet none 0x62 (bs ++ 0xF6 :: X) = .rejected .nonCanonicalMode32Bits := by
  obtain ⟨p0, p1, p2, he, hv, h03, h12, hmap, hpp, -, -, -, -, htop⟩ := evex_encode e ll
  have hold : olderInstr .mode32 (p0 :: p1 :: p2 :: 0xF6 :: X) = false :=
    olderInstr_cons_eq_false fun _ => htop.2 ⟨hr, hx⟩
  refine ⟨[p0, p1, p2], he, ?_⟩
  simp only [decodeOpcode, List.cons_append, List.nil_append, hold, decodeEvex, ← hv, h03, h12, hmap, hpp, hwf]
  rfl

/-- In Mode32 the prefixes of an instruction and the first byte of its body, no prefix and no REX byte, lead to its opcode. -/
theorem decode_mode32_prefixes (p : Prefixes) {b : Byte} (hb : prefixByte b = none) (hr : isRexByte b = false)
    (bs : List Byte) : decode .mode32 (p.encode ++ b :: bs) = decodeOpcode .mode32 p.toSet none b bs := by
  rw [decode_of_supported rfl, decodeFrom_prefixes, decodeFrom_opcode _ _ _ _ hb hr]

/-- Settles O48: the bits are looked at after the opcode, for either length of the three forms. -/
theorem mode32ExtensionBitsRefused : Obligations.Mode32ExtensionBitsRefused := by
  intro p v e m rest
  constructor
  · intro hr hx hwf
    have refused : ∀ l, decode .mode32 (p.encode ++ (v.encode l ++ 0xF6 :: m.encode) ++ rest)
        = .rejected .nonCanonicalMode32Bits := fun l => by
      obtain ⟨bs, he, hd⟩ := decodeOpcode_vex3_nonCanonical hr hx hwf l p (m.encode ++ rest)
      rw [he, ← hd, ← decode_mode32_prefixes p rfl rfl]
      simp
    exact ⟨refused false, refused true⟩
  · intro hr hx hwf
    have refused : ∀ ll, decode .mode32 (p.encode ++ (e.encode ll ++ 0xF6 :: m.encode) ++ rest)
        = .rejected .nonCanonicalMode32Bits := fun ll => by
      obtain ⟨bs, he, hd⟩ := decodeOpcode_evex_nonCanonical hr hx hwf ll p (m.encode ++ rest)
      rw [he, ← hd, ← decode_mode32_prefixes p rfl rfl]
      simp
    exact ⟨refused 0, refused 1, refused 2⟩

/-! ### Words of the spec -/

/-- Settles O49: each of the four words is a few bytes, read by the decoder as it computes. -/
theorem specWordsDecode : Obligations.SpecWordsDecode := by
  refine ⟨?_, ?_, ?_, ?_⟩ <;> decide

end Sys2Proof
end

section
/-! PROOFS. What the decoder accepts (spec/30_encoding.md R73, R75): the bytes of a well-formed instruction, its prefixes in some
order, and no others. -/

namespace Sys2Proof

/-- Every encoding is as long as `Instr.len` says, 3 to 15 bytes (R75). -/
theorem encodedLength (i : Instr) : Laws.EncodedLength.Statement i := by
  cases i with
  | psadbwMm => exact Laws.EncodedLength.psadbwMm ..
  | psadbwMmRex => exact Laws.EncodedLength.psadbwMmRex ..
  | psadbwXmm => exact Laws.EncodedLength.psadbwXmm ..
  | psadbwXmmRex => exact Laws.EncodedLength.psadbwXmmRex ..
  | vpsadbwVex128C5 => exact Laws.EncodedLength.vpsadbwVex128C5 ..
  | vpsadbwVex128C4 => exact Laws.EncodedLength.vpsadbwVex128C4 ..
  | vpsadbwVex256C5 => exact Laws.EncodedLength.vpsadbwVex256C5 ..
  | vpsadbwVex256C4 => exact Laws.EncodedLength.vpsadbwVex256C4 ..
  | vpsadbwEvex128 => exact Laws.EncodedLength.vpsadbwEvex128 ..
  | vpsadbwEvex256 => exact Laws.EncodedLength.vpsadbwEvex256 ..
  | vpsadbwEvex512 => exact Laws.EncodedLength.vpsadbwEvex512 ..

/-- The bytes `bs` after the prefixes `ps` begin with the body of the instruction, which is well formed in the mode and has
these prefixes. -/
def ReadsAs (mode : Mode) (ps : PrefixSet) (bs : List Byte) (i : Instr) : Prop :=
  i.wf mode = true ∧ ps.bytes = i.prefixBytes ∧ ∃ rest, bs = i.body ++ rest

/-! ### One family at a time -/

/-- What well-formedness in a mode with a meaning asks of an instruction, part by part. -/
theorem Instr.wf_of_parts {mode : Mode} {i : Instr} {ps : PrefixSet} (hmode : mode.supported = true)
    (hrm : i.modrm.rm.wf = true) (hkept : i.prefixes = ps.kept) (ha : addr16 mode ps = true → i.modrm.rm.isMem = false)
    (h32 : mode = .mode32 → i.wf32 = true) : i.wf mode = true := by
  rcases (Machine.mode_supported_iff mode).1 hmode with rfl | rfl
  · exact hrm
  · have hp : i.prefixes.wf32 i.modrm.rm = true := by
      cases h67 : ps.addrSize with
      | false => simp [Prefixes.wf32, hkept, PrefixSet.kept, h67]
      | true => simp [Prefixes.wf32, ha (by simp [addr16, h67])]
    simp [Instr.wf, hrm, hp, h32 rfl]

/-- The prefixes of a set without LOCK, REPNE and REP: the ones kept, and `66`. -/
theorem PrefixSet.bytes_of_not_lock_rep {ps : PrefixSet} (hlock : ps.lock = false) (hrepne : ps.repne = false)
    (hrep : ps.rep = false) : ps.bytes = ps.kept.encode ++ if ps.opSize then [0x66] else [] := by
  simp [PrefixSet.bytes, hlock, hrepne, hrep]

/-- The legacy body, without a REX byte or (Mode64) after one. -/
theorem readsAs_of_decodeLegacy {mode : Mode} (hmode : mode.supported = true) {ps : PrefixSet} {rex : Option Rex}
    (hrex : rex.isSome = true → mode = .mode64) {bs : List Byte} {i : Instr} (h : decodeLegacy mode ps rex bs = .instr i) :
    ReadsAs mode ps ((rex.elim [] fun x => [x.encode]) ++ 0x0F :: bs) i := by
  unfold decodeLegacy at h
  split at h
  · cases h
  next op bs =>
  split at h
  · cases h
  next hop =>
  split at h
  · obtain ⟨f, m, rest, hf, -⟩ := withModRM_eq_instr h
    cases hf
  next hlock =>
  split at h
  · cases h
  next hreps =>
  obtain ⟨f, m, rest, hf, rfl, hrm, ha, rfl, -⟩ := withModRM_eq_instr h
  obtain rfl := Option.some.inj hf
  obtain rfl := not_not.1 hop
  obtain ⟨hrepne, hrep⟩ := Bool.or_eq_false_iff.1 (Bool.eq_false_iff.2 hreps)
  have hbytes := PrefixSet.bytes_of_not_lock_rep (Bool.eq_false_iff.2 hlock) hrepne hrep
  have h64 : rex.isSome = true → mode = .mode32 → False := fun hs h32 => by cases (hrex hs).symm.trans h32
  unfold legacyInstr ReadsAs
  cases hop : ps.opSize <;> cases rex <;> rw [hbytes, hop]
  · exact ⟨Instr.wf_of_parts hmode hrm rfl ha fun _ => rfl, rfl, rest, rfl⟩
  · exact ⟨Instr.wf_of_parts hmode hrm rfl ha fun h32 => (h64 rfl h32).elim, rfl, rest, rfl⟩
  · exact ⟨Instr.wf_of_parts hmode hrm rfl ha fun _ => rfl, rfl, rest, rfl⟩
  · exact ⟨Instr.wf_of_parts hmode hrm rfl ha fun h32 => (h64 rfl h32).elim, rfl, rest, rfl⟩

/-- A VEX or EVEX body: nothing illegal stands before it, so the set's bytes are those of the prefixes kept. -/
theorem readsAs_vex {mode : Mode} (hmode : mode.supported = true) {ps : PrefixSet} {rex : Option Rex}
    (hill : ¬(ps.illegalBeforeVex || rex.isSome) = true) {i : Instr} (hform : i.form ≠ .xmm)
    (hkept : i.prefixes = ps.kept) (h32 : mode = .mode32 → i.wf32 = true) (hrm : i.modrm.rm.wf = true)
    (ha : addr16 mode ps = true → i.modrm.rm.isMem = false) {bs : List Byte} (hbs : ∃ rest, bs = i.body ++ rest) :
    rex = none ∧ ReadsAs mode ps bs i := by
  simp only [PrefixSet.illegalBeforeVex, Bool.or_eq_true, not_or, Bool.not_eq_true, Option.isSome_eq_false_iff,
    Option.isNone_iff_eq_none] at hill
  obtain ⟨⟨⟨⟨hop, hrepne⟩, hrep⟩, hlock⟩, hrex⟩ := hill
  refine ⟨hrex, Instr.wf_of_parts hmode hrm hkept ha h32, ?_, hbs⟩
  rw [PrefixSet.bytes_of_not_lock_rep hlock hrepne hrep, hop, Instr.prefixBytes, hkept, if_neg hform]
  rfl

/-- Both top bits after `C5` set say that `vvvv` and `R` name registers 0 to 7 (R72, R74). -/
theorem vex2_wf32_of_top {p : Byte} (h : p.extractLsb' 6 2 = 3) :
    Vex2.wf32 ⟨!p.getLsbD 7, ~~~(p.extractLsb' 3 4)⟩ = true := by
  revert p
  decide +kernel

theorem readsAs_of_decodeVex2 {mode : Mode} (hmode : mode.supported = true) {ps : PrefixSet} {rex : Option Rex}
    {bs : List Byte} {i : Instr} (hold : olderInstr mode bs = false) (h : decodeVex2 mode ps rex bs = .instr i) :
    rex = none ∧ ReadsAs mode ps (0xC5 :: bs) i := by
  unfold decodeVex2 at h
  split at h
  · cases h
  next p bs =>
  dsimp only at h
  split at h
  · exact (decodeIllegal_ne_instr _ _ _ _ _ h).elim
  next hill =>
  split at h
  · cases h
  next hpp =>
  have heta := vex2_eta p (by simpa using hpp)
  have h32 : mode = .mode32 → Vex2.wf32 ⟨!p.getLsbD 7, ~~~(p.extractLsb' 3 4)⟩ = true := fun hm =>
    vex2_wf32_of_top (by simpa [olderInstr, hm] using hold)
  cases hl : p.getLsbD 2 <;> simp only [hl, if_true, if_false, Bool.false_eq_true] at h heta
  all_goals
    obtain ⟨f, m, rest, hf, rfl, hrm, ha, rfl, -⟩ := decodeF6_eq_instr h
    obtain rfl := Option.some.inj hf
    refine readsAs_vex hmode hill ?_ ?_ ?_ ?_ ?_ ?_
    exacts [by simp [Instr.form], rfl, h32, hrm, ha, ⟨rest, by simp only [Instr.body, heta]; rfl⟩]

theorem readsAs_of_decodeVex3 {mode : Mode} (hmode : mode.supported = true) {ps : PrefixSet} {rex : Option Rex}
    {bs : List Byte} {i : Instr} (h : decodeVex3 mode ps rex bs = .instr i) :
    rex = none ∧ ReadsAs mode ps (0xC4 :: bs) i := by
  unfold decodeVex3 at h
  split at h
  swap
  · cases h
  next p q bs =>
  dsimp only at h
  split at h
  · exact (decodeIllegal_ne_instr _ _ _ _ _ h).elim
  next hill =>
  split at h
  · cases h
  next hours =>
  simp only [Bool.not_eq_true', Bool.not_eq_false, Bool.and_eq_true, beq_iff_eq] at hours
  have heta := vex3_eta p q hours.1 hours.2
  split at h
  · cases h
  split at h
  · cases h
  next op bs hop =>
  split at h
  · cases h
  next hwf =>
  obtain rfl := not_not.1 hop
  have h32 : mode = .mode32 →
      Vex3.wf32 ⟨!p.getLsbD 7, !p.getLsbD 6, !p.getLsbD 5, q.getLsbD 7, ~~~(q.extractLsb' 3 4)⟩ = true := fun hm => by
    simpa [hm] using hwf
  cases hl : q.getLsbD 2 <;> simp only [hl, if_true, if_false, Bool.false_eq_true] at h heta
  all_goals
    obtain ⟨f, m, rest, hf, rfl, hrm, ha, rfl, -⟩ := withModRM_eq_instr h
    obtain rfl := Option.some.inj hf
    refine readsAs_vex hmode hill ?_ ?_ ?_ ?_ ?_ ?_
    exacts [by simp [Instr.form], rfl, h32, hrm, ha, ⟨rest, by simp only [Instr.body, heta]; rfl⟩]

/-- The form that `L'L` selects is one of three. -/
theorem evexInstr_eq_some {ll : BitVec 2} {p : Prefixes} {e : Evex} {f : ModRM → Instr} (h : evexInstr ll p e = some f) :
    ll = 0 ∧ f = .vpsadbwEvex128 p e ∨ ll = 1 ∧ f = .vpsadbwEvex256 p e ∨ ll = 2 ∧ f = .vpsadbwEvex512 p e := by
  unfold evexInstr at h
  split at h
  · next h0 => exact .inl ⟨h0, (Option.some.inj h).symm⟩
  split at h
  · next h1 => exact .inr (.inl ⟨h1, (Option.some.inj h).symm⟩)
  split at h
  · next h2 => exact .inr (.inr ⟨h2, (Option.some.inj h).symm⟩)
  · cases h

theorem readsAs_of_decodeEvex {mode : Mode} (hmode : mode.supported = true) {ps : PrefixSet} {rex : Option Rex}
    {bs : List Byte} {i : Instr} (h : decodeEvex mode ps rex bs = .instr i) :
    rex = none ∧ ReadsAs mode ps (0x62 :: bs) i := by
  unfold decodeEvex at h
  split at h
  swap
  · cases h
  next p q r bs =>
  dsimp only at h
  split at h
  · exact (decodeIllegal_ne_instr _ _ _ _ _ h).elim
  next hearly =>
  obtain ⟨hill, h3, h2⟩ : ¬(ps.illegalBeforeVex || rex.isSome) = true ∧ p.getLsbD 3 = false ∧ q.getLsbD 2 = true := by
    revert hearly
    cases ps.illegalBeforeVex || rex.isSome <;> cases p.getLsbD 3 <;> cases q.getLsbD 2 <;> decide
  split at h
  · cases h
  next hours =>
  simp only [Bool.not_eq_true', Bool.not_eq_false, Bool.and_eq_true, beq_iff_eq] at hours
  split at h
  · cases h
  split at h
  · cases h
  next op bs hop =>
  split at h
  · cases h
  next hwf =>
  obtain rfl := not_not.1 hop
  split at h
  swap
  · obtain ⟨f, m, rest, hf, -⟩ := withModRM_eq_instr h
    cases hf
  next hlegal =>
  simp only [Bool.and_eq_true, Bool.not_eq_true', beq_iff_eq] at hlegal
  obtain ⟨⟨hz, hb⟩, haaa⟩ := hlegal
  have heta := evex_eta p q r hours.1 h3 hours.2 h2 haaa hz hb
  have h32 : mode = .mode32 → Evex.wf32 ⟨!p.getLsbD 7, !p.getLsbD 6, !p.getLsbD 5, !p.getLsbD 4, q.getLsbD 7,
      ~~~(q.extractLsb' 3 4), !r.getLsbD 3⟩ = true := fun hm => by
    simpa [hm] using hwf
  obtain ⟨f, m, rest, hf, rfl, hrm, ha, rfl, -⟩ := withModRM_eq_instr h
  rcases evexInstr_eq_some hf with ⟨hll, rfl⟩ | ⟨hll, rfl⟩ | ⟨hll, rfl⟩
  all_goals
    rw [hll] at heta
    refine readsAs_vex hmode hill ?_ ?_ ?_ ?_ ?_ ?_
    exacts [by simp [Instr.form], rfl, h32, hrm, ha, ⟨rest, by simp only [Instr.body, heta]; rfl⟩]

theorem readsAs_of_decodeOpcode {mode : Mode} (hmode : mode.supported = true) {ps : PrefixSet} {rex : Option Rex}
    (hrex : rex.isSome = true → mode = .mode64) {b : Byte} {bs : List Byte} {i : Instr}
    (h : decodeOpcode mode ps rex b bs = .instr i) : ReadsAs mode ps ((rex.elim [] fun x => [x.encode]) ++ b :: bs) i := by
  unfold decodeOpcode at h
  split at h
  · next hb => exact hb ▸ readsAs_of_decodeLegacy hmode hrex h
  split at h
  · next hb =>
    split at h
    · cases h
    · next hold =>
      obtain ⟨rfl, hi⟩ := readsAs_of_decodeVex2 hmode (Bool.eq_false_iff.2 hold) h
      exact hb ▸ hi
  split at h
  · next hb =>
    split at h
    · cases h
    · obtain ⟨rfl, hi⟩ := readsAs_of_decodeVex3 hmode h
      exact hb ▸ hi
  split at h
  · next hb =>
    split at h
    · cases h
    · obtain ⟨rfl, hi⟩ := readsAs_of_decodeEvex hmode h
      exact hb ▸ hi
  · cases h

/-- The decoder reads prefix bytes, which make up its set in some order, and then the body of a well-formed instruction. -/
theorem readsAs_of_decodeFrom {mode : Mode} (hmode : mode.supported = true) {bs : List Byte} :
    ∀ {ps : PrefixSet} {i : Instr}, decodeFrom mode ps bs = .instr i →
      ∃ pre ps' tail, bs = pre ++ tail ∧ (pre ++ ps.bytes).Perm ps'.bytes ∧ ReadsAs mode ps' tail i := by
  induction bs with
  | nil => intro ps i h; cases h
  | cons b bs ih =>
    intro ps i h
    rw [decodeFrom] at h
    cases hb : prefixByte b with
    | some k =>
      simp only [hb] at h
      cases hadd : ps.add k with
      | error r => simp [hadd] at h
      | ok ps' =>
        simp only [hadd] at h
        obtain ⟨pre, ps'', tail, rfl, hperm, hread⟩ := ih h
        refine ⟨b :: pre, ps'', tail, rfl, ?_, hread⟩
        have hmove : (b :: (pre ++ ps.bytes)).Perm (pre ++ b :: ps.bytes) := List.perm_middle.symm
        exact (hmove.trans ((PrefixSet.add_perm hb hadd).append_left pre)).trans hperm
    | none =>
      simp only [hb] at h
      refine ⟨[], ps, b :: bs, rfl, .refl _, ?_⟩
      split at h
      · next hrex =>
        simp only [Bool.and_eq_true, decide_eq_true_eq] at hrex
        unfold decodeAfterRex at h
        split at h
        · cases h
        split at h
        · cases h
        · have := readsAs_of_decodeOpcode hmode (fun _ => hrex.1) h
          rwa [Option.elim_some, rex_eta b hrex.2] at this
      · exact readsAs_of_decodeOpcode hmode (rex := none) (fun h => by cases h) h

/-- Settles O41: the bytes consumed are a permutation of the set's, which are the instruction's prefix bytes, and then its
body; with `encode_eq` their number is the instruction's length. -/
theorem decodedInstructionIsWellFormed : Obligations.DecodedInstructionIsWellFormed := by
  intro mode bs i h
  have hmode : mode.supported = true := by
    by_contra hm
    rw [decode, if_neg hm] at h
    cases h
  rw [decode_of_supported hmode] at h
  obtain ⟨pre, ps, tail, rfl, hperm, hwf, hbytes, rest, rfl⟩ := readsAs_of_decodeFrom hmode h
  have hpre : pre.Perm i.prefixBytes := by
    rw [← hbytes]
    simpa [PrefixSet.bytes, PrefixSet.empty, PrefixSet.kept, Prefixes.encode] using hperm
  obtain ⟨hlen, h3, h15⟩ := encodedLength i
  have hlen' : (pre ++ i.body).length = i.len := by
    rw [← hlen, encode_eq, List.length_append, List.length_append, hpre.length_eq]
  refine ⟨hwf, h3, h15, ?_, pre, hpre, ?_⟩
  · rw [← hlen', ← List.append_assoc, List.length_append (bs := rest)]
    exact Nat.le_add_right _ _
  · rw [← hlen', ← List.append_assoc, List.take_left]

end Sys2Proof
end

section
/-! PROOFS. Bytes after an instruction do not matter, and a proper beginning of one lacks a byte (spec/60_exceptions.md R131 step
1): every part of the decoder answers from the bytes it has or asks for one more. -/

namespace Sys2Proof

/-! ### Reading from the front -/

/-- A reader of bytes that answers `missing` where a byte is not there: what it answers otherwise stays when bytes follow. -/
structure ReadsFront {β : Type} (missing : β) (f : List Byte → β) : Prop where
  append : ∀ cs ds, f cs ≠ missing → f (cs ++ ds) = f cs

theorem ReadsFront.const {β : Type} (missing b : β) : ReadsFront missing fun _ => b :=
  ⟨fun _ _ _ => rfl⟩

theorem ReadsFront.ite {β : Type} {missing : β} {c : Prop} [Decidable c] {f g : List Byte → β}
    (hf : ReadsFront missing f) (hg : ReadsFront missing g) : ReadsFront missing fun bs => if c then f bs else g bs := by
  by_cases hc : c
  · simpa only [if_pos hc] using hf
  · simpa only [if_neg hc] using hg

/-- A reader that needs a first byte reads from the front when it does so after each first byte. -/
theorem ReadsFront.cons {β : Type} {missing : β} {f : List Byte → β} (hnil : f [] = missing)
    (hcons : ∀ b, ReadsFront missing fun bs => f (b :: bs)) : ReadsFront missing f := by
  refine ⟨fun cs ds h => ?_⟩
  cases cs with
  | nil => exact absurd hnil h
  | cons b cs => exact (hcons b).append cs ds h

theorem ReadsFront.map {α β ε : Type} {e : ε} {f : List Byte → Except ε α} (hf : ReadsFront (.error e) f)
    (g : α → β) : ReadsFront (.error e) fun bs => (f bs).map g := by
  refine ⟨fun cs ds h => ?_⟩
  have : f cs ≠ .error e := fun he => h (by simp only [he]; rfl)
  simp only [hf.append cs ds this]

/-! ### The parts of the decoder -/

theorem readsFront_parseDisp32 : ReadsFront (.error .fetchOutsideCode) parseDisp32 :=
  .cons rfl fun _ => .cons rfl fun _ => .cons rfl fun _ => .cons rfl fun _ => .const _ _

theorem readsFront_parseDisp (mod : BitVec 2) : ReadsFront (.error .fetchOutsideCode) (parseDisp mod) :=
  .ite (.const _ _) (.ite (.cons rfl fun _ => .const _ _) (readsFront_parseDisp32.map _))

theorem readsFront_parseSib (mod : BitVec 2) : ReadsFront (.error .fetchOutsideCode) (parseSib mod) :=
  .cons rfl fun _ => .ite (readsFront_parseDisp32.map _) ((readsFront_parseDisp mod).map _)

theorem readsFront_parseMem (mod : BitVec 2) (rm : BitVec 3) :
    ReadsFront (.error .fetchOutsideCode) (parseMem mod rm) :=
  .ite (readsFront_parseSib mod) (.ite (readsFront_parseDisp32.map _) ((readsFront_parseDisp mod).map _))

theorem readsFront_parseModRM (a16 : Bool) : ReadsFront (.error .fetchOutsideCode) (parseModRM a16) :=
  .cons rfl fun _ => .ite (.const _ _) (.ite (.const _ _) ((readsFront_parseMem _ _).map _))

theorem readsFront_withModRM (before : Nat) (mk : Option (ModRM → Instr)) (a16 : Bool) :
    ReadsFront (.rejected .fetchOutsideCode) (withModRM before mk a16) := by
  refine ⟨fun cs ds h => ?_⟩
  have : parseModRM a16 cs ≠ .error .fetchOutsideCode := fun he => h (by simp only [withModRM, he])
  simp only [withModRM, (readsFront_parseModRM a16).append cs ds this]

theorem readsFront_decodeLegacy (mode : Mode) (ps : PrefixSet) (rex : Option Rex) :
    ReadsFront (.rejected .fetchOutsideCode) (decodeLegacy mode ps rex) :=
  .cons rfl fun _ => .ite (.const _ _)
    (.ite (readsFront_withModRM ..) (.ite (.const _ _) (readsFront_withModRM ..)))

theorem readsFront_decodeF6 (before : Nat) (mk : Option (ModRM → Instr)) (a16 : Bool) :
    ReadsFront (.rejected .fetchOutsideCode) (decodeF6 before mk a16) :=
  .cons rfl fun _ => .ite (.const _ _) (readsFront_withModRM ..)

theorem readsFront_decodeIllegal (before : Nat) (ours a16 : Bool) :
    ReadsFront (.rejected .fetchOutsideCode) (decodeIllegal before ours a16) :=
  .cons rfl fun _ => .ite (readsFront_withModRM ..) (.const _ _)

theorem readsFront_decodeVex2 (mode : Mode) (ps : PrefixSet) (rex : Option Rex) :
    ReadsFront (.rejected .fetchOutsideCode) (decodeVex2 mode ps rex) :=
  .cons rfl fun _ => .ite (readsFront_decodeIllegal ..)
    (.ite (.const _ _) (.ite (readsFront_decodeF6 ..) (readsFront_decodeF6 ..)))

theorem readsFront_decodeVex3 (mode : Mode) (ps : PrefixSet) (rex : Option Rex) :
    ReadsFront (.rejected .fetchOutsideCode) (decodeVex3 mode ps rex) :=
  .cons rfl fun _ => .cons rfl fun _ => .ite (readsFront_decodeIllegal ..)
    (.ite (.const _ _) (.cons rfl fun _ => .ite (.const _ _)
      (.ite (.const _ _) (.ite (readsFront_withModRM ..) (readsFront_withModRM ..)))))

theorem readsFront_decodeEvex (mode : Mode) (ps : PrefixSet) (rex : Option Rex) :
    ReadsFront (.rejected .fetchOutsideCode) (decodeEvex mode ps rex) :=
  .cons rfl fun _ => .cons rfl fun _ => .cons rfl fun _ => .ite (readsFront_decodeIllegal ..)
    (.ite (.const _ _) (.cons rfl fun _ => .ite (.const _ _)
      (.ite (.const _ _) (.ite (readsFront_withModRM ..) (readsFront_withModRM ..)))))

/-- LES, LDS and BOUND are told from the first byte. -/
theorem readsFront_olderInstr {mode : Mode} {f : List Byte → Decoded} (hnil : f [] = .rejected .fetchOutsideCode)
    (hf : ReadsFront (.rejected .fetchOutsideCode) f) :
    ReadsFront (.rejected .fetchOutsideCode) fun bs => if olderInstr mode bs then .rejected .notInSlice else f bs :=
  .cons hnil fun b => .ite (c := olderInstr mode [b]) (.const _ _) ⟨fun cs => hf.append (b :: cs)⟩

theorem readsFront_decodeOpcode (mode : Mode) (ps : PrefixSet) (rex : Option Rex) (b : Byte) :
    ReadsFront (.rejected .fetchOutsideCode) (decodeOpcode mode ps rex b) :=
  .ite (readsFront_decodeLegacy ..) (.ite (readsFront_olderInstr rfl (readsFront_decodeVex2 ..))
    (.ite (readsFront_olderInstr rfl (readsFront_decodeVex3 ..))
      (.ite (readsFront_olderInstr rfl (readsFront_decodeEvex ..)) (.const _ _))))

theorem readsFront_decodeAfterRex (mode : Mode) (ps : PrefixSet) (rex : Rex) :
    ReadsFront (.rejected .fetchOutsideCode) (decodeAfterRex mode ps rex) :=
  .cons rfl fun _ => .ite (.const _ _) (readsFront_decodeOpcode ..)

theorem readsFront_decodeFrom (mode : Mode) (ps : PrefixSet) :
    ReadsFront (.rejected .fetchOutsideCode) (decodeFrom mode ps) := by
  refine ⟨fun cs => ?_⟩
  induction cs generalizing ps with
  | nil => exact fun _ h => absurd rfl h
  | cons b cs ih =>
    intro ds h
    rw [List.cons_append]
    simp only [decodeFrom] at h ⊢
    cases hb : prefixByte b with
    | some k =>
      cases hadd : ps.add k with
      | error r => simp only [hadd]
      | ok ps' =>
        simp only [hb, hadd] at h ⊢
        exact ih ps' ds h
    | none =>
      simp only [hb] at h
      exact (ReadsFront.ite (readsFront_decodeAfterRex ..) (readsFront_decodeOpcode ..)).append cs ds h

/-- What the decoder answers to bytes, a missing byte apart, it answers whatever bytes follow. -/
theorem decode_append {mode : Mode} {cs : List Byte} (h : decode mode cs ≠ .rejected .fetchOutsideCode)
    (ds : List Byte) : decode mode (cs ++ ds) = decode mode cs :=
  (ReadsFront.ite (readsFront_decodeFrom ..) (.const _ _)).append cs ds h

/-- A proper beginning of an instruction's bytes lacks a byte. -/
theorem decode_take_of_lt {mode : Mode} {bs : List Byte} {i : Instr} (h : decode mode bs = .instr i) {k : Nat}
    (hk : k < i.len) : decode mode (bs.take k) = .rejected .fetchOutsideCode := by
  by_contra hne
  have hsame : decode mode (bs.take k) = .instr i := by
    rw [← decode_append hne (bs.drop k), List.take_append_drop, h]
  obtain ⟨-, -, -, hlen, -⟩ := decodedInstructionIsWellFormed mode _ i hsame
  have := List.length_take_le k bs
  omega

end Sys2Proof
end

section
/-! PROOFS. Laws of the packed result (spec/40_sad_core.md R93): symmetry, zero on equal operands, and wider forms
side by side. -/

namespace Sys2Proof.Machine

theorem sadGroup_comm (a b : BitVec 64) : sadGroup a b = sadGroup b a := by
  rw [sadGroup, sad8_comm, ← sadGroup]

theorem sadGroup_self (a : BitVec 64) : sadGroup a a = 0 := by
  rw [sadGroup, sad8_self]
  rfl

theorem sadvec_comm (n : Nat) (a b : BitVec n) : sadvec n a b = sadvec n b a := by
  simp only [sadvec, sadGroup_comm (group a _)]

theorem packGroups_zero (n k : Nat) : packGroups n (fun _ => 0) k = 0 := by
  induction k with
  | zero => rfl
  | succ k ih =>
    rw [packGroups, ih]
    simp

/-- Equal operands give zero at every width. -/
theorem sadvec_self (n : Nat) (a : BitVec n) : sadvec n a a = 0 := by
  simp only [sadvec, sadGroup_self, packGroups_zero]

/-- Settles O4: both laws hold group by group. -/
theorem sadvecSymmetricAndZeroOnEqual : Obligations.SadvecSymmetricAndZeroOnEqual :=
  fun n _ a b => ⟨sadvec_comm n a b, sadvec_self n a⟩

/-- A bit of the packed result is a bit of its group's sum. -/
theorem getLsbD_sadvec {n : Nat} (hn : 64 ∣ n) (a b : BitVec n) {j : Nat} (hj : j < n) :
    (sadvec n a b).getLsbD j = (sadGroup (group a (j / 64)) (group b (j / 64))).getLsbD (j % 64) := by
  have hlt : j < 64 * (n / 64) := by omega
  rw [sadvec, getLsbD_packGroups n _ _ (Nat.mul_div_le n 64), decide_eq_true hlt, Bool.true_and]

/-- The groups of the lower operand of a concatenation come first. -/
theorem group_append_of_lt {n k : Nat} (ah al : BitVec n) (hn : n = 64 * k) {g : Nat} (hg : g < k) :
    group (ah ++ al) g = group al g := by
  apply BitVec.eq_of_getLsbD_eq
  intro i hi
  have hlt : 64 * g + i < n := by omega
  simp [group, BitVec.getLsbD_append, hi, hlt]

/-- The groups of the upper operand come after them. -/
theorem group_append_of_ge {n k : Nat} (ah al : BitVec n) (hn : n = 64 * k) {g : Nat} (hg : k ≤ g) :
    group (ah ++ al) g = group ah (g - k) := by
  apply BitVec.eq_of_getLsbD_eq
  intro i hi
  have hge : ¬ 64 * g + i < n := by omega
  have hsub : 64 * g + i - n = 64 * (g - k) + i := by omega
  simp [group, BitVec.getLsbD_append, hi, hge, hsub]

/-- Settles O5: bit by bit, a group of the concatenation is a group of its lower or of its upper half. -/
theorem sadvecOfConcatenation : Obligations.SadvecOfConcatenation := by
  intro n hn ah al bh bl
  obtain ⟨k, hk⟩ := hn
  have hdvd : 64 ∣ n := ⟨k, hk⟩
  apply BitVec.eq_of_getLsbD_eq
  intro j hj
  rw [getLsbD_sadvec (Nat.dvd_add hdvd hdvd) _ _ hj, BitVec.getLsbD_append]
  by_cases hlow : j < n
  · have hg : j / 64 < k := by omega
    rw [if_pos hlow, group_append_of_lt ah al hk hg, group_append_of_lt bh bl hk hg, getLsbD_sadvec hdvd _ _ hlow]
  · have hg : k ≤ j / 64 := by omega
    have hdiv : (j - n) / 64 = j / 64 - k := by omega
    have hmod : (j - n) % 64 = j % 64 := by omega
    have hlt : j - n < n := by omega
    rw [if_neg hlow, group_append_of_ge ah al hk hg, group_append_of_ge bh bl hk hg, getLsbD_sadvec hdvd _ _ hlt, hdiv,
      hmod]

end Sys2Proof.Machine
end

section
/-! PROOFS. Each instruction is one of three meanings, at the registers it names, and completes with its result where it is
enabled and its operand is readable (spec/41_psadbw_legacy.md, 42_vpsadbw_vex.md, 43_vpsadbw_evex.md). -/

namespace Sys2Proof.Machine

/-! ### Three meanings -/

theorem exec_of_mm {i : Instr} (hf : i.form = .mm) (s : State) :
    exec i s = runMm i.prefixes i.extX i.extB i.modrm i.len s := by
  cases i with
  | psadbwMm | psadbwMmRex => rfl
  | _ => cases hf

/-- `R` of form 2, the extension bit of its destination; 0 without REX (R69). -/
def xmmR : Instr → Bool
  | .psadbwXmmRex _ rex _ => rex.r
  | _ => false

theorem dest_of_xmm {i : Instr} (hf : i.form = .xmm) : i.dest = reg5 false (xmmR i) i.modrm.reg := by
  cases i with
  | psadbwXmm | psadbwXmmRex => rfl
  | _ => cases hf

theorem exec_of_xmm {i : Instr} (hf : i.form = .xmm) (s : State) :
    exec i s = runXmm i.prefixes (xmmR i) i.extX i.extB i.modrm i.len s := by
  cases i with
  | psadbwXmm | psadbwXmmRex => rfl
  | _ => cases hf

theorem exec_of_vector {i : Instr} (hmm : i.form ≠ .mm) (hxmm : i.form ≠ .xmm) (s : State) :
    exec i s = runVector i.form i.prefixes i.dest i.src1 i.rmHi i.extX i.extB i.modrm.rm i.len s := by
  cases i with
  | psadbwMm | psadbwMmRex => exact absurd rfl hmm
  | psadbwXmm | psadbwXmmRex => exact absurd rfl hxmm
  | _ => rfl

/-- What form 1 answers, and when. -/
theorem exec_mm_eq_next {i : Instr} (hf : i.form = .mm) (s t : State) :
    exec i s = .next t ↔ formChecks i.form i.prefixes i.modrm.rm s = .next () ∧
      ∃ src, readRmMm s i.prefixes i.extX i.extB i.len i.modrm.rm = .next src ∧
        t = (s.writeMm i.modrm.reg (sadvec 64 (s.readMm i.modrm.reg) src)).advance i.len := by
  rw [exec_of_mm hf, runMm_eq_next, hf]

/-- What form 2 answers, and when. -/
theorem exec_xmm_eq_next {i : Instr} (hf : i.form = .xmm) (s t : State) :
    exec i s = .next t ↔ formChecks i.form i.prefixes i.modrm.rm s = .next () ∧
      ∃ src, readRmVec s .xmm i.prefixes false i.extX i.extB i.len i.modrm.rm = .next src ∧
        t = (s.writeVec i.dest
          (keepUpper128 (s.readVec i.dest) (sadvec 128 (s.readView 128 i.dest) src))).advance i.len := by
  rw [exec_of_xmm hf, runXmm_eq_next, hf, dest_of_xmm hf]

/-- What the three-operand forms answer, and when. -/
theorem exec_vector_eq_next {i : Instr} (hmm : i.form ≠ .mm) (hxmm : i.form ≠ .xmm) (s t : State) :
    exec i s = .next t ↔ formChecks i.form i.prefixes i.modrm.rm s = .next () ∧
      ∃ src, readRmVec s i.form i.prefixes i.rmHi i.extX i.extB i.len i.modrm.rm = .next src ∧
        t = (s.writeVec i.dest
          ((sadvec (vl i.form) (s.readView (vl i.form) i.src1) src).setWidth 512)).advance i.len := by
  rw [exec_of_vector hmm hxmm, runVector_eq_next]

/-! ### Completion -/

theorem exec_mm_of_source {i : Instr} (hf : i.form = .mm) {s : State} {v : BitVec 64} (hen : Enabled i s)
    (hv : MmSource i s v) :
    exec i s = .next ((s.writeMm i.modrm.reg (sadvec 64 (s.readMm i.modrm.reg) v)).advance i.len) :=
  (exec_mm_eq_next hf s _).2 ⟨formChecks_of_enabled i s hen, v, readRmMm_of_source i s v hv, rfl⟩

theorem exec_xmm_of_source {i : Instr} (hf : i.form = .xmm) {s : State} {v : BitVec 128} (hen : Enabled i s)
    (hv : VecSource .xmm false i s v) :
    exec i s = .next ((s.writeVec i.dest
      (keepUpper128 (s.readVec i.dest) (sadvec 128 (s.readView 128 i.dest) v))).advance i.len) :=
  (exec_xmm_eq_next hf s _).2 ⟨formChecks_of_enabled i s hen, v, readRmVec_of_source .xmm false i s v hv, rfl⟩

/-- With consistent flags a result is not cut off: the register holds it under zeros. -/
theorem exec_vector_of_source {i : Instr} (hmm : i.form ≠ .mm) (hxmm : i.form ≠ .xmm) {s : State}
    {v : BitVec (vl i.form)} (hc : s.feat.consistent = true) (hen : Enabled i s) (hv : VecSource i.form i.rmHi i s v) :
    exec i s = .next { s with
      vec := s.vec.set i.dest.toNat ((sadvec (vl i.form) (s.readView (vl i.form) i.src1) v).setWidth 512) i.dest.isLt
      ip := s.nextIp i.len } := by
  obtain ⟨-, hdef, -⟩ := id hen
  have hclip := clipMaxvl_setWidth s.feat (vl i.form) (vl_le_maxvl i.form s hc hdef hmm hxmm)
  rw [(exec_vector_eq_next hmm hxmm s _).2
    ⟨formChecks_of_enabled i s hen, v, readRmVec_of_source i.form i.rmHi i s v hv, rfl⟩]
  simp only [State.writeVec, State.advance, State.nextIp, hclip]

/-- Settles O6: for either constructor, the write of `mm[reg]` and the advance of `ip`. -/
theorem psadbwMmCompletes : Obligations.PsadbwMmCompletes := by
  rintro p rex m i s v (rfl | rfl) hen hv
  · exact exec_mm_of_source rfl hen hv
  · exact exec_mm_of_source rfl hen hv

/-- The low 128 bits of form 2's destination value survive the clip to `MAXVL`. -/
theorem setWidth_clipMaxvl_keepUpper128 (f : Feat) (o : VReg) (r : BitVec 128) :
    (clipMaxvl f (keepUpper128 o r)).setWidth 128 = r := by
  have hmax := (maxvl_bounds f).1
  apply BitVec.eq_of_getLsbD_eq
  intro j hj
  have h512 : j < 512 := by omega
  have hlt : j < maxvl f := by omega
  rw [BitVec.getLsbD_setWidth, getLsbD_clipMaxvl, getLsbD_keepUpper128, if_pos hj]
  simp [hj, h512, hlt]

/-- Its bits from 128 up to `MAXVL` are the old ones. -/
theorem getLsbD_clipMaxvl_keepUpper128 (f : Feat) (o : VReg) (r : BitVec 128) {j : Nat} (h128 : 128 ≤ j)
    (hlt : j < maxvl f) : (clipMaxvl f (keepUpper128 o r)).getLsbD j = o.getLsbD j := by
  have h512 : j < 512 := hlt.trans_le (maxvl_bounds f).2
  have hge : ¬ j < 128 := by omega
  rw [getLsbD_clipMaxvl, getLsbD_keepUpper128, if_neg hge]
  simp [h512, hlt]

/-- Settles O7: the state of `exec_xmm_of_source`, read at the destination and at the other registers. -/
theorem psadbwXmmCompletes : Obligations.PsadbwXmmCompletes := by
  intro p rex m i s v d hi hen hv
  obtain ⟨hf, rfl⟩ : i.form = .xmm ∧ d = i.dest := by
    rcases hi with ⟨rfl, rfl⟩ | ⟨rfl, rfl⟩
    · exact ⟨rfl, rfl⟩
    · exact ⟨rfl, rfl⟩
  refine ⟨_, exec_xmm_of_source hf hen hv, ?_, fun j h128 hlt => ?_, fun r hr => ?_, rfl⟩
  · rw [State.readView, State.readVec_advance, State.readVec_writeVec_same, setWidth_clipMaxvl_keepUpper128]
  · rw [State.readVec_advance, State.readVec_writeVec_same, getLsbD_clipMaxvl_keepUpper128 _ _ _ h128 hlt]
  · rw [State.readVec_advance, State.readVec_writeVec_other _ _ hr]

/-- Settles O8: both VEX spellings are `exec_vector_of_source` at 128 bits. -/
theorem vpsadbwVex128Completes : Obligations.VpsadbwVex128Completes := by
  rintro p v2 v3 m i s v d s1 (⟨rfl, rfl, rfl⟩ | ⟨rfl, rfl, rfl⟩) hc hen hv
  · exact exec_vector_of_source (by simp [Instr.form]) (by simp [Instr.form]) hc hen hv
  · exact exec_vector_of_source (by simp [Instr.form]) (by simp [Instr.form]) hc hen hv

/-- Settles O9: the same at 256 bits. -/
theorem vpsadbwVex256Completes : Obligations.VpsadbwVex256Completes := by
  rintro p v2 v3 m i s v d s1 (⟨rfl, rfl, rfl⟩ | ⟨rfl, rfl, rfl⟩) hc hen hv
  · exact exec_vector_of_source (by simp [Instr.form]) (by simp [Instr.form]) hc hen hv
  · exact exec_vector_of_source (by simp [Instr.form]) (by simp [Instr.form]) hc hen hv

/-- Settles O10: `exec_vector_of_source` with the EVEX register numbers. -/
theorem vpsadbwEvex128Completes : Obligations.VpsadbwEvex128Completes :=
  fun _ _ _ _ _ hc hen hv => exec_vector_of_source (by simp [Instr.form]) (by simp [Instr.form]) hc hen hv

/-- Settles O11: the same at 256 bits. -/
theorem vpsadbwEvex256Completes : Obligations.VpsadbwEvex256Completes :=
  fun _ _ _ _ _ hc hen hv => exec_vector_of_source (by simp [Instr.form]) (by simp [Instr.form]) hc hen hv

/-- Settles O12: at 512 bits the result fills the register. -/
theorem vpsadbwEvex512Completes : Obligations.VpsadbwEvex512Completes := by
  intro p e m s v hc hen hv
  have h := exec_vector_of_source (i := .vpsadbwEvex512 p e m) (by simp [Instr.form]) (by simp [Instr.form]) hc hen hv
  simp only [Instr.form, vl, BitVec.setWidth_eq] at h
  exact h

end Sys2Proof.Machine
end

section
/-! PROOFS. What a completed instruction leaves as it was, and what it writes besides its result (spec/10_state.md R13, R15, R16,
R21; 20_memory.md R33; the corner cases of R95 to R107). -/

namespace Sys2Proof.Machine

/-! ### Frames -/

/-- Settles O13: either write and the advance of `ip` leave these fields. -/
theorem everyInstructionKeepsTheRest : Obligations.EveryInstructionKeepsTheRest := by
  intro i s t h
  obtain ⟨-, v, rfl⟩ | ⟨-, v, rfl⟩ := exec_next_shape i s t h
  · exact ⟨rfl, rfl, rfl, rfl, rfl, rfl, rfl, rfl, fun _ => rfl⟩
  · exact ⟨rfl, rfl, rfl, rfl, rfl, rfl, rfl, rfl, fun _ => rfl⟩

/-- Settles O14: form 1 writes one MMX register. -/
theorem mmxFormsKeepOtherRegisters : Obligations.MmxFormsKeepOtherRegisters := by
  intro i s t hf h
  obtain ⟨-, v, rfl⟩ | ⟨hf', -⟩ := exec_next_shape i s t h
  · exact ⟨rfl, fun r hr => State.readMm_writeMm_other s v hr⟩
  · exact absurd hf hf'

/-- Settles O15: forms 2 to 7 write one vector register. -/
theorem vectorFormsKeepOtherRegisters : Obligations.VectorFormsKeepOtherRegisters := by
  intro i s t hf h
  obtain ⟨hf', -⟩ | ⟨-, v, rfl⟩ := exec_next_shape i s t h
  · exact absurd hf' hf
  · exact ⟨rfl, rfl, fun r hr => State.readVec_writeVec_other s v hr⟩

/-! ### The instruction pointer -/

/-- The next address, as a number. -/
theorem State.nextIp_toNat (s : State) (n : Nat) :
    (s.nextIp n).toNat = (s.ip.toNat + n) % (if s.mode = .mode32 then 2 ^ 32 else 2 ^ 64) := by
  rw [State.nextIp, advanceAddr]
  split
  · rw [BitVec.toNat_setWidth, BitVec.toNat_setWidth, BitVec.toNat_add, BitVec.toNat_ofNat]
    omega
  · rw [BitVec.toNat_add, BitVec.toNat_ofNat, Nat.add_mod_mod]

/-- A completed instruction advances `ip`. -/
theorem exec_next_ip {i : Instr} {s t : State} (h : exec i s = .next t) : t.ip = s.nextIp i.len := by
  obtain ⟨-, v, rfl⟩ | ⟨-, v, rfl⟩ := exec_next_shape i s t h
  · rfl
  · rfl

/-- Settles O17: by `exec_next_ip` and the value of the next address. -/
theorem instructionPointerAdvances : Obligations.InstructionPointerAdvances := by
  intro i s t h
  rw [exec_next_ip h, State.nextIp_toNat]

/-! ### Bits above `VL` -/

/-- A register that holds a zero-extended result has no bit from the result's width up. -/
theorem getLsbD_clipMaxvl_setWidth (f : Feat) {w : Nat} (r : BitVec w) {j : Nat} (h : w ≤ j) :
    (clipMaxvl f (r.setWidth 512)).getLsbD j = false := by
  rw [getLsbD_clipMaxvl, BitVec.getLsbD_setWidth, BitVec.getLsbD_of_ge r j h]
  simp

/-- Form 2 keeps the bits of its destination from 128 up to `MAXVL`. -/
theorem exec_xmm_keeps_upper {i : Instr} (hf : i.form = .xmm) {s t : State} (h : exec i s = .next t) {j : Nat}
    (h128 : 128 ≤ j) (hlt : j < maxvl s.feat) : (t.readVec i.dest).getLsbD j = (s.readVec i.dest).getLsbD j := by
  obtain ⟨-, src, -, rfl⟩ := (exec_xmm_eq_next hf s t).1 h
  rw [State.readVec_advance, State.readVec_writeVec_same, getLsbD_clipMaxvl_keepUpper128 _ _ _ h128 hlt]

/-- The three-operand forms clear every bit of their destination from `VL` up. -/
theorem exec_vector_clears_upper {i : Instr} (hmm : i.form ≠ .mm) (hxmm : i.form ≠ .xmm) {s t : State}
    (h : exec i s = .next t) {j : Nat} (hj : vl i.form ≤ j) : (t.readVec i.dest).getLsbD j = false := by
  obtain ⟨-, src, -, rfl⟩ := (exec_vector_eq_next hmm hxmm s t).1 h
  rw [State.readVec_advance, State.readVec_writeVec_same, getLsbD_clipMaxvl_setWidth _ _ hj]

/-- Settles O16: form 2 keeps, the three-operand forms clear from their `VL` up. -/
theorem upperBitsOfDestination : Obligations.UpperBitsOfDestination := by
  intro i s t h
  refine ⟨fun hf j h128 hlt => exec_xmm_keeps_upper hf h h128 hlt, fun hf j hj => ?_, fun hf j hj => ?_⟩
  · rcases hf with hf | hf <;> exact exec_vector_clears_upper (by simp [hf]) (by simp [hf]) h (by simpa [hf, vl] using hj)
  · rcases hf with hf | hf <;> exact exec_vector_clears_upper (by simp [hf]) (by simp [hf]) h (by simpa [hf, vl] using hj)

/-! ### The same register twice -/

/-- A register operand of forms 2 to 7 reads as that register. -/
theorem readRmVec_of_src2 {i : Instr} {r : BitVec 5} (h : i.src2 = some r) (s : State) (f : Form) (p : Prefixes) (x : Bool)
    (len : Nat) : readRmVec s f p i.rmHi x i.extB len i.modrm.rm = .next (s.readView (vl f) r) := by
  unfold Instr.src2 at h
  cases hrm : i.modrm.rm with
  | reg rm =>
    rw [hrm] at h
    obtain rfl := Option.some.inj h
    rfl
  | mem a =>
    rw [hrm] at h
    cases h

theorem src1_of_xmm {i : Instr} (hf : i.form = .xmm) : i.src1 = i.dest ∧ i.rmHi = false := by
  cases i with
  | psadbwXmm | psadbwXmmRex => exact ⟨rfl, rfl⟩
  | _ => cases hf

/-- Settles O18: the operand read is the first source itself, and the packed result of equal operands is 0. -/
theorem sameRegisterGivesZero : Obligations.SameRegisterGivesZero := by
  intro i s t h
  refine ⟨fun hf hrm => ?_, fun hf hsrc => ?_, fun hmm hxmm hsrc => ?_⟩
  · obtain ⟨-, src, hread, rfl⟩ := (exec_mm_eq_next hf s t).1 h
    rw [hrm] at hread
    obtain rfl : s.readMm i.modrm.reg = src := Host.Outcome.next.inj hread
    rw [State.readMm_advance, State.readMm_writeMm_same, sadvec_self]
  · refine ⟨?_, fun j h128 hlt => exec_xmm_keeps_upper hf h h128 hlt⟩
    obtain ⟨-, src, hread, rfl⟩ := (exec_xmm_eq_next hf s t).1 h
    obtain ⟨hdest, hhi⟩ := src1_of_xmm hf
    rw [← hhi, readRmVec_of_src2 hsrc, hdest] at hread
    obtain rfl : s.readView 128 i.dest = src := Host.Outcome.next.inj hread
    rw [State.readView, State.readVec_advance, State.readVec_writeVec_same, setWidth_clipMaxvl_keepUpper128, sadvec_self]
  · obtain ⟨-, src, hread, rfl⟩ := (exec_vector_eq_next hmm hxmm s t).1 h
    rw [readRmVec_of_src2 hsrc] at hread
    obtain rfl : s.readView (vl i.form) i.src1 = src := Host.Outcome.next.inj hread
    rw [State.readVec_advance, State.readVec_writeVec_same, sadvec_self]
    simp [clipMaxvl]

/-- With a register operand the vector registers after a three-operand form are those of its registers and width alone. -/
theorem exec_vector_vec_of_src2 {i : Instr} (hmm : i.form ≠ .mm) (hxmm : i.form ≠ .xmm) {s t : State} {r : BitVec 5}
    (hsrc : i.src2 = some r) (h : exec i s = .next t) :
    t.vec = s.vec.set i.dest.toNat (clipMaxvl s.feat
      ((sadvec (vl i.form) (s.readView _ i.src1) (s.readView _ r)).setWidth 512)) i.dest.isLt := by
  obtain ⟨-, src, hread, rfl⟩ := (exec_vector_eq_next hmm hxmm s t).1 h
  rw [readRmVec_of_src2 hsrc] at hread
  obtain rfl := Host.Outcome.next.inj hread
  rfl

/-- Settles O19: with `X`, `R'` and `V'` clear the EVEX spelling names the registers of the VEX one, at the same width. -/
theorem evexAgreesWithVex : Obligations.EvexAgreesWithVex := by
  rintro p ⟨r, x, b, w, vvvv⟩ ⟨er, ex, eb, erHi, ew, evvvv, evHi⟩ ⟨reg, rm'⟩ rm s t t' rfl rfl rfl rfl rfl rfl rfl
  constructor
  · intro h h'
    rw [exec_vector_vec_of_src2 (by simp [Instr.form]) (by simp [Instr.form]) rfl h',
      exec_vector_vec_of_src2 (by simp [Instr.form]) (by simp [Instr.form]) rfl h]
    rfl
  · intro h h'
    rw [exec_vector_vec_of_src2 (by simp [Instr.form]) (by simp [Instr.form]) rfl h',
      exec_vector_vec_of_src2 (by simp [Instr.form]) (by simp [Instr.form]) rfl h]
    rfl

/-! ### Register operands and memory -/

/-- Settles O22: the checks read no memory, and neither does a register operand. -/
theorem registerOperandTouchesNoMemory : Obligations.RegisterOperandTouchesNoMemory := by
  intro i s m hreg
  obtain ⟨r, hrm⟩ : ∃ r, i.modrm.rm = .reg r := by
    cases hrm : i.modrm.rm with
    | reg r => exact ⟨r, rfl⟩
    | mem a => simp [hrm, RmOperand.isMem] at hreg
  have hchecks : ∀ f p rm, formChecks f p rm { s with mem := m } = formChecks f p rm s := fun _ _ _ => rfl
  by_cases hmm : i.form = .mm
  · simp only [exec_of_mm hmm, runMm, hchecks, hrm, readRmMm]
    cases formChecks .mm i.prefixes (.reg r) s <;> rfl
  by_cases hxmm : i.form = .xmm
  · simp only [exec_of_xmm hxmm, runXmm, hchecks, hrm, readRmVec]
    cases formChecks .xmm i.prefixes (.reg r) s <;> rfl
  · simp only [exec_of_vector hmm hxmm, runVector, hchecks, hrm, readRmVec]
    cases formChecks i.form i.prefixes (.reg r) s <;> rfl

end Sys2Proof.Machine
end

section
/-! PROOFS. The ignored bits of an encoding (spec/30_encoding.md R76): what no meaning reads, and the segment overrides in
Mode64. -/

namespace Sys2Proof.Machine

/-! ### Extension bits that an operand does not use -/

/-- Without a SIB byte no index register is named, and `X` is not read. -/
theorem readMemOperand_of_noSib {a : MemForm} (h : (RmOperand.mem a).hasSib = false) (s : State) (f : Form)
    (p : Prefixes) (x x' b : Bool) (len : Nat) :
    readMemOperand s f p x b len a = readMemOperand s f p x' b len a := by
  cases a with
  | base | dispOnly => rfl
  | sib | sibNoBase => cases h

theorem runMm_of_noSib {m : ModRM} (h : m.rm.hasSib = false) (p : Prefixes) (x x' b : Bool) (len : Nat) (s : State) :
    runMm p x b m len s = runMm p x' b m len s := by
  obtain ⟨reg, rm⟩ := m
  cases rm with
  | reg r => rfl
  | mem a => simp only [runMm, readRmMm, readMemOperand_of_noSib h s .mm p x x']

theorem runXmm_of_noSib {m : ModRM} (h : m.rm.hasSib = false) (p : Prefixes) (r x x' b : Bool) (len : Nat) (s : State) :
    runXmm p r x b m len s = runXmm p r x' b m len s := by
  obtain ⟨reg, rm⟩ := m
  cases rm with
  | reg r => rfl
  | mem a => simp only [runXmm, readRmVec, readMemOperand_of_noSib h s .xmm p x x']

/-! ### Segment overrides in Mode64 -/

theorem usesSS_of_mode64 (p : Prefixes) (b : Bool) (a : MemForm) : usesSS .mode64 p b a = defaultSS b a := by
  unfold usesSS
  cases p.seg <;> rfl

/-- In Mode64 the operand is read the same through any override and through none. -/
theorem readMemOperand_withSeg {s : State} (hm : s.mode = .mode64) (f : Form) (p : Prefixes) (o : Option SegOverride)
    (x b : Bool) (len : Nat) (a : MemForm) :
    readMemOperand s f { p with seg := o } x b len a = readMemOperand s f { p with seg := none } x b len a := by
  simp only [readMemOperand, hm, usesSS_of_mode64]
  rfl

/-- The length counts for a RIP-relative operand only (R63). -/
theorem readMemOperand_len {a : MemForm} (ha : (RmOperand.mem a).isDispOnly = false) (s : State) (f : Form) (p : Prefixes)
    (x b : Bool) (len len' : Nat) : readMemOperand s f p x b len a = readMemOperand s f p x b len' a := by
  cases a with
  | dispOnly => cases ha
  | base | sib | sibNoBase => rfl

/-- The meaning of an instruction, were its length `n`. -/
def execAtLen (i : Instr) (n : Nat) (s : State) : Result State :=
  if i.form = .mm then runMm i.prefixes i.extX i.extB i.modrm n s
  else if i.form = .xmm then runXmm i.prefixes (xmmR i) i.extX i.extB i.modrm n s
  else runVector i.form i.prefixes i.dest i.src1 i.rmHi i.extX i.extB i.modrm.rm n s

theorem exec_eq_execAtLen (i : Instr) (s : State) : exec i s = execAtLen i i.len s := by
  unfold execAtLen
  split
  · next hmm => exact exec_of_mm hmm s
  split
  · next hxmm => exact exec_of_xmm hxmm s
  · next hmm hxmm => exact exec_of_vector hmm hxmm s

section Mode64

variable {s : State} (hm : s.mode = .mode64)
include hm

theorem runMm_withSeg (p : Prefixes) (o : Option SegOverride) (x b : Bool) (m : ModRM) (n : Nat) :
    runMm { p with seg := o } x b m n s = runMm { p with seg := none } x b m n s := by
  obtain ⟨reg, rm⟩ := m
  cases rm with
  | reg r => rfl
  | mem a =>
    simp only [runMm, readRmMm, readMemOperand_withSeg hm _ p o]
    rfl

theorem runXmm_withSeg (p : Prefixes) (o : Option SegOverride) (r x b : Bool) (m : ModRM) (n : Nat) :
    runXmm { p with seg := o } r x b m n s = runXmm { p with seg := none } r x b m n s := by
  obtain ⟨reg, rm⟩ := m
  cases rm with
  | reg r => rfl
  | mem a =>
    simp only [runXmm, readRmVec, readMemOperand_withSeg hm _ p o]
    rfl

theorem runVector_withSeg (f : Form) (p : Prefixes) (o : Option SegOverride) (d src1 : BitVec 5) (hi x b : Bool)
    (rm : RmOperand) (n : Nat) :
    runVector f { p with seg := o } d src1 hi x b rm n s = runVector f { p with seg := none } d src1 hi x b rm n s := by
  cases rm with
  | reg r => rfl
  | mem a =>
    simp only [runVector, readRmVec, readMemOperand_withSeg hm _ p o]
    rfl

/-- In Mode64 a segment override matters to the length alone. -/
theorem execAtLen_withSeg (i : Instr) (o : Option SegOverride) (n : Nat) :
    execAtLen (i.withSeg o) n s = execAtLen (i.withSeg none) n s := by
  cases i with
  | psadbwMm p | psadbwMmRex p => exact runMm_withSeg hm ..
  | psadbwXmm p | psadbwXmmRex p => exact runXmm_withSeg hm ..
  | _ => exact runVector_withSeg hm ..

/-- One byte more in Mode64 is one address further. -/
theorem State.advance_succ_of_mode64 (n : Nat) : s.advance (n + 1) = { s.advance n with ip := (s.advance n).ip + 1 } := by
  simp only [State.advance, State.nextIp_of_mode64 hm, BitVec.ofNat_add, BitVec.add_assoc]
  rfl

end Mode64

/-- A prefix byte more moves `ip` one byte further and does nothing else, a RIP-relative operand apart. -/
theorem execAtLen_succ {s : State} (hm : s.mode = .mode64) {i : Instr} (hd : i.modrm.rm.isDispOnly = false) (n : Nat) :
    execAtLen i (n + 1) s = mapNext (fun t => { t with ip := t.ip + 1 }) (execAtLen i n s) := by
  have hmm : ∀ x b, readRmMm s i.prefixes x b (n + 1) i.modrm.rm = readRmMm s i.prefixes x b n i.modrm.rm := by
    revert hd
    cases i.modrm.rm with
    | reg r => exact fun _ _ _ => rfl
    | mem a => exact fun hd _ _ => readMemOperand_len hd ..
  have hvec : ∀ f hi x b,
      readRmVec s f i.prefixes hi x b (n + 1) i.modrm.rm = readRmVec s f i.prefixes hi x b n i.modrm.rm := by
    revert hd
    cases i.modrm.rm with
    | reg r => exact fun _ _ _ _ _ => rfl
    | mem a => exact fun hd _ _ _ _ => readMemOperand_len hd ..
  have hchain : ∀ {α : Type} (r : Result Unit) (r' : Result α) (g : α → State), (∀ v, (g v).mode = .mode64) →
      (andThen r fun _ => andThen r' fun v => .next ((g v).advance (n + 1)))
        = mapNext (fun t => { t with ip := t.ip + 1 })
            (andThen r fun _ => andThen r' fun v => .next ((g v).advance n)) := by
    intro α r r' g hg
    cases r with
    | fault e => rfl
    | refused e => rfl
    | next u =>
      cases r' with
      | fault e => rfl
      | refused e => rfl
      | next v => exact congrArg Host.Outcome.next (State.advance_succ_of_mode64 (hg v) n)
  unfold execAtLen
  split
  · rw [runMm, hmm]
    exact hchain _ _ (fun src => s.writeMm i.modrm.reg (sadvec 64 (s.readMm i.modrm.reg) src)) fun _ => hm
  split
  · rw [runXmm, hvec]
    exact hchain _ _ (fun src => s.writeVec _ _) fun _ => hm
  · rw [runVector, hvec]
    exact hchain _ _ (fun src => s.writeVec _ _) fun _ => hm

theorem modrm_withSeg (i : Instr) (o : Option SegOverride) : (i.withSeg o).modrm = i.modrm := by
  cases i <;> rfl

/-- An override is one byte of the instruction. -/
theorem len_withSeg_some (i : Instr) (o : SegOverride) : (i.withSeg (some o)).len = (i.withSeg none).len + 1 := by
  cases i <;> simp [Instr.withSeg, Instr.len, Prefixes.len] <;> omega

/-- Settles O23: `W` and form 1's `R` are read by no meaning, `X` by an index register or an EVEX register operand alone, and the
overrides in Mode64 by the length alone. -/
theorem ignoredBitsDoNotMatter : Obligations.IgnoredBitsDoNotMatter := by
  intro p rex v e m s w r x b rm i o o'
  refine ⟨rfl, ?_, rfl, rfl, rfl, rfl, rfl, rfl, ?_, ?_, ?_⟩
  · intro hrm
    obtain ⟨reg, _⟩ := m
    subst hrm
    rfl
  · exact fun h => ⟨runMm_of_noSib h .., runXmm_of_noSib h ..⟩
  · intro hrm
    obtain ⟨reg, _⟩ := m
    subst hrm
    exact ⟨rfl, rfl⟩
  · intro hm
    refine ⟨?_, fun f len a => readMemOperand_withSeg hm f p (some o) x b len a, fun hd => ?_⟩
    · rw [exec_eq_execAtLen, exec_eq_execAtLen, execAtLen_withSeg hm, execAtLen_withSeg hm i (some o'),
        len_withSeg_some, len_withSeg_some]
    · rw [exec_eq_execAtLen, exec_eq_execAtLen, execAtLen_withSeg hm, len_withSeg_some]
      exact execAtLen_succ hm (by rwa [modrm_withSeg]) _

end Sys2Proof.Machine
end

section
/-! PROOFS. The faults and refusals of an instruction (spec/60_exceptions.md R121 to R128, R131; 20_memory.md R34 to R38): which
check stops it, and with what record. -/

namespace Sys2Proof.Machine

/-! ### `#UD` and the modes of D1 -/

/-- Settles O24: the `#UD` check comes first among the checks of an admitted instruction, and nothing after it raises `#UD`. -/
theorem undefinedOpcodeExactly : Obligations.UndefinedOpcodeExactly := by
  intro i s hadm
  have hchecks := formChecks_of_admitted i s hadm
  constructor
  · intro h hdef
    rw [if_neg (not_not_intro hdef)] at hchecks
    rcases exec_eq_fault h with hc | ⟨la, hl⟩
    · rw [hchecks] at hc
      split at hc
      · cases hc
      split at hc <;> cases hc
    · rcases loadOperand_eq_fault hl with he | he | ⟨a, he⟩ | he <;> cases he
  · intro hdef
    exact exec_of_checks_fault i s _ (hchecks.trans (if_pos hdef))

/-- Settles O34: the mode is the first check of `exec`, and of `decode`. -/
theorem otherModesAreRefused : Obligations.OtherModesAreRefused := by
  intro i s h64 h32
  have hmode : s.mode.supported = false :=
    Bool.eq_false_iff.2 fun h => ((mode_supported_iff s.mode).1 h).elim h64 h32
  constructor
  · apply exec_of_checks_refused
    simp [formChecks, hmode]
  · simp [step, decode, hmode, State.refusalOf]

/-! ### The range check -/

/-- The bits from `l` up to the top are all 0 or all 1 exactly when they are all equal. -/
theorem extractLsb'_top_iff (a : Addr) {l w : Nat} (hw : l + w = 64) (hpos : 0 < w) :
    (a.extractLsb' l w = 0 ∨ a.extractLsb' l w = BitVec.allOnes w)
      ↔ ∀ j, l ≤ j → j < 64 → a.getLsbD j = a.getLsbD l := by
  constructor
  · rintro (h | h) j hl hj
    all_goals
      have hbit : ∀ k, k < w → (a.extractLsb' l w).getLsbD k = a.getLsbD (l + k) := fun k hk => by
        rw [BitVec.getLsbD_extractLsb', decide_eq_true hk, Bool.true_and]
      have hj' : l + (j - l) = j := by omega
      have hjbit := hbit (j - l) (by omega)
      have hlbit := hbit 0 hpos
      rw [hj', h] at hjbit
      rw [Nat.add_zero, h] at hlbit
      rw [← hjbit, ← hlbit]
      have hk : j - l < w := by omega
      simp [hk, hpos]
  · intro h
    cases htop : a.getLsbD l with
    | false =>
      refine .inl (BitVec.eq_of_getLsbD_eq fun k hk => ?_)
      rw [BitVec.getLsbD_extractLsb', h (l + k) (by omega) (by omega), htop]
      simp
    | true =>
      refine .inr (BitVec.eq_of_getLsbD_eq fun k hk => ?_)
      rw [BitVec.getLsbD_extractLsb', h (l + k) (by omega) (by omega), htop]
      simp [hk]

theorem canonical_bits48_iff (a : Addr) :
    canonical .bits48 a = true ↔ ∀ j, 47 ≤ j → j < 64 → a.getLsbD j = a.getLsbD 47 := by
  rw [← extractLsb'_top_iff a (by decide : 47 + 17 = 64) (by decide)]
  simp only [canonical, Bool.or_eq_true, beq_iff_eq]

theorem canonical_bits57_iff (a : Addr) :
    canonical .bits57 a = true ↔ ∀ j, 56 ≤ j → j < 64 → a.getLsbD j = a.getLsbD 56 := by
  rw [← extractLsb'_top_iff a (by decide : 56 + 8 = 64) (by decide)]
  simp only [canonical, Bool.or_eq_true, beq_iff_eq]

/-- In Mode64 every byte address must be canonical. -/
theorem inRange_iff_of_mode64 {s : State} (hm : s.mode = .mode64) (la : Addr) (n : Nat) :
    inRange s la n = true ↔ ∀ k, k < n → canonical s.vaBits (la + BitVec.ofNat 64 k) = true := by
  have h32 : s.mode ≠ .mode32 := by simp [hm]
  simp [inRange, h32, operandAddrs]

/-- Settles O27: the canonical addresses of either width, byte by byte; in Mode32 the bound on the last byte. -/
theorem addressRangeCheckMeaning : Obligations.AddressRangeCheckMeaning := by
  intro s la n
  refine ⟨fun hm hva => ?_, fun hm hva => ?_, fun hm hn => ?_⟩
  · simp only [inRange_iff_of_mode64 hm, hva, canonical_bits48_iff]
  · simp only [inRange_iff_of_mode64 hm, hva, canonical_bits57_iff]
  · rw [inRange, if_pos hm, decide_eq_true_iff]
    omega

/-! ### The memory operand of an enabled instruction -/

/-- An enabled instruction stops as the load of its memory operand faults. -/
theorem exec_of_load_fault {i : Instr} {s : State} {la : Addr} {e : Fault} (hen : Enabled i s)
    (hla : i.memAddress s = some la) (h : loadOperand s i.form (i.throughSS s) la = .fault e) : exec i s = .fault e := by
  obtain ⟨g, hg⟩ := exec_of_memAddress i s la hen hla
  rw [hg, h, andThen_fault]

/-- It is refused as the load is refused. -/
theorem exec_of_load_refused {i : Instr} {s : State} {la : Addr} {r : Refusal} (hen : Enabled i s)
    (hla : i.memAddress s = some la) (h : loadOperand s i.form (i.throughSS s) la = .refused r) :
    exec i s = .refused r := by
  obtain ⟨g, hg⟩ := exec_of_memAddress i s la hen hla
  rw [hg, h, andThen_refused]

theorem aligned_eq_true_iff (la : Addr) (n : Nat) : aligned la n = true ↔ la.toNat % n = 0 := by
  simp [aligned]

section InRange

variable {s : State} {f : Form} {la : Addr} (hr : inRange s la (operandBytes f) = true)
  (ha : f = .xmm → la.toNat % 16 = 0)
include hr ha

/-- In range, and aligned where form 2 asks it, the load faults with the first unmapped byte. -/
theorem loadOperand_of_unmapped {a : Addr} (h : Memory.load s.mem (operandAddrs la (operandBytes f)) = .error a)
    (ss : Bool) : loadOperand s f ss la = .fault (.pf a s.ip) := by
  have hal : f = .xmm → aligned la 16 = true := fun hf => (aligned_eq_true_iff la 16).2 (ha hf)
  simpa [loadOperand, hr, h] using hal

/-- With every byte mapped, alignment checking decides. -/
theorem loadOperand_of_mapped {bs : List Byte} (h : Memory.load s.mem (operandAddrs la (operandBytes f)) = .ok bs)
    (ss : Bool) : loadOperand s f ss la =
      if s.ctl.alignmentChecking && !aligned la (operandBytes f) then
        (if f = .mm then .fault (.ac s.ip) else .refused .alignmentCheckEnabled)
      else .next bs := by
  have hal : (decide (f = .xmm) && !aligned la 16) = false := by
    by_cases hf : f = .xmm
    · simp [(aligned_eq_true_iff la 16).2 (ha hf)]
    · simp [hf]
  simp [loadOperand, hr, hal, h]

end InRange

/-- An operand whose bytes are all mapped is loaded. -/
theorem load_operandAddrs_of_mapped {s : State} {la : Addr} {n : Nat}
    (h : ∀ k, k < n → Memory.read s.mem (la + BitVec.ofNat 64 k).toNat ≠ none) :
    ∃ bs, Memory.load s.mem (operandAddrs la n) = .ok bs := by
  apply Memory.load_of_mapped
  intro a ha
  obtain ⟨k, hk, rfl⟩ := List.mem_map.1 ha
  exact h k (List.mem_range.1 hk)

/-- Settles O29: the range check, then form 2's alignment, through a segment that is not SS. -/
theorem rangeOrMisalignmentRaisesGP : Obligations.RangeOrMisalignmentRaisesGP := by
  intro i s la hen hla
  refine ⟨fun hss hr => ?_, fun hf hr hal => ?_⟩
  · apply exec_of_load_fault hen hla
    rw [loadOperand_of_not_inRange hr, hss]
    rfl
  · apply exec_of_load_fault hen hla
    have hal' : aligned la 16 = false := Bool.eq_false_iff.2 fun h => hal ((aligned_eq_true_iff la 16).1 h)
    have hr' : inRange s la (operandBytes .xmm) = true := hr
    simp [hf, loadOperand, hr', hal']

/-- Settles O30: every check of the load passes, and what follows a load that answers bytes answers a state. -/
theorem onlyFormTwoNeedsAlignment : Obligations.OnlyFormTwoNeedsAlignment := by
  intro i s la hen hla hr hac hmap hal
  obtain ⟨bs, hload⟩ := load_operandAddrs_of_mapped hmap
  obtain ⟨g, hg⟩ := exec_of_memAddress i s la hen hla
  refine ⟨g bs, ?_⟩
  rw [hg, loadOperand_of_mapped hr (fun hf => hal.resolve_left (not_not_intro hf)) hload]
  simp [hac]

/-- Settles O32: with every byte read, the alignment check is the last one, and form 1 alone faults. -/
theorem alignmentCheckOutcomes : Obligations.AlignmentCheckOutcomes := by
  intro i s la hen hla hr ham heac hcpl hal hmap
  obtain ⟨bs, hload⟩ := load_operandAddrs_of_mapped hmap
  have hac : (s.ctl.alignmentChecking && !aligned la (operandBytes i.form)) = true := by
    have : aligned la (operandBytes i.form) = false :=
      Bool.eq_false_iff.2 fun h => hal ((aligned_eq_true_iff la _).1 h)
    simp [Ctl.alignmentChecking, Ctl.am, Ctl.ac, ham, heac, hcpl, this]
  have hlast : i.form ≠ .xmm → loadOperand s i.form (i.throughSS s) la =
      if i.form = .mm then .fault (.ac s.ip) else .refused .alignmentCheckEnabled := fun hf => by
    rw [loadOperand_of_mapped hr (fun h => absurd h hf) hload, if_pos hac]
  refine ⟨fun hmm => ?_, fun hmm hxmm => ?_⟩
  · exact exec_of_load_fault hen hla ((hlast (by simp [hmm])).trans (if_pos hmm))
  · exact exec_of_load_refused hen hla ((hlast hxmm).trans (if_neg hmm))

/-- The byte addresses of an operand that does not wrap rise. -/
theorem toNat_operand_addr {la : Addr} {n k : Nat} (hk : k < n) (h : la.toNat + n ≤ 2 ^ 64) :
    (la + BitVec.ofNat 64 k).toNat = la.toNat + k := by
  rw [BitVec.toNat_add, BitVec.toNat_ofNat]
  omega

/-- Settles O31: the load stops at byte `k`, the first in operand order; where addresses rise no later one is lower. -/
theorem unmappedByteRaisesPF : Obligations.UnmappedByteRaisesPF := by
  intro i s la k hen hla hr hal hk hnone hfirst
  refine ⟨exec_of_load_fault hen hla ?_, rfl, rfl, fun hwrap j hj hjnone => ?_⟩
  · have hlen : k < (operandAddrs la (operandBytes i.form)).length := by simpa [operandAddrs] using hk
    have hload := Memory.load_of_unmapped s.mem (operandAddrs la (operandBytes i.form)) k hlen
      (by simpa [operandAddrs] using hnone) (fun j hj => by simpa [operandAddrs] using hfirst j hj)
    rw [loadOperand_of_unmapped hr hal hload]
    simp [operandAddrs]
  · have hkj : k ≤ j := Nat.le_of_not_lt fun hlt => hfirst j hlt hjnone
    rw [toNat_operand_addr hk hwrap, toNat_operand_addr hj hwrap]
    omega

/-! ### The fault record -/

/-- A fault of an instruction names the instruction's address. -/
theorem ip_of_exec_fault {i : Instr} {s : State} {e : Fault} (h : exec i s = .fault e) : e.record.ip = s.ip := by
  rcases exec_eq_fault h with hc | ⟨la, hl⟩
  · rcases formChecks_eq_fault hc with rfl | rfl | ⟨-, rfl⟩ <;> rfl
  · rcases loadOperand_eq_fault hl with rfl | rfl | ⟨a, rfl⟩ | rfl <;> rfl

/-- A fault of a step does so too. -/
theorem ip_of_step_fault {s : State} {e : Fault} (h : step s = .fault e) : e.record.ip = s.ip := by
  unfold step at h
  split at h
  · exact ip_of_exec_fault h
  · cases h; rfl
  · cases h; rfl
  · cases h

/-- Settles O33: the records are those of the table, whose rows decide the vector, the error code and the address. -/
theorem faultRecordOfInstruction : Obligations.FaultRecordOfInstruction := by
  refine ⟨fun ip a => ⟨rfl, rfl, rfl, rfl, rfl, rfl, rfl⟩, fun i s e h => ⟨?_, ?_⟩⟩
  · exact h.elim ip_of_exec_fault ip_of_step_fault
  · cases e <;> simp [Fault.record]

end Sys2Proof.Machine
end

section
/-! PROOFS. The effective address (spec/30_encoding.md R62, R64, R66): the sum with either address size, over the low halves
with 32 bits, and the segment that the access goes through. -/

namespace Sys2Proof.Machine

/-! ### Parts of the sum -/

theorem shiftLeft_eq_mul_ofNat {w : Nat} (v : BitVec w) (n : Nat) : v <<< n = v * BitVec.ofNat w (2 ^ n) := by
  apply BitVec.eq_of_toNat_eq
  rw [BitVec.toNat_shiftLeft, BitVec.toNat_mul, BitVec.toNat_ofNat, Nat.shiftLeft_eq, Nat.mul_mod_mod]

/-- The number of no index register, `0100b` (R62). -/
theorem reg4_eq_four_iff (x : Bool) (lo : BitVec 3) : reg4 x lo = 4 ↔ x = false ∧ lo = 4 := by
  revert x lo
  decide

theorem addr32_eq_true_iff (mode : Mode) (p : Prefixes) :
    addr32 mode p = true ↔ mode = .mode32 ∨ p.addrSize = true := by
  simp [addr32]

/-- The index part with 64-bit address size. -/
theorem indexValue_of_addr64 (s : State) (x : Bool) (scale : BitVec 2) (index : BitVec 3) :
    indexValue s false x scale index =
      if x = false ∧ index = 4 then 0 else s.readGpr (reg4 x index) * BitVec.ofNat 64 (2 ^ scale.toNat) := by
  simp only [indexValue, reg4_eq_four_iff, addrReg, shiftLeft_eq_mul_ofNat]
  rfl

/-- Settles O35: with 64-bit address size the address is the sum itself. -/
theorem effectiveAddress64 : Obligations.EffectiveAddress64 := by
  intro s f seg x b len rm index bse scale d d32 hm
  have ha : addr32 s.mode { seg := seg, addrSize := false } = false := by simp [addr32, hm]
  simp only [effectiveAddress_of_addr64 ha, addressSum, indexValue_of_addr64]
  exact ⟨rfl, rfl, trivial⟩

/-! ### 32-bit address size -/

theorem setWidth_add_low (a b : BitVec 64) : (a + b).setWidth 32 = a.setWidth 32 + b.setWidth 32 :=
  BitVec.setWidth_add a b (by decide)

/-- The low half of a register as an address part is that of the register. -/
theorem setWidth_addrReg (s : State) (r : BitVec 4) : (addrReg s true r).setWidth 32 = (s.readGpr r).setWidth 32 :=
  (BitVec.setWidth_setWidth_of_le _ (by decide : 32 ≤ 64)).trans (BitVec.setWidth_eq _)

/-- The low half of the index part is the scaled low half. -/
theorem setWidth_indexValue (s : State) (x : Bool) (scale : BitVec 2) (index : BitVec 3) :
    (indexValue s true x scale index).setWidth 32 =
      if x = false ∧ index = 4 then 0
      else (s.readGpr (reg4 x index)).setWidth 32 * BitVec.ofNat 32 (2 ^ scale.toNat) := by
  simp only [indexValue, reg4_eq_four_iff]
  split
  · rfl
  · rw [shiftLeft_eq_mul_ofNat, BitVec.setWidth_mul _ _ (by decide), setWidth_addrReg,
      BitVec.setWidth_ofNat_of_le (by decide)]

/-- An address with 32-bit address size is below `2 ^ 32`. -/
theorem toNat_effectiveAddress_lt {s : State} {p : Prefixes} (h : addr32 s.mode p = true) (f : Form) (x b : Bool)
    (len : Nat) (a : MemForm) : (effectiveAddress s f p x b len a).toNat < 2 ^ 32 := by
  rw [effectiveAddress_of_addr32 h, BitVec.toNat_setWidth]
  exact (Nat.mod_le _ _).trans_lt (BitVec.isLt _)

/-- With 32-bit address size the sum reads low halves alone. -/
theorem addressSum_congr_low {s : State} {g : Vector (BitVec 64) 16}
    (hg : ∀ k : Fin 16, (g[k]).setWidth 32 = (s.gpr[k]).setWidth 32) (x b : Bool) (n len : Nat) (a : MemForm) :
    addressSum { s with gpr := g } true x b n len a = addressSum s true x b n len a := by
  have hreg : ∀ r, addrReg { s with gpr := g } true r = addrReg s true r := fun r =>
    congrArg (BitVec.setWidth 64) (hg r.toFin)
  have hindex : ∀ scale index, indexValue { s with gpr := g } true x scale index = indexValue s true x scale index :=
    fun scale index => by simp only [indexValue, hreg]
  cases a with
  | base rm d => simp only [addressSum, hreg]
  | dispOnly d => rfl
  | sib scale index bse d => simp only [addressSum, hreg, hindex]
  | sibNoBase scale index d => simp only [addressSum, hindex]

/-- Settles O37: taking the low half passes through the sum to its parts, which are low halves of registers. -/
theorem address32UsesLowHalves : Obligations.Address32UsesLowHalves := by
  constructor
  · intro s f p x b len rm index bse scale d d32 hmode
    have ha : addr32 s.mode p = true := by
      rw [addr32_eq_true_iff]
      exact hmode.imp And.left And.right
    simp only [effectiveAddress_of_addr32 ha]
    refine ⟨?_, ?_, ?_, fun h32 => ?_, fun h64 => ?_⟩
    · simp only [addressSum, setWidth_add_low, setWidth_addrReg]
    · simp only [addressSum, setWidth_add_low, setWidth_addrReg, setWidth_indexValue]
    · simp only [addressSum, setWidth_add_low, setWidth_indexValue, setWidth_signExtend_disp]
    · rw [addressSum_dispOnly_of_mode32 h32, setWidth_signExtend_disp]
    · rw [addressSum_dispOnly_of_mode64 h64, setWidth_add_low, setWidth_add_low, setWidth_signExtend_disp,
        BitVec.setWidth_ofNat_of_le (by decide)]
  · intro s g f p x b len a hmode hg
    have ha : addr32 s.mode p = true := (addr32_eq_true_iff ..).2 hmode
    refine ⟨toNat_effectiveAddress_lt ha .., ?_⟩
    rw [effectiveAddress_of_addr32 (s := { s with gpr := g }) ha, effectiveAddress_of_addr32 ha, addressSum_congr_low hg]

/-! ### The segment (R66) -/

/-- Register 5 is rBP. -/
theorem reg4_eq_five_iff (b : Bool) (lo : BitVec 3) : reg4 b lo = 5 ↔ b = false ∧ lo = 5 := by
  revert b lo
  decide

/-- Settles O39: without an override, and in Mode64 with one, the base register decides; in Mode32 an override does. -/
theorem stackSegmentDefault : Obligations.StackSegmentDefault := by
  intro b a32 rm index bse scale d d32 o a
  refine ⟨?_, ?_, rfl, rfl, rfl, usesSS_of_mode64 .., ?_⟩
  · simp only [usesSS, defaultSS, beq_iff_eq, reg4_eq_five_iff]
  · simp only [usesSS, defaultSS, Bool.or_eq_true, beq_iff_eq, reg4_eq_four_iff, reg4_eq_five_iff, and_or_left]
  · simp [usesSS]

end Sys2Proof.Machine
end

section
/-! PROOFS. One step (spec/60_exceptions.md R131): what it does with the answer of the decoder, and which bytes it decodes (R15,
R155). -/

namespace Sys2Proof.Machine

/-! ### The answers of the decoder -/

/-- Settles O50: the first case of `step`. -/
theorem stepRunsDecodedInstruction : Obligations.StepRunsDecodedInstruction := by
  intro s i h
  simp only [step, h]

/-- Settles O51: the second and the third case of `step`, and an encoding that reaches the third. -/
theorem stepFaultsOnIllegalEncodings : Obligations.StepFaultsOnIllegalEncodings := by
  refine ⟨fun s h => ?_, fun s h => ?_, by decide⟩
  · simp only [step, h, raise_eq]
  · simp only [step, h, raise_eq]

theorem step_of_missing {s : State} (h : decode s.mode s.fetchBytes = .rejected .fetchOutsideCode) :
    step s = .refused s.missingByte := by
  simp only [step, h, State.refusalOf]

/-- A step that answers a next state has run the instruction that it decoded. -/
theorem exec_of_step_eq_next {s t : State} (h : step s = .next t) :
    ∃ i, decode s.mode s.fetchBytes = .instr i ∧ exec i s = .next t := by
  unfold step at h
  split at h
  · next i hi => exact ⟨i, hi, h⟩
  all_goals cases h

/-! ### The bytes at `ip` -/

/-- Outside the text there are no bytes. -/
theorem textBytes_eq_nil {s : State} (h : s.ip.toNat < s.codeBase.toNat ∨ s.codeEnd ≤ s.ip.toNat) : s.textBytes = [] := by
  unfold State.textBytes
  split
  · next hin =>
    rw [List.drop_eq_nil_iff]
    rw [State.codeEnd] at h hin
    omega
  · rfl

/-- The bytes at `ip`, where there are some, lie inside the text and below the top of the address space. -/
theorem textBytes_bounds {s : State} (h : 0 < s.textBytes.length) :
    s.codeBase.toNat ≤ s.ip.toNat ∧ s.ip.toNat + s.textBytes.length = s.codeEnd ∧ s.codeEnd < ipSpace s.mode := by
  unfold State.textBytes at h ⊢
  split at h
  · next hin =>
    rw [if_pos hin]
    rw [List.length_drop] at h ⊢
    rw [State.codeEnd] at hin ⊢
    omega
  · cases h

/-- With no byte at `ip` the step is refused: past the text, or at a non-canonical address. -/
theorem step_of_fetchBytes_nil {s : State} (hmode : s.mode.supported = true) (h : s.fetchBytes = []) :
    step s = .refused (if s.textBytes = [] then .fetchOutsideCode else .nonCanonicalFetch) := by
  have hd : decode s.mode s.fetchBytes = .rejected .fetchOutsideCode := by
    rw [h, decode_of_supported hmode]
    rfl
  rw [step_of_missing hd, missingByte_eq, h]
  simp only [eq_comm]

theorem step_of_textBytes_nil {s : State} (hmode : s.mode.supported = true) (h : s.textBytes = []) :
    step s = .refused .fetchOutsideCode := by
  have hfetch : s.fetchBytes = [] := List.prefix_nil.1 (h ▸ fetchBytes_prefix s)
  rw [step_of_fetchBytes_nil hmode hfetch, if_pos h]

/-- Settles O53: at `codeEnd` no byte of the text is left. -/
theorem noStepAtCodeEnd : Obligations.NoStepAtCodeEnd := by
  intro s hmode hfinal
  have hend : s.ip.toNat = s.codeEnd := by simpa [State.final] using hfinal
  exact step_of_textBytes_nil hmode (textBytes_eq_nil (.inr hend.ge))

theorem fetchBytes_of_mode64 {s : State} (hm : s.mode = .mode64) :
    s.fetchBytes = takeCanonical s.vaBits s.ip s.textBytes :=
  if_pos hm

/-- Settles O60: the decoder lacks a byte, and what the text holds beyond the bytes that can be fetched says which one; every byte
fetched is at a canonical address. -/
theorem textMustHoldWholeInstruction : Obligations.TextMustHoldWholeInstruction := by
  refine ⟨fun s hmode hip => step_of_textBytes_nil hmode (textBytes_eq_nil hip), fun s bs i k hi hk hfetch => ?_,
    fun s hm htext hr => ?_, fun s i hm hi => ?_⟩
  · have hmissing : decode s.mode s.fetchBytes = .rejected .fetchOutsideCode := hfetch ▸ decode_take_of_lt hi hk
    rw [step_of_missing hmissing, missingByte_eq, hfetch]
    exact ⟨fun h => by rw [if_pos h.symm], fun h => by rw [if_neg (Ne.symm h)]⟩
  · have hnc : canonical s.vaBits s.ip = false := by
      refine Bool.eq_false_iff.2 fun hc => Bool.eq_false_iff.1 hr ((inRange_iff_of_mode64 hm ..).2 fun k hk => ?_)
      obtain rfl : k = 0 := by omega
      simpa using hc
    have hfetch : s.fetchBytes = [] := by
      rw [fetchBytes_of_mode64 hm]
      cases s.textBytes with
      | nil => rfl
      | cons b bs => simp [takeCanonical, hnc]
    rw [step_of_fetchBytes_nil (by rw [hm]; rfl) hfetch, if_neg htext]
  · obtain ⟨-, -, -, hlen, -⟩ := decodedInstructionIsWellFormed _ _ i hi
    rw [fetchBytes_of_mode64 hm] at hlen
    exact (inRange_iff_of_mode64 hm ..).2 fun k hk => canonical_of_takeCanonical _ _ _ k (hk.trans_le hlen)

/-! ### Launch -/

/-- Addresses below `2 ^ 47` are canonical with 48 address bits. -/
theorem canonical_bits48_of_lt {a : Addr} (h : a.toNat < 2 ^ 47) : canonical .bits48 a = true := by
  have hbit : ∀ j, 47 ≤ j → a.getLsbD j = false := fun j hj =>
    Nat.testBit_lt_two_pow (h.trans_le (Nat.pow_le_pow_right (by decide) hj))
  exact (canonical_bits48_iff a).2 fun j hj _ => by rw [hbit j hj, hbit 47 (by decide)]

/-- A program placed below the top of the address space is at `ip` whole. -/
theorem textBytes_place {s : State} {code : List Byte} (h : s.ip.toNat + code.length < ipSpace s.mode) :
    (s.place code).textBytes = code := by
  have hin : (s.place code).codeEnd < ipSpace (s.place code).mode
      ∧ (s.place code).codeBase.toNat ≤ (s.place code).ip.toNat := ⟨h, le_refl _⟩
  rw [State.textBytes, if_pos hin, State.place_ip, State.place_codeBase, Nat.sub_self, List.drop_zero, State.place_code]

/-- A program placed below `2 ^ 47` in Mode64 can be fetched whole. -/
theorem fetchBytes_place {s : State} (hm : s.mode = .mode64) (hva : s.vaBits = .bits48) {code : List Byte}
    (h : s.ip.toNat + code.length ≤ 2 ^ 47) : (s.place code).fetchBytes = code := by
  have hspace : ipSpace s.mode = 2 ^ 64 := by rw [hm]; rfl
  rw [fetchBytes_of_mode64 (s := s.place code) hm, textBytes_place (by omega), State.place_vaBits, hva]
  refine takeCanonical_of_canonical _ _ _ fun k hk => canonical_bits48_of_lt ?_
  rw [State.place_ip, BitVec.toNat_add, BitVec.toNat_ofNat]
  omega

/-- Settles O52: the launch boots into Mode64, and the bytes at `ip` are those of the program. -/
theorem launchedProgramRuns : Obligations.LaunchedProgramRuns := by
  intro code i hi hlen
  refine stepRunsDecodedInstruction _ i ?_
  have hfetch : (State.reset.launch code).fetchBytes = code := fetchBytes_place (s := State.reset.boot) rfl rfl hlen
  rw [hfetch]
  exact hi

end Sys2Proof.Machine
end

section
/-! PROOFS. Runs (spec/70_reset_and_hazards.md R154, R155), the invariant of the state, and the values at power-up and after boot
(R22, R151). -/

namespace Sys2Proof.Machine

/-! ### What a run keeps -/

/-- The state `t` has the memory, the general registers, the control bits and the parameters of `s`. -/
def SameLaunch (s t : State) : Prop :=
  t.mem = s.mem ∧ t.gpr = s.gpr ∧ t.ctl = s.ctl ∧ t.mxcsr = s.mxcsr ∧ t.mode = s.mode ∧ t.feat = s.feat
    ∧ t.vaBits = s.vaBits ∧ t.codeBase = s.codeBase ∧ t.code = s.code

theorem SameLaunch.trans {s t u : State} (h : SameLaunch s t) (h' : SameLaunch t u) : SameLaunch s u := by
  obtain ⟨h1, h2, h3, h4, h5, h6, h7, h8, h9⟩ := h
  obtain ⟨k1, k2, k3, k4, k5, k6, k7, k8, k9⟩ := h'
  exact ⟨k1.trans h1, k2.trans h2, k3.trans h3, k4.trans h4, k5.trans h5, k6.trans h6, k7.trans h7, k8.trans h8,
    k9.trans h9⟩

theorem sameLaunch_of_exec {i : Instr} {s t : State} (h : exec i s = .next t) : SameLaunch s t := by
  obtain ⟨-, v, rfl⟩ | ⟨-, v, rfl⟩ := exec_next_shape i s t h
  · exact ⟨rfl, rfl, rfl, rfl, rfl, rfl, rfl, rfl, rfl⟩
  · exact ⟨rfl, rfl, rfl, rfl, rfl, rfl, rfl, rfl, rfl⟩

theorem sameLaunch_of_step {s t : State} (h : step s = .next t) : SameLaunch s t := by
  obtain ⟨i, -, hi⟩ := exec_of_step_eq_next h
  exact sameLaunch_of_exec hi

/-- A run of one more step is a step and a run. -/
theorem run_succ (k : Nat) (s : State) :
    Host.Core.run Sys2Proof.core (k + 1) s = andThen (step s) (Host.Core.run Sys2Proof.core k) := by
  change _ = andThen (Sys2Proof.core.step s) (Host.Core.run Sys2Proof.core k)
  simp only [Host.Core.run]
  cases Sys2Proof.core.step s <;> rfl

theorem run_succ_eq_next {k : Nat} {s t : State} (h : Host.Core.run Sys2Proof.core (k + 1) s = .next t) :
    ∃ u, step s = .next u ∧ Host.Core.run Sys2Proof.core k u = .next t :=
  (andThen_eq_next ..).1 ((run_succ k s).symm.trans h)

/-- Settles O54: induction on the steps; each one keeps what an instruction keeps. -/
theorem runKeepsLaunchParameters : Obligations.RunKeepsLaunchParameters := by
  intro k
  induction k with
  | zero =>
    intro s t h
    obtain rfl : s = t := Host.Outcome.next.inj h
    exact ⟨rfl, rfl, rfl, rfl, rfl, rfl, rfl, rfl, rfl⟩
  | succ k ih =>
    intro s t h
    obtain ⟨u, hu, ht⟩ := run_succ_eq_next h
    exact (sameLaunch_of_step hu).trans (ih u t ht)

/-- A step moves `ip` forward by an instruction's length inside the text: the bytes that it decoded are all there. -/
theorem step_ip_bounds {s t : State} (h : step s = .next t) :
    s.codeBase.toNat ≤ s.ip.toNat ∧ s.ip.toNat + 3 ≤ t.ip.toNat ∧ t.ip.toNat ≤ s.codeEnd := by
  obtain ⟨i, hi, hexec⟩ := exec_of_step_eq_next h
  obtain ⟨-, h3, -, hlen, -⟩ := decodedInstructionIsWellFormed _ _ i hi
  have hfetch := (fetchBytes_prefix s).length_le
  obtain ⟨hbase, hend, hspace⟩ := textBytes_bounds (s := s) (by omega)
  have hip : t.ip.toNat = s.ip.toNat + i.len := by
    rw [exec_next_ip hexec, State.nextIp_toNat]
    refine Nat.mod_eq_of_lt ?_
    rw [ipSpace] at hspace
    omega
  omega

/-- Settles O55: the bound of a step, summed over the run; the parameters that it speaks of do not change. -/
theorem runsEndWithinTheText : Obligations.RunsEndWithinTheText := by
  intro k
  induction k with
  | zero => exact fun s t _ h => absurd h (lt_irrefl 0)
  | succ k ih =>
    intro s t h _
    obtain ⟨u, hu, ht⟩ := run_succ_eq_next h
    obtain ⟨hbase, hstep, hend⟩ := step_ip_bounds hu
    have hcode : u.codeEnd = s.codeEnd := by
      obtain ⟨-, -, -, -, -, -, -, hcb, hc⟩ := sameLaunch_of_step hu
      rw [State.codeEnd, State.codeEnd, hcb, hc]
    have hdef : s.codeEnd = s.codeBase.toNat + s.code.length := rfl
    rcases Nat.eq_zero_or_pos k with rfl | hk
    · obtain rfl : u = t := Host.Outcome.next.inj ht
      omega
    · obtain ⟨hrun, hrunEnd, -⟩ := ih u t ht hk
      omega

/-! ### The invariant -/

/-- An instruction that completes has passed its checks. -/
theorem formChecks_of_exec_next {i : Instr} {s t : State} (h : exec i s = .next t) :
    formChecks i.form i.prefixes i.modrm.rm s = .next () := by
  cases hc : formChecks i.form i.prefixes i.modrm.rm s with
  | next u => rfl
  | fault e => cases (exec_of_checks_fault i s e hc).symm.trans h
  | refused r => cases (exec_of_checks_refused i s r hc).symm.trans h

/-- Registers 16 to 31 are destinations of the EVEX forms alone (R71). -/
theorem evex_of_dest_high {i : Instr} (h : 16 ≤ i.dest.toNat) :
    i.form = .evex128 ∨ i.form = .evex256 ∨ i.form = .evex512 := by
  have hlow : ∀ (r : Bool) (lo : BitVec 3), ¬16 ≤ (reg5 false r lo).toNat := by decide
  cases i with
  | vpsadbwEvex128 => exact .inl rfl
  | vpsadbwEvex256 => exact .inr (.inl rfl)
  | vpsadbwEvex512 => exact .inr (.inr rfl)
  | _ => exact absurd h (hlow _ _)

/-- With consistent flags (R4) the EVEX forms have AVX512F. -/
theorem avx512f_of_evex {f : Form} {ft : Feat} (hc : ft.consistent = true) (hok : featureOk f ft = true)
    (hf : f = .evex128 ∨ f = .evex256 ∨ f = .evex512) : ft.avx512f = true := by
  have hbw : ft.avx512bw = true := by
    rcases hf with rfl | rfl | rfl
    · exact (Bool.and_eq_true_iff.1 hok).2
    · exact (Bool.and_eq_true_iff.1 hok).2
    · exact hok
  simp only [Feat.consistent, hbw, Bool.and_eq_true, Bool.not_true, Bool.false_or] at hc
  obtain ⟨⟨⟨-, hbwf⟩, -⟩, -⟩ := hc
  exact hbwf

/-- The next address in Mode32 fits 32 bits. -/
theorem nextIp_lt_of_mode32 {s : State} (hm : s.mode = .mode32) (n : Nat) : (s.nextIp n).toNat < 2 ^ 32 := by
  rw [State.nextIp_toNat, if_pos hm]
  exact Nat.mod_lt _ (by decide)

/-- Every instruction keeps the invariant: the register written is clipped to `MAXVL`, and is one of 16 to 31 only where the form
has AVX512F. -/
theorem inv_of_exec_next {i : Instr} {s t : State} (hinv : s.Inv) (h : exec i s = .next t) : t.Inv := by
  obtain ⟨hfeat, hwidth, hhigh, -, hmem⟩ := hinv
  obtain ⟨-, -, hok, -⟩ := (formChecks_eq_next ..).1 (formChecks_of_exec_next h)
  obtain ⟨-, v, rfl⟩ | ⟨-, v, rfl⟩ := exec_next_shape i s t h
  · exact ⟨hfeat, hwidth, hhigh, fun hm => nextIp_lt_of_mode32 (s := s) hm i.len, hmem⟩
  · refine ⟨hfeat, fun r j hj => ?_, fun hf r hr => ?_, fun hm => nextIp_lt_of_mode32 (s := s) hm i.len, hmem⟩
    · by_cases hrd : r = i.dest
      · have hlt : ¬j < maxvl s.feat := Nat.not_lt.2 hj
        subst hrd
        rw [State.readVec_advance, State.readVec_writeVec_same, getLsbD_clipMaxvl, decide_eq_false hlt]
        simp
      · rw [State.readVec_advance, State.readVec_writeVec_other _ _ hrd, hwidth r j hj]
    · have hrd : r ≠ i.dest := by
        rintro rfl
        have hf' : s.feat.avx512f = false := hf
        rw [avx512f_of_evex hfeat hok (evex_of_dest_high hr)] at hf'
        cases hf'
      rw [State.readVec_advance, State.readVec_writeVec_other _ _ hrd, hhigh hf r hr]

/-- Settles O56: a step that answers a next state is an instruction that does. -/
theorem stepKeepsInvariant : Obligations.StepKeepsInvariant := by
  intro s t hinv h
  obtain ⟨i, -, hi⟩ := exec_of_step_eq_next h
  exact inv_of_exec_next hinv hi

/-! ### Power-up and boot -/

theorem readVec_reset (i : BitVec 5) : State.reset.readVec i = 0 := by
  simp [State.readVec, State.reset]

/-- Settles O57: the vector registers are 0 and memory is empty. -/
theorem resetHasInvariant : Obligations.ResetHasInvariant where
  featConsistent := rfl
  vecWidth i j _ := by simp [readVec_reset]
  highAbsent _ i _ := readVec_reset i
  ip32 h := by cases h
  memCanonical := Memory.wf_nil

/-- Settles O58: the fields of `State.reset`. -/
theorem resetValues : Obligations.ResetValues := by
  refine ⟨fun i => ?_, readVec_reset, fun i _ => ?_, rfl, rfl, rfl, rfl, rfl, rfl, rfl, rfl, rfl, rfl⟩
  · simp [State.readMm, State.reset]
  · simp [State.readGpr, State.reset]

/-- No form but form 1 is defined with the control bits of power-up: CR4 is 0. -/
theorem not_formDefined_of_reset_ctl {f : Form} {s : State} (hctl : s.ctl = State.reset.ctl) (hf : f ≠ .mm) :
    ¬FormDefined f s := by
  have hcr4 : s.ctl.cr4 = 0 := by rw [hctl]; rfl
  cases f <;> simp_all [FormDefined]

/-- The bits that R151 clears in CR0 and sets in CR4 and XCR0. -/
theorem boot_bits (s : State) :
    s.boot.ctl.cr0.getLsbD 2 = false ∧ s.boot.ctl.cr0.getLsbD 3 = false ∧ s.boot.ctl.cr4.getLsbD 9 = true
      ∧ s.boot.ctl.cr4.getLsbD 18 = true ∧ s.boot.ctl.xcr0.getLsbD 1 = true ∧ s.boot.ctl.xcr0.getLsbD 2 = true
      ∧ s.boot.ctl.xcr0.getLsbD 5 = true ∧ s.boot.ctl.xcr0.getLsbD 6 = true ∧ s.boot.ctl.xcr0.getLsbD 7 = true := by
  simp [State.boot]

/-- Settles O59: CR4 of power-up leaves forms 2 to 7 undefined; the booted bits are those that every form asks for. -/
theorem powerUpAndBootedControlBits : Obligations.PowerUpAndBootedControlBits := by
  refine ⟨fun i s hadm hctl hf => ?_, fun i s hfeat hadm => ?_⟩
  · exact (undefinedOpcodeExactly i s hadm).2 (not_formDefined_of_reset_ctl hctl hf)
  · obtain ⟨hem, hts, hosfxsr, hosxsave, h1, h2, h5, h6, h7⟩ := boot_bits s
    refine ⟨hadm, ?_, hts, fun _ => rfl⟩
    have hfeat' : s.boot.feat = allFeatures := hfeat
    unfold FormDefined
    rw [hfeat']
    cases i.form <;> simp only [hem, hosfxsr, hosxsave, h1, h2, h5, h6, h7] <;> decide

end Sys2Proof.Machine
end
